-- ==== Sys2Proof/Word.lean ====
section
/-! DEFINITION. The widths the spec gives the machine's values (00_scope.md R9, R10): every value is unsigned. -/

namespace Sys2Proof

/-- One byte: a symbol, a byte of MSG or STR, a `sym_id` entry (20_memory.md R50, 10_state.md R36). -/
abbrev Byte := BitVec 8

/-- One 32-bit unsigned value: a command word, a coder state, a numeric table entry (30_encoding.md R70,
10_state.md R20, section 4). -/
abbrev Word := BitVec 32

/-- One 64-bit byte counter: LEN, WP, RP, REND, CC (00_scope.md R10). -/
abbrev DWord := BitVec 64

/-- The four-bit operand field `a` of a command word (30_encoding.md R71). -/
abbrev Nibble := BitVec 4

end Sys2Proof
end

