-- ==== Sys2Proof/Syntax.lean ====
section
/-! DEFINITION. The 22 commands of RANSCORE-1 (30_encoding.md R73), one constructor per row of the opcode table.
An operand is carried at the full width of its field: whether its value is legal is decided when the command
executes (30_encoding.md R72, R79), not when it is decoded. -/

namespace Sys2Proof

inductive Instr where
  /-- nothing (45_system_commands.md R140) -/
  | nop
  /-- set `K`, `P`; clear the model (45_system_commands.md R141) -/
  | cfg (k : Nibble) (p : Byte)
  /-- soft reset; clears a fault (45_system_commands.md R142) -/
  | srst
  /-- clear counts and model (40_frequency_model.md R90) -/
  | fclr
  /-- count one byte (40_frequency_model.md R91) -/
  | fcnt (b : Byte)
  /-- count `MSG[0..LEN)` (40_frequency_model.md R95) -/
  | fscan
  /-- normalize counts to sum `M` (40_frequency_model.md R93) -/
  | fnorm
  /-- load the 512-byte table from the source (40_frequency_model.md R96) -/
  | fld
  /-- store the 512-byte table into the reverse sink (40_frequency_model.md R97) -/
  | fst
  /-- build the alias table (41_alias_table.md R100) -/
  | abld
  /-- `r[j] <- L` (42_coder_state.md R110) -/
  | einit (j : Nibble)
  /-- encode a symbol with state `j` (42_coder_state.md R111) -/
  | eput (j : Nibble) (sym : Byte)
  /-- emit the four bytes of `r[j]` (42_coder_state.md R112) -/
  | eflush (j : Nibble)
  /-- encode `MSG[0..LEN)` with `K` states (43_interleaved_driver.md R120) -/
  | enc
  /-- read four bytes into `r[j]` (42_coder_state.md R113) -/
  | dinit (j : Nibble)
  /-- alias lookup and advance; symbol to SYMO (42_coder_state.md R114) -/
  | dget (j : Nibble)
  /-- read bytes while `r[j] < L` (42_coder_state.md R115) -/
  | drenorm (j : Nibble)
  /-- decode LEN symbols into MSG with `K` states (43_interleaved_driver.md R121) -/
  | dec
  /-- empty the reverse sink (44_stream_and_container.md R133) -/
  | sclr
  /-- point the source at what the sink holds (44_stream_and_container.md R134) -/
  | rewind
  /-- store LEN into the reverse sink (44_stream_and_container.md R135) -/
  | lst
  /-- load LEN from the source (44_stream_and_container.md R136) -/
  | lld
deriving DecidableEq, Repr

end Sys2Proof
end

