-- ==== Sys2Proof/WellFormed.lean ====
section
/-! DEFINITION. The part of operand legality (30_encoding.md R72) that can be read off the command alone: `j` must
name one of the four coder states (`j < CFG.K` is a question of the state), `K ∈ {1, 2, 4}`, `8 ≤ P ≤ 16`. -/

namespace Sys2Proof

/-- `j` names one of the `KMAX = 4` coder state registers (10_state.md R20). -/
def wellFormedStream (j : Nibble) : Bool := decide (j.toNat < 4)

/-- `K` is 1, 2 or 4 (30_encoding.md R72). -/
def wellFormedInterleave (k : Nibble) : Bool := decide (k.toNat = 1 ∨ k.toNat = 2 ∨ k.toNat = 4)

/-- `8 ≤ P ≤ 16` (30_encoding.md R72). -/
def wellFormedScale (p : Byte) : Bool := decide (8 ≤ p.toNat ∧ p.toNat ≤ 16)

/-- The state-independent operand checks of every command (30_encoding.md R72). -/
def wellFormed (i : Instr) : Bool :=
  match i with
  | .cfg k p => wellFormedInterleave k && wellFormedScale p
  | .einit j => wellFormedStream j
  | .eput j _ => wellFormedStream j
  | .eflush j => wellFormedStream j
  | .dinit j => wellFormedStream j
  | .dget j => wellFormedStream j
  | .drenorm j => wellFormedStream j
  | .fcnt _ => true
  | .nop => true
  | .srst => true
  | .fclr => true
  | .fscan => true
  | .fnorm => true
  | .fld => true
  | .fst => true
  | .abld => true
  | .enc => true
  | .dec => true
  | .sclr => true
  | .rewind => true
  | .lst => true
  | .lld => true

end Sys2Proof
end

