-- ==== Sys2Proof/Decode.lean ====
section
/-! DEFINITION. Command words (30_encoding.md R70 to R74): the decoder, total on all `2^32` words, an illegal word
rejected under a name; then the encoder. -/

namespace Sys2Proof

/-- Why a word spells no command (30_encoding.md R74). -/
inductive Illegal where
  /-- the opcode is not in the map of R73 -/
  | unlistedOpcode
  /-- a bit of `z1 = w[23:20]` is set -/
  | z1NotZero
  /-- the format has no `a` operand and a bit of `w[19:16]` is set -/
  | aNotZero
  /-- a bit of `z2 = w[15:8]` is set -/
  | z2NotZero
  /-- the format has no `imm` operand and a bit of `w[7:0]` is set -/
  | immNotZero
deriving DecidableEq, Repr

/-- The fields of a command word (30_encoding.md R71). -/
def opField (w : Word) : Byte := w.extractLsb' 24 8
def z1Field (w : Word) : Nibble := w.extractLsb' 20 4
def aField (w : Word) : Nibble := w.extractLsb' 16 4
def z2Field (w : Word) : Byte := w.extractLsb' 8 8
def immField (w : Word) : Byte := w.extractLsb' 0 8

/-- The check every format shares: `z1` and `z2` are zero (30_encoding.md R71). -/
def withZeros (w : Word) (r : Except Illegal Instr) : Except Illegal Instr :=
  if z1Field w ≠ 0 then .error .z1NotZero
  else if z2Field w ≠ 0 then .error .z2NotZero
  else r

/-- Format Z: no operand. -/
def formatZ (w : Word) (i : Instr) : Except Illegal Instr :=
  withZeros w (if aField w ≠ 0 then .error .aNotZero else if immField w ≠ 0 then .error .immNotZero else .ok i)

/-- Format J: the stream index `j` in `a`. -/
def formatJ (w : Word) (f : Nibble → Instr) : Except Illegal Instr :=
  withZeros w (if immField w ≠ 0 then .error .immNotZero else .ok (f (aField w)))

/-- Formats JS and C: both operand fields in use. -/
def formatAImm (w : Word) (f : Nibble → Byte → Instr) : Except Illegal Instr :=
  withZeros w (.ok (f (aField w) (immField w)))

/-- Format B: the byte `b` in `imm`. -/
def formatB (w : Word) (f : Byte → Instr) : Except Illegal Instr :=
  withZeros w (if aField w ≠ 0 then .error .aNotZero else .ok (f (immField w)))

/-- The opcode map (30_encoding.md R73). Total: a word spells one command or is illegal (R74). -/
def decode (w : Word) : Except Illegal Instr :=
  match (opField w).toNat with
  | 0x00 => formatZ w .nop
  | 0x01 => formatAImm w .cfg
  | 0x02 => formatZ w .srst
  | 0x10 => formatZ w .fclr
  | 0x11 => formatB w .fcnt
  | 0x12 => formatZ w .fscan
  | 0x13 => formatZ w .fnorm
  | 0x14 => formatZ w .fld
  | 0x15 => formatZ w .fst
  | 0x20 => formatZ w .abld
  | 0x30 => formatJ w .einit
  | 0x31 => formatAImm w .eput
  | 0x32 => formatJ w .eflush
  | 0x38 => formatZ w .enc
  | 0x40 => formatJ w .dinit
  | 0x41 => formatJ w .dget
  | 0x42 => formatJ w .drenorm
  | 0x48 => formatZ w .dec
  | 0x50 => formatZ w .sclr
  | 0x51 => formatZ w .rewind
  | 0x52 => formatZ w .lst
  | 0x53 => formatZ w .lld
  | _ => .error .unlistedOpcode

/-- A word from its operand-bearing fields, `z1` and `z2` zero (30_encoding.md R71). -/
def assemble (op : Byte) (a : Nibble) (imm : Byte) : Word :=
  op ++ (0#4 : Nibble) ++ a ++ (0#8 : Byte) ++ imm

/-- The word of a command (30_encoding.md R76). -/
def encode (i : Instr) : Word :=
  match i with
  | .nop => assemble 0x00 0 0
  | .cfg k p => assemble 0x01 k p
  | .srst => assemble 0x02 0 0
  | .fclr => assemble 0x10 0 0
  | .fcnt b => assemble 0x11 0 b
  | .fscan => assemble 0x12 0 0
  | .fnorm => assemble 0x13 0 0
  | .fld => assemble 0x14 0 0
  | .fst => assemble 0x15 0 0
  | .abld => assemble 0x20 0 0
  | .einit j => assemble 0x30 j 0
  | .eput j sym => assemble 0x31 j sym
  | .eflush j => assemble 0x32 j 0
  | .enc => assemble 0x38 0 0
  | .dinit j => assemble 0x40 j 0
  | .dget j => assemble 0x41 j 0
  | .drenorm j => assemble 0x42 j 0
  | .dec => assemble 0x48 0 0
  | .sclr => assemble 0x50 0 0
  | .rewind => assemble 0x51 0 0
  | .lst => assemble 0x52 0 0
  | .lld => assemble 0x53 0 0

/-- The decoder's answer for a row of spec/opcode_table.json: `w` numbers the command word's bits as the table
does (bit 0 the least significant), `nbits` of them are given and the rest are zero. The CORE receives whole
words and has no byte order for commands (30_encoding.md R70). -/
def decodeTableWord (nbits w : Nat) : Option Instr :=
  match decode (BitVec.ofNat 32 (w % 2 ^ nbits)) with
  | .ok i => some i
  | .error _ => none

end Sys2Proof
end

