-- ==== Sys2Proof/Config.lean ====
section
/-! DEFINITION. What an implementation fixes (the OPEN parameters) and the values the spec leaves unspecified.
A free value is an opaque constant: nothing in Lean can evaluate it, so a theorem about it holds for every value. -/

namespace Sys2Proof.Config

/-- `MSG_CAP` of the machine that `State.reset` describes (00_scope.md R8: OPEN, `1 ≤ MSG_CAP < 2^32`).
DESIGN CHOICE 64, the capacity of 95_test_vectors.md's start state (log 2). Every state carries its own
capacity, so a statement over all states holds for every capacity. -/
def msgCap : DWord := 64

/-- `STR_CAP` of the machine that `State.reset` describes (00_scope.md R8: OPEN, `1 ≤ STR_CAP < 2^63`).
DESIGN CHOICE 1024, the capacity of 95_test_vectors.md's start state (log 2). -/
def strCap : DWord := 1024

/-- The byte a MSG address nothing has written holds, for each epoch of the buffers: unspecified
(10_state.md R46, 93_implementation_defined.md U5 'any value'; log 3). -/
opaque unwrittenMsg : (epoch address : Nat) → Byte

/-- The byte a STR address nothing has written holds, for each epoch of the buffers: unspecified
(10_state.md R46, 93_implementation_defined.md U5 'any value'; log 3). -/
opaque unwrittenStr : (epoch address : Nat) → Byte

/-- The five arrays whose contents are unspecified while `TV = 0` (10_state.md R46). -/
inductive AliasArray where
  | divider | symId | slotFreqs | slotAdjust | aliasRemap
deriving DecidableEq, Repr

/-- What a host read of an alias array entry returns where the spec leaves the entry unspecified
(10_state.md R46: 'a host read while `TV = 0` returns an unspecified value'). DESIGN CHOICE (log 4): it depends on the
array, the number of resets and the index alone. Of an 8-bit entry the low byte alone is used. -/
opaque unspecifiedEntry : (array : AliasArray) → (epoch index : Nat) → Word

/-- What EPUT would read at an `alias_remap` index that does not exist; only states no run reaches form such an
index (42_coder_state.md R111: the index is below `M`; log 5). -/
opaque noSuchRemapEntry : (index : Nat) → Word

end Sys2Proof.Config
end

