-- ==== Sys2Proof/Machine/Mem.lean ====
section
/-! DEFINITION. A byte buffer (20_memory.md R50) as a list of (address, byte) cells in one canonical form: addresses
strictly rising, all inside the buffer. An unlisted address holds no written byte; so no cell can equal what an
unlisted address holds, and equal contents are equal lists. -/

namespace Sys2Proof.Machine

/-- The byte written at an address; `none` where nothing was written. -/
def Mem.lookup : List Host.Cell → (address : Nat) → Option Byte
  | [], _ => none
  | (a, b) :: cells, x => if x = a then some b else if x < a then none else lookup cells x

/-- Write one byte, keeping the addresses rising. -/
def Mem.store : List Host.Cell → (address : Nat) → Byte → List Host.Cell
  | [], x, v => [(x, v)]
  | (a, b) :: cells, x, v =>
    if x < a then (x, v) :: (a, b) :: cells
    else if x = a then (x, v) :: cells
    else (a, b) :: store cells x v

/-- Addresses strictly rising, none below `low`, all below `cap`. -/
def Mem.risingFrom (cap low : Nat) : List Host.Cell → Bool
  | [] => true
  | (a, _) :: cells => decide (low ≤ a) && decide (a < cap) && risingFrom cap (a + 1) cells

/-- The canonical form of a buffer of `cap` bytes. -/
def Memory.wf (cap : Nat) (cells : List Host.Cell) : Bool := Mem.risingFrom cap 0 cells

end Sys2Proof.Machine
end

