-- ==== Sys2Proof/Machine/Table.lean ====
section
/-! DEFINITION. A register file of `2^n` entries as plain data: a complete binary tree, so that it has exactly its
entries and no others, two equal files are equal data, and one entry is reached in `n` steps. Entry numbers are
natural numbers below `2^n`. -/

namespace Sys2Proof.Machine

/-- `2^n` entries of type `α`: the entries below `2^n / 2` in `lo`, the others in `hi`. -/
inductive Table (α : Type) : Nat → Type where
  | leaf (v : α) : Table α 0
  | node {n : Nat} (lo hi : Table α n) : Table α (n + 1)
deriving DecidableEq, Repr

/-- Every entry `v`. -/
def Table.fill {α : Type} (v : α) : (n : Nat) → Table α n
  | 0 => .leaf v
  | n + 1 => .node (fill v n) (fill v n)

/-- Entry `i` is `f i`. -/
def Table.tabulate {α : Type} : (n : Nat) → (f : Nat → α) → Table α n
  | 0, f => .leaf (f 0)
  | n + 1, f => .node (tabulate n f) (tabulate n fun i => f (2 ^ n + i))

/-- Entry `i`, for `i < 2^n`. -/
def Table.get {α : Type} : {n : Nat} → Table α n → Nat → α
  | _, .leaf v, _ => v
  | _, .node (n := n) lo hi, i => if i < 2 ^ n then lo.get i else hi.get (i - 2 ^ n)

/-- The file with entry `i` written, for `i < 2^n`. -/
def Table.set {α : Type} : {n : Nat} → Table α n → Nat → α → Table α n
  | _, .leaf _, _, v => .leaf v
  | _, .node (n := n) lo hi, i, v => if i < 2 ^ n then .node (lo.set i v) hi else .node lo (hi.set (i - 2 ^ n) v)

/-- Every entry through `f`. -/
def Table.map {α β : Type} (f : α → β) : {n : Nat} → Table α n → Table β n
  | _, .leaf v => .leaf (f v)
  | _, .node lo hi => .node (lo.map f) (hi.map f)

/-- Every entry passes the test. -/
def Table.all {α : Type} (test : α → Bool) : {n : Nat} → Table α n → Bool
  | _, .leaf v => test v
  | _, .node lo hi => lo.all test && hi.all test

end Sys2Proof.Machine
end

