-- ==== Sys2Proof/Machine/State.lean ====
section
/-! DEFINITION. Every piece of state the spec gives the CORE (10_state.md, 20_memory.md R50), as plain data, the
pending actions of the host, and the state after power-on (10_state.md R46). -/

namespace Sys2Proof.Machine

/-- The legal values of CFG.K (10_state.md R30); an illegal one never occurs (93_implementation_defined.md U17). -/
inductive Interleave where
  | one | two | four
deriving DecidableEq, Repr

/-- The legal values of CFG.P (10_state.md R30); an illegal one never occurs (93_implementation_defined.md U17). -/
inductive Scale where
  | p8 | p9 | p10 | p11 | p12 | p13 | p14 | p15 | p16
deriving DecidableEq, Repr

/-- STATUS.MS (10_state.md R31); the value 3 never occurs. -/
inductive ModelStatus where
  | raw | empty | valid
deriving DecidableEq, Repr

/-- The five fault kinds of the CORE (60_exceptions.md R150), latched in FAULT.CODE; they are state of the machine,
not outcomes of a step. -/
inductive FaultKind where
  | badHeader | truncatedInput | io | invariantViolation | illegalCommand
deriving DecidableEq, Repr

/-- `cum[0..257)` (10_state.md R34): `low` holds `cum[0..256)`, `top` holds `cum[256]`. -/
structure CumTable where
  low : Table Word 8
  top : Word
deriving DecidableEq, Repr

/-- What the host does to the CORE between commands (20_memory.md R60) or at any time (70_reset_and_hazards.md
R170). Host reads change nothing and are functions of the state (Machine/HostPort.lean). -/
inductive Input where
  /-- present one command word -/
  | command (w : Word)
  /-- write the 32-bit register number `n` at the host port (10_state.md R45) -/
  | writeReg (n : Nat) (v : Word)
  /-- write `MSG[i]` -/
  | writeMsg (i : Nat) (b : Byte)
  /-- write `STR[a]` -/
  | writeStr (a : Nat) (b : Byte)
  /-- assert the reset input, between commands or in the middle of one, which is then abandoned -/
  | resetInput (midCommand : Bool)
  /-- remove and restore power -/
  | powerOn
deriving DecidableEq, Repr

/-- The CORE, its two capacities, and the host's pending actions. -/
structure State where
  /-- capacity of MSG in bytes, constant during a run (00_scope.md R8) -/
  msgCap : DWord
  /-- capacity of STR in bytes, constant during a run (00_scope.md R8) -/
  strCap : DWord
  /-- the coder state registers `r[0..4)` (10_state.md R20) -/
  r : Table Word 2
  /-- command counter (10_state.md R29) -/
  cc : DWord
  /-- CFG.K (10_state.md R30) -/
  k : Interleave
  /-- CFG.P (10_state.md R30) -/
  p : Scale
  /-- STATUS.MS (10_state.md R31) -/
  ms : ModelStatus
  /-- STATUS.TV (10_state.md R31) -/
  tv : Bool
  /-- FAULT.CODE, `none` for code 0 (10_state.md R32) -/
  fault : Option FaultKind
  /-- FCMD (10_state.md R32) -/
  fcmd : Word
  /-- SYMO bits 7:0; the other bits read as 0 (10_state.md R43) -/
  symo : Byte
  /-- LEN (10_state.md R40) -/
  len : DWord
  /-- WP, the write pointer of the reverse sink (10_state.md R41) -/
  wp : DWord
  /-- RP, the read pointer of the forward source (10_state.md R42) -/
  rp : DWord
  /-- REND, the exclusive end of the readable window (10_state.md R42) -/
  rend : DWord
  /-- `freq[0..256)` (10_state.md R33) -/
  freq : Table Word 8
  /-- `cum[0..257)` (10_state.md R34) -/
  cum : CumTable
  /-- `divider[0..256)` (10_state.md R35) -/
  divider : Table Word 8
  /-- `sym_id[0..512)` (10_state.md R36) -/
  symId : Table Byte 9
  /-- `slot_freqs[0..512)` (10_state.md R37) -/
  slotFreqs : Table Word 9
  /-- `slot_adjust[0..512)` (10_state.md R38) -/
  slotAdjust : Table Word 9
  /-- `alias_remap[0..65536)` (10_state.md R39) -/
  aliasRemap : Table Word 16
  /-- the written bytes of the message buffer MSG (20_memory.md R51) -/
  msg : List Host.Cell
  /-- the written bytes of the stream buffer STR (20_memory.md R52) -/
  str : List Host.Cell
  /-- what the host does next, first action first (10_state.md R29, 70_reset_and_hazards.md R179; log 1) -/
  inputs : List Input
  /-- MODEL's own: which unspecified contents the unwritten buffer bytes have (log 3) -/
  bufEpoch : Nat
  /-- MODEL's own: which unspecified contents the alias arrays have (log 4) -/
  aliasEpoch : Nat
deriving DecidableEq, Repr

/-- Why a step stops the model. No command stops it: the CORE's own faults are latched in the state
(60_exceptions.md R152). -/
inductive Fault where
  /-- raised by a host write of `MSG[i]` with `i ≥ MSG_CAP`, which the spec gives no meaning (20_memory.md R60); safe -/
  | noSuchMsgByte (i : Nat)
  /-- raised by a host write of `STR[a]` with `a ≥ STR_CAP`, which the spec gives no meaning (20_memory.md R60); safe -/
  | noSuchStrByte (a : Nat)
deriving DecidableEq, Repr

/-- Why the model declines an instruction. -/
inductive Refusal where
  /-- raised by an arm of `exec` whose instruction has no meaning in the model; safe; no arm does -/
  | notModelled (mnemonic : String)
deriving DecidableEq, Repr

/-- The state after power-on of a CORE with the given capacities (10_state.md R46). The alias arrays, which the spec
leaves unspecified, hold zeros that no command and no host read sees (log 4). -/
def State.powerOn (msgCap strCap : DWord) : State where
  msgCap := msgCap
  strCap := strCap
  r := .fill 0x00800000 2
  cc := 0
  k := .one
  p := .p14
  ms := .raw
  tv := false
  fault := none
  fcmd := 0
  symo := 0
  len := 0
  wp := strCap
  rp := strCap
  rend := strCap
  freq := .fill 0 8
  cum := ⟨.fill 0 8, 0⟩
  divider := .fill 0 8
  symId := .fill 0 9
  slotFreqs := .fill 0 9
  slotAdjust := .fill 0 9
  aliasRemap := .fill 0 16
  msg := []
  str := []
  inputs := []
  bufEpoch := 0
  aliasEpoch := 0

/-- The machine right after reset (10_state.md R46), with the capacities of Config. -/
def State.reset : State := State.powerOn Config.msgCap Config.strCap

end Sys2Proof.Machine
end

