-- ==== Sys2Proof/Machine/Operands.lean ====
section
/-! DEFINITION. Operand forms (30_encoding.md R72) and the values CFG derives (00_scope.md R7): no operand is
sign-extended, scaled or shifted. -/

namespace Sys2Proof.Machine

/-- `K` as a number (00_scope.md R7). -/
def Interleave.count (k : Interleave) : Nat :=
  match k with
  | .one => 1
  | .two => 2
  | .four => 4

/-- The `K` operand; `none` where its value is illegal (30_encoding.md R72). -/
def Interleave.ofField (f : Nibble) : Option Interleave :=
  match f.toNat with
  | 1 => some .one
  | 2 => some .two
  | 4 => some .four
  | _ => none

/-- `P` as a number (00_scope.md R7). -/
def Scale.exponent (p : Scale) : Nat :=
  match p with
  | .p8 => 8
  | .p9 => 9
  | .p10 => 10
  | .p11 => 11
  | .p12 => 12
  | .p13 => 13
  | .p14 => 14
  | .p15 => 15
  | .p16 => 16

/-- The `P` operand; `none` where its value is illegal (30_encoding.md R72). -/
def Scale.ofField (f : Byte) : Option Scale :=
  match f.toNat with
  | 8 => some .p8
  | 9 => some .p9
  | 10 => some .p10
  | 11 => some .p11
  | 12 => some .p12
  | 13 => some .p13
  | 14 => some .p14
  | 15 => some .p15
  | 16 => some .p16
  | _ => none

/-- `M = 2^P`, the total probability mass (00_scope.md R7). -/
def Scale.mass (p : Scale) : Nat := 2 ^ p.exponent

/-- `T = M / N = 2^(P-8)`, the bucket height (00_scope.md R7). -/
def Scale.height (p : Scale) : Nat := 2 ^ (p.exponent - 8)

/-- `L = 2^23`, the lower bound of the normalization interval (00_scope.md R6). -/
def lowerBound : Nat := 0x00800000

/-- `j` names a coder state in use: `j < CFG.K` (30_encoding.md R72). -/
def streamLegal (j : Nibble) (s : State) : Bool := decide (j.toNat < s.k.count)

/-- The low 32 bits of a 64-bit register (10_state.md R45). -/
def lowHalf (v : DWord) : Word := v.extractLsb' 0 32

/-- The high 32 bits of a 64-bit register (10_state.md R45). -/
def highHalf (v : DWord) : Word := v.extractLsb' 32 32

/-- A 64-bit register after a host write of its low half (10_state.md R40). -/
def withLowHalf (v : DWord) (x : Word) : DWord := highHalf v ++ x

/-- A 64-bit register after a host write of its high half (10_state.md R40). -/
def withHighHalf (v : DWord) (x : Word) : DWord := x ++ lowHalf v

/-- Byte `n` of a value, byte 0 the least significant (20_memory.md R53, R55). -/
def byteOf (v n : Nat) : Byte := BitVec.ofNat 8 (v >>> (8 * n))

end Sys2Proof.Machine
end

