-- ==== Sys2Proof/Machine/Flags.lean ====
section
/-! DEFINITION. The status bits and which command is admitted under which of them (10_state.md R31, R32, R49;
30_encoding.md R78), and the control registers as the words the host reads. The CORE has no arithmetic flags. -/

namespace Sys2Proof.Machine

/-- STATUS.MS (10_state.md R31). -/
def ModelStatus.code (m : ModelStatus) : BitVec 2 :=
  match m with
  | .raw => 0
  | .empty => 1
  | .valid => 2

/-- FAULT.CODE of a kind (60_exceptions.md R150). -/
def FaultKind.code (f : FaultKind) : BitVec 3 :=
  match f with
  | .badHeader => 1
  | .truncatedInput => 2
  | .io => 3
  | .invariantViolation => 4
  | .illegalCommand => 5

/-- FAULT.CODE (10_state.md R32). -/
def State.faultCode (s : State) : BitVec 3 :=
  match s.fault with
  | none => 0
  | some f => f.code

/-- STATUS.FAULTED: 1 exactly when FAULT.CODE is not 0, that is when a kind is latched (10_state.md R31). -/
def State.faulted (s : State) : Bool := s.fault.isSome

/-- The CFG register (10_state.md R30). -/
def State.cfgWord (s : State) : Word :=
  (0#12 : BitVec 12) ++ BitVec.ofNat 4 s.k.count ++ (0#8 : BitVec 8) ++ BitVec.ofNat 8 s.p.exponent

/-- The STATUS register (10_state.md R31). -/
def State.statusWord (s : State) : Word :=
  (0#28 : BitVec 28) ++ BitVec.ofBool s.faulted ++ BitVec.ofBool s.tv ++ s.ms.code

/-- The FAULT register (10_state.md R32). -/
def State.faultWord (s : State) : Word := (0#29 : BitVec 29) ++ s.faultCode

/-- The SYMO register: bits 31:8 read as 0 (10_state.md R43). -/
def State.symoWord (s : State) : Word := (0#24 : BitVec 24) ++ s.symo

/-- `LEN ≤ MSG_CAP` (30_encoding.md R78). -/
def State.lenFits (s : State) : Bool := decide (s.len ≤ s.msgCap)

/-- The whole-message commands' condition: `LEN ≤ MSG_CAP` and (`LEN = 0` or `TV = 1`) (30_encoding.md R78). -/
def State.codable (s : State) : Bool := s.lenFits && (decide (s.len = 0) || s.tv)

/-- Which state a command needs: operand legality (30_encoding.md R72) and the admission table (R78). -/
def admits (i : Instr) (s : State) : Bool :=
  match i with
  | .nop => true
  | .cfg k p => (Interleave.ofField k).isSome && (Scale.ofField p).isSome
  | .srst => true
  | .fclr => true
  | .fcnt _ => decide (s.ms = .raw)
  | .fscan => decide (s.ms = .raw) && s.lenFits
  | .fnorm => decide (s.ms = .raw)
  | .fld => decide (s.ms = .raw)
  | .fst => decide (s.ms ≠ .raw)
  | .abld => decide (s.ms ≠ .raw)
  | .einit j => streamLegal j s
  | .eput j _ => streamLegal j s && s.tv
  | .eflush j => streamLegal j s
  | .enc => s.codable
  | .dinit j => streamLegal j s
  | .dget j => streamLegal j s && s.tv
  | .drenorm j => streamLegal j s
  | .dec => s.codable
  | .sclr => true
  | .rewind => true
  | .lst => true
  | .lld => true

end Sys2Proof.Machine
end

