-- ==== Sys2Proof/Machine/Ops.lean ====
section
/-! DEFINITION. The named operations every meaning is built from: the updates of one piece of state, sequencing with
`raise` (60_exceptions.md R152), the loops of the pseudocode (00_scope.md R11), the byte primitives PutByte and
GetByte (44_stream_and_container.md R131, R132), taking a fault, executing a command (30_encoding.md R79), reset. -/

namespace Sys2Proof.Machine

/-! ### Updates of one piece of state -/

/-- Replace what the host does next. -/
def State.withInputs (s : State) (inputs : List Input) : State := { s with inputs := inputs }
/-- `r[j] <- v`. -/
def State.setR (s : State) (j : Nat) (v : Word) : State := { s with r := s.r.set j v }
/-- `CFG.K <- k ; CFG.P <- p`. -/
def State.setCfg (s : State) (k : Interleave) (p : Scale) : State := { s with k := k, p := p }
/-- `MS <- ms ; TV <- tv`. -/
def State.setFlags (s : State) (ms : ModelStatus) (tv : Bool) : State := { s with ms := ms, tv := tv }
/-- `SYMO <- b`. -/
def State.setSymo (s : State) (b : Byte) : State := { s with symo := b }
/-- `LEN <- v`. -/
def State.setLen (s : State) (v : DWord) : State := { s with len := v }
/-- `WP <- v`. -/
def State.setWp (s : State) (v : DWord) : State := { s with wp := v }
/-- `RP <- v`. -/
def State.setRp (s : State) (v : DWord) : State := { s with rp := v }
/-- `REND <- v`. -/
def State.setRend (s : State) (v : DWord) : State := { s with rend := v }
/-- All of `freq[]`. -/
def State.setFreq (s : State) (t : Table Word 8) : State := { s with freq := t }
/-- All of `cum[]`. -/
def State.setCum (s : State) (c : CumTable) : State := { s with cum := c }
/-- The five alias arrays. -/
def State.setAlias (s : State) (divider : Table Word 8) (symId : Table Byte 9) (slotFreqs slotAdjust : Table Word 9)
    (aliasRemap : Table Word 16) : State :=
  { s with divider := divider, symId := symId, slotFreqs := slotFreqs, slotAdjust := slotAdjust, aliasRemap := aliasRemap }
/-- The written bytes of MSG. -/
def State.setMsg (s : State) (cells : List Host.Cell) : State := { s with msg := cells }
/-- The written bytes of STR. -/
def State.setStr (s : State) (cells : List Host.Cell) : State := { s with str := cells }
/-- `CC <- CC + 1`, modulo `2^64` (10_state.md R29). -/
def State.bumpCc (s : State) : State := { s with cc := s.cc + 1 }
/-- FAULT.CODE and FCMD as `raise` writes them (60_exceptions.md R152). -/
def State.latch (s : State) (f : FaultKind) (word : Word) : State := { s with fault := some f, fcmd := word }

/-! ### `cum[]` and the buffers -/

/-- `cum[i]`, `0 ≤ i ≤ 256` (10_state.md R34). -/
def CumTable.entry (c : CumTable) (i : Nat) : Word := if i < 256 then c.low.get i else c.top

/-- `cum[i] <- v`, `0 ≤ i ≤ 256`. -/
def CumTable.put (c : CumTable) (i : Nat) (v : Word) : CumTable :=
  if i < 256 then { c with low := c.low.set i v } else { c with top := v }

/-- Every entry 0. -/
def CumTable.zero : CumTable := ⟨.fill 0 8, 0⟩

/-- `MSG[i]`: the byte last written, a free byte where nothing was (20_memory.md R57, 10_state.md R46). -/
def State.readMsg (s : State) (i : Nat) : Byte := (Mem.lookup s.msg i).getD (Config.unwrittenMsg s.bufEpoch i)

/-- `STR[a]`: the byte last written, a free byte where nothing was (20_memory.md R57, 10_state.md R46). -/
def State.readStr (s : State) (a : Nat) : Byte := (Mem.lookup s.str a).getD (Config.unwrittenStr s.bufEpoch a)

/-- `MSG[i] <- b`; there is no byte at or above MSG_CAP to write (20_memory.md R51). -/
def State.writeMsg (s : State) (i : Nat) (b : Byte) : State :=
  if i < s.msgCap.toNat then s.setMsg (Mem.store s.msg i b) else s

/-- `STR[a] <- b`; there is no byte at or above STR_CAP to write (20_memory.md R52). -/
def State.writeStr (s : State) (a : Nat) (b : Byte) : State :=
  if a < s.strCap.toNat then s.setStr (Mem.store s.str a b) else s

/-! ### Sequencing with `raise` -/

/-- How a stretch of pseudocode ends: it ran through with a result, or a statement raised a fault. Either way the
state holds every write made so far (60_exceptions.md R152). -/
inductive Res (α : Type) where
  | ok (s : State) (a : α)
  | raised (s : State) (f : FaultKind)
deriving DecidableEq, Repr

/-- Run the next stretch unless a fault was raised. -/
def Res.bind {α β : Type} (x : Res α) (next : State → α → Res β) : Res β :=
  match x with
  | .ok s a => next s a
  | .raised s f => .raised s f

/-- The state at the end of the stretch. -/
def Res.state {α : Type} (x : Res α) : State :=
  match x with
  | .ok s _ => s
  | .raised s _ => s

/-! ### Loops (00_scope.md R11) -/

/-- `for i in 0..n-1: body`. -/
def forUp (n : Nat) (body : Nat → State → Res Unit) (s : State) : Res Unit :=
  match n with
  | 0 => .ok s ()
  | n + 1 => (forUp n body s).bind fun s' _ => body n s'

/-- `for i in n-1 downto 0: body`. -/
def forDown (n : Nat) (body : Nat → State → Res Unit) (s : State) : Res Unit :=
  match n with
  | 0 => .ok s ()
  | n + 1 => (body n s).bind fun s' _ => forDown n body s'

/-- `for i in 0..n-1` over local data that cannot raise. -/
def countUp {σ : Type} (n : Nat) (body : Nat → σ → σ) (x : σ) : σ :=
  match n with
  | 0 => x
  | n + 1 => body n (countUp n body x)

/-- `test i` for every `i < n`. -/
def allBelow (n : Nat) (test : Nat → Bool) : Bool :=
  match n with
  | 0 => true
  | n + 1 => allBelow n test && test n

/-! ### The byte primitives -/

/-- PutByte(b), the reverse sink (44_stream_and_container.md R131). -/
def putByte (b : Byte) (s : State) : Res Unit :=
  if s.wp = 0 then .raised s .io
  else .ok ((s.setWp (s.wp - 1)).writeStr (s.wp - 1).toNat b) ()

/-- GetByte(), the forward source (44_stream_and_container.md R132). -/
def getByte (s : State) : Res Byte :=
  if s.rend ≤ s.rp ∨ s.strCap ≤ s.rp then .raised s .truncatedInput
  else .ok (s.setRp (s.rp + 1)) (s.readStr s.rp.toNat)

/-- Push the `n` low bytes of `v`, most significant first, so that read forward they are little-endian
(20_memory.md R53, R55). -/
def pushBytes (n v : Nat) (s : State) : Res Unit := forDown n (fun k => putByte (byteOf v k)) s

/-- Read `n` bytes forward, least significant first (20_memory.md R53, R55). The bytes fill disjoint bit ranges, so
the spec's `|` is a sum. -/
def pullBytes (n : Nat) (s : State) : Res Nat :=
  match n with
  | 0 => .ok s 0
  | n + 1 => (pullBytes n s).bind fun s' v => (getByte s').bind fun s'' b => .ok s'' (v + b.toNat * 256 ^ n)

/-- How many bytes GetByte can still return: the window is `STR[RP..min(REND, STR_CAP))`
(44_stream_and_container.md R132). -/
def State.window (s : State) : Nat := min s.rend.toNat s.strCap.toNat - s.rp.toNat

/-! ### Executing a command -/

/-- The end of a command: completed, CC counts it (10_state.md R29); or the one fault-entry mechanism
(60_exceptions.md R152). -/
def finish (word : Word) (x : Res Unit) : Host.Outcome State Fault Refusal :=
  match x with
  | .ok s _ => .next s.bumpCc
  | .raised s f => .next (s.latch f word)

/-- One command, checks in the order of 30_encoding.md R79: discarded while a fault is latched (60_exceptions.md
R153), IllegalCommand where an operand is illegal or the state does not admit it, else its own pseudocode. -/
def issue (i : Instr) (body : State → Res Unit) (s : State) : Host.Outcome State Fault Refusal :=
  if s.faulted then .next s
  else if admits i s then finish (encode i) (body s)
  else .next (s.latch .illegalCommand (encode i))

/-- A word that spells no command (30_encoding.md R74, R79): IllegalCommand, or discarded while a fault is latched. -/
def rejectWord (word : Word) (s : State) : State :=
  if s.faulted then s else s.latch .illegalCommand word

/-! ### Reset -/

/-- The register and table state of 10_state.md R46, both buffers kept: what SRST and the reset input between
commands do (70_reset_and_hazards.md R170). The host's pending actions are no state of the CORE. -/
def State.resetKeepingBuffers (s : State) : State :=
  { State.powerOn s.msgCap s.strCap with
    msg := s.msg
    str := s.str
    inputs := s.inputs
    bufEpoch := s.bufEpoch
    aliasEpoch := s.aliasEpoch + 1 }

/-- The same with both buffers unspecified: power-on, and the reset input in the middle of a command
(70_reset_and_hazards.md R170). -/
def State.resetLosingBuffers (s : State) : State :=
  { s.resetKeepingBuffers with
    msg := []
    str := []
    bufEpoch := s.bufEpoch + 1 }

/-- `freq[]` and `cum[]` cleared, `MS <- RAW`, `TV <- 0` (40_frequency_model.md R90, 45_system_commands.md R141).
DESIGN CHOICE (log 4): `aliasEpoch` stays, so a host read of an alias entry after a CFG or FCLR that made a table invalid
returns the free value it returned at `TV = 0` before ABLD; the spec allows any value each time
(93_implementation_defined.md U5). -/
def State.clearModel (s : State) : State := ((s.setFreq (.fill 0 8)).setCum .zero).setFlags .raw false

end Sys2Proof.Machine
end

