-- ==== Sys2Proof/Machine/AliasTable.lean ====
section
/-! DEFINITION. The Alias Table command ABLD (41_alias_table.md): the Vose sweep, the slot materialization and the
post-condition. Temporaries are exact natural numbers (00_scope.md R12). -/

namespace Sys2Proof.Machine

/-! ### Phase 1, the Vose sweep (41_alias_table.md R101) -/

/-- The arrays Phase 1 writes, its working storage `remaining[]` and its three cursors. -/
structure Sweep where
  remaining : Table Nat 8
  symId : Table Byte 9
  divider : Table Word 8
  large : Nat
  small : Nat
  nextSmall : Nat
deriving DecidableEq, Repr

/-- The first index at or after `i` that fails `skip`, looking at no more than `n` entries. -/
def scanFrom (skip : Nat → Bool) (n i : Nat) : Nat :=
  match n with
  | 0 => i
  | n + 1 => if skip i then scanFrom skip n (i + 1) else i

/-- `while large < 256 and remaining[large] < T: large = large + 1`. -/
def scanLarge (height : Nat) (remaining : Table Nat 8) (i : Nat) : Nat :=
  scanFrom (fun x => decide (remaining.get x < height)) (256 - i) i

/-- `while small < 256 and remaining[small] >= T: small = small + 1`. -/
def scanSmall (height : Nat) (remaining : Table Nat 8) (i : Nat) : Nat :=
  scanFrom (fun x => decide (height ≤ remaining.get x)) (256 - i) i

/-- The initialization of Phase 1. -/
def sweepStart (height : Nat) (freq : Table Word 8) : Sweep :=
  let remaining := freq.map fun f => f.toNat
  let small := scanSmall height remaining 0
  { remaining := remaining
    symId := .tabulate 9 fun k => BitVec.ofNat 8 (k / 2)
    divider := .fill (BitVec.ofNat 32 height) 8
    large := scanLarge height remaining 0
    small := small
    nextSmall := small + 1 }

/-- One iteration of the sweep: bucket `small` takes the alias `large`. -/
def sweepStep (height : Nat) (v : Sweep) : Sweep :=
  let h0 := v.remaining.get v.small
  let left := v.remaining.get v.large - (height - h0)
  let remaining := v.remaining.set v.large left
  let forward := scanSmall height remaining v.nextSmall
  let onward := decide (height ≤ left) || decide (v.nextSmall ≤ v.large)
  { remaining := remaining
    symId := v.symId.set (2 * v.small) (BitVec.ofNat 8 v.large)
    divider := v.divider.set v.small (BitVec.ofNat 32 h0)
    large := scanLarge height remaining v.large
    small := if onward then forward else v.large
    nextSmall := if onward then forward + 1 else v.nextSmall }

/-- `while large < 256 and small < 256`, at most `n` times. -/
def sweepLoop (height n : Nat) (v : Sweep) : Sweep :=
  match n with
  | 0 => v
  | n + 1 => if v.large < 256 ∧ v.small < 256 then sweepLoop height n (sweepStep height v) else v

/-- Every iteration moves `large` or `next_small` up, neither passes 257, so the loop has ended by then (log 10). -/
def sweepBound : Nat := 513

/-- Phase 1. -/
def sweep (height : Nat) (freq : Table Word 8) : Sweep := sweepLoop height sweepBound (sweepStart height freq)

/-! ### Phase 2, slot materialization (41_alias_table.md R103) -/

/-- The arrays Phase 2 writes and its running allocation counters. -/
structure Slots where
  divider : Table Word 8
  slotFreqs : Table Word 9
  slotAdjust : Table Word 9
  aliasRemap : Table Word 16
  assigned : Table Nat 8
deriving DecidableEq, Repr

/-- `alias_remap[y] <- v`; there is no entry at or above 65536 (log 5). -/
def putRemap (t : Table Word 16) (y v : Nat) : Table Word 16 :=
  if y < 65536 then t.set y (BitVec.ofNat 32 v) else t

/-- `for k in 0..n-1: alias_remap[y + k] <- v + k`. -/
def putRun (t : Table Word 16) (y v n : Nat) : Table Word 16 := countUp n (fun k t => putRemap t (y + k) (v + k)) t

/-- Bucket `i`: both counters are read before either is advanced (41_alias_table.md R103). -/
def slotStep (height : Nat) (freq : Table Word 8) (cum : CumTable) (symId : Table Byte 9) (i : Nat) (z : Slots) : Slots :=
  let j := (symId.get (2 * i)).toNat
  let h0 := (z.divider.get i).toNat
  let h1 := height - h0
  let base0 := z.assigned.get i
  let base1 := z.assigned.get j
  let assigned := z.assigned.set i (base0 + h0)
  { divider := z.divider.set i (BitVec.ofNat 32 (i * height + h0))
    slotFreqs := (z.slotFreqs.set (2 * i + 1) (freq.get i)).set (2 * i) (freq.get j)
    slotAdjust :=
      (z.slotAdjust.set (2 * i + 1) (BitVec.ofNat 32 (i * height) - BitVec.ofNat 32 base0)).set (2 * i)
        (BitVec.ofNat 32 (i * height) - (BitVec.ofNat 32 base1 - BitVec.ofNat 32 h0))
    aliasRemap :=
      putRun (putRun z.aliasRemap ((cum.entry i).toNat + base0) (i * height) h0) ((cum.entry j).toNat + base1)
        (i * height + h0) h1
    assigned := assigned.set j (assigned.get j + h1) }

/-- Phase 2 for the buckets `0..n-1`, in ascending order, the counters starting at 0. -/
def slotsBelow (n : Nat) (s : State) (v : Sweep) : Slots :=
  countUp n (slotStep s.p.height s.freq s.cum v.symId)
    { divider := v.divider
      slotFreqs := s.slotFreqs
      slotAdjust := s.slotAdjust
      aliasRemap := s.aliasRemap
      assigned := .fill 0 8 }

/-- The post-condition: every symbol's counter equals its frequency (41_alias_table.md R104). -/
def allAccounted (freq : Table Word 8) (assigned : Table Nat 8) : Bool :=
  allBelow 256 fun s => decide (assigned.get s = (freq.get s).toNat)

/-- The two phases and the `assert` (41_alias_table.md R100). -/
def buildTable (s : State) : Res Unit :=
  let v := sweep s.p.height s.freq
  let z := slotsBelow 256 s v
  let t := s.setAlias z.divider v.symId z.slotFreqs z.slotAdjust z.aliasRemap
  if allAccounted s.freq z.assigned then .ok (t.setFlags t.ms true) () else .raised t .invariantViolation

/-- The body of ABLD (41_alias_table.md R100): on an EMPTY model only `TV <- 0`. -/
def abldBody (s : State) : Res Unit :=
  if s.ms = .empty then .ok (s.setFlags s.ms false) () else buildTable s

/-- ABLD (41_alias_table.md R100). -/
def execAbld (s : State) : Host.Outcome State Fault Refusal := issue .abld abldBody s

end Sys2Proof.Machine
end

