-- ==== Sys2Proof/Machine/CoderState.lean ====
section
/-! DEFINITION. Coder State commands (42_coder_state.md): EINIT, EPUT, EFLUSH, DINIT, DGET, DRENORM. The bodies are
the document's primitives; ENC and DEC (Machine/Driver.lean) are sequences of the same bodies. -/

namespace Sys2Proof.Machine

/-! ### Encode side -/

/-- `r[j] <- L` (42_coder_state.md R110). -/
def einitBody (j : Nat) (s : State) : Res Unit := .ok (s.setR j (BitVec.ofNat 32 lowerBound)) ()

/-- EINIT j (42_coder_state.md R110). -/
def execEinit (j : Nibble) (s : State) : Host.Outcome State Fault Refusal := issue (.einit j) (einitBody j.toNat) s

/-- `x_max = ((L >> P) << 8) * f` (42_coder_state.md R111). -/
def putLimit (p : Scale) (f : Nat) : Nat := ((lowerBound >>> p.exponent) <<< 8) * f

/-- `while r[j] >= x_max: PutByte(r[j] & 0xff) ; r[j] <- r[j] >> 8`, at most `n` times (42_coder_state.md R111). -/
def putLoop (limit j n : Nat) (s : State) : Res Unit :=
  match n with
  | 0 => .ok s ()
  | n + 1 =>
    if limit ≤ (s.r.get j).toNat then
      (putByte (byteOf (s.r.get j).toNat 0) s).bind fun t _ => putLoop limit j n (t.setR j (t.r.get j >>> 8))
    else .ok s ()

/-- Four shifts empty a 32-bit state, and the limit is not 0, so the loop has ended by then (log 10). -/
def putBound : Nat := 4

/-- `alias_remap[y]`; an entry at or above 65536 does not exist (log 5). -/
def State.remap (s : State) (y : Nat) : Word := if y < 65536 then s.aliasRemap.get y else Config.noSuchRemapEntry y

/-- `r[j] <- (q << P) + alias_remap[rem + cum[s]]` (42_coder_state.md R111). -/
def putSymbol (j sym : Nat) (s : State) : State :=
  let f := (s.freq.get sym).toNat
  let x := (s.r.get j).toNat
  s.setR j (BitVec.ofNat 32 ((x / f) <<< s.p.exponent) + s.remap (x % f + (s.cum.entry sym).toNat))

/-- EPUT's pseudocode (42_coder_state.md R111): a symbol of frequency 0 faults before anything is emitted. -/
def eputBody (j sym : Nat) (s : State) : Res Unit :=
  if s.freq.get sym = 0 then .raised s .invariantViolation
  else
    (putLoop (putLimit s.p (s.freq.get sym).toNat) j putBound s).bind fun t _ => .ok (putSymbol j sym t) ()

/-- EPUT j, s (42_coder_state.md R111). -/
def execEput (j : Nibble) (sym : Byte) (s : State) : Host.Outcome State Fault Refusal :=
  issue (.eput j sym) (eputBody j.toNat sym.toNat) s

/-- The four bytes of `r[j]`, most significant first (42_coder_state.md R112). -/
def eflushBody (j : Nat) (s : State) : Res Unit := pushBytes 4 (s.r.get j).toNat s

/-- EFLUSH j (42_coder_state.md R112). -/
def execEflush (j : Nibble) (s : State) : Host.Outcome State Fault Refusal := issue (.eflush j) (eflushBody j.toNat) s

/-! ### Decode side -/

/-- Four bytes forward into `r[j]`, least significant first (42_coder_state.md R113). -/
def dinitBody (j : Nat) (s : State) : Res Unit :=
  (pullBytes 4 s).bind fun t v => .ok (t.setR j (BitVec.ofNat 32 v)) ()

/-- DINIT j (42_coder_state.md R113). -/
def execDinit (j : Nibble) (s : State) : Host.Outcome State Fault Refusal := issue (.dinit j) (dinitBody j.toNat) s

/-- `xm = r & (M - 1)` (42_coder_state.md R114). -/
def codePoint (p : Scale) (r : Word) : Nat := r.toNat % p.mass

/-- The slot of a code point: `2 * bucket`, plus 1 below the divider (42_coder_state.md R114). -/
def State.slotOf (s : State) (xm : Nat) : Nat :=
  let bucket := xm / s.p.height
  if xm < (s.divider.get bucket).toNat then 2 * bucket + 1 else 2 * bucket

/-- DGET's pseudocode (42_coder_state.md R114), the result modulo `2^32` (00_scope.md R10). -/
def dgetBody (j : Nat) (s : State) : Res Unit :=
  let x := s.r.get j
  let xm := codePoint s.p x
  let slot := s.slotOf xm
  .ok
    ((s.setR j (s.slotFreqs.get slot * (x >>> s.p.exponent) + BitVec.ofNat 32 xm - s.slotAdjust.get slot)).setSymo
      (s.symId.get slot))
    ()

/-- DGET j (42_coder_state.md R114). -/
def execDget (j : Nibble) (s : State) : Host.Outcome State Fault Refusal := issue (.dget j) (dgetBody j.toNat) s

/-- `while r[j] < L: b = GetByte() ; r[j] <- (r[j] << 8) | b`, at most `n` times (42_coder_state.md R115). -/
def renormLoop (j n : Nat) (s : State) : Res Unit :=
  match n with
  | 0 => .ok s ()
  | n + 1 =>
    if (s.r.get j).toNat < lowerBound then
      (getByte s).bind fun t b => renormLoop j n (t.setR j ((t.r.get j <<< 8) ||| b.setWidth 32))
    else .ok s ()

/-- DRENORM's pseudocode: every iteration but a faulting one takes a byte of the window, so one more than the
window's length is never used up (42_coder_state.md R115; log 10). -/
def drenormBody (j : Nat) (s : State) : Res Unit := renormLoop j (s.window + 1) s

/-- DRENORM j (42_coder_state.md R115). -/
def execDrenorm (j : Nibble) (s : State) : Host.Outcome State Fault Refusal :=
  issue (.drenorm j) (drenormBody j.toNat) s

end Sys2Proof.Machine
end

