-- ==== Sys2Proof/Machine/Container.lean ====
section
/-! DEFINITION. Stream and container commands (44_stream_and_container.md): SCLR, REWIND, LST, LLD. -/

namespace Sys2Proof.Machine

/-- SCLR (44_stream_and_container.md R133). -/
def execSclr (s : State) : Host.Outcome State Fault Refusal := issue .sclr (fun t => .ok (t.setWp t.strCap) ()) s

/-- REWIND (44_stream_and_container.md R134). -/
def execRewind (s : State) : Host.Outcome State Fault Refusal :=
  issue .rewind (fun t => .ok ((t.setRp t.wp).setRend t.strCap) ()) s

/-- LST (44_stream_and_container.md R135). -/
def execLst (s : State) : Host.Outcome State Fault Refusal := issue .lst (fun t => pushBytes 8 t.len.toNat t) s

/-- The body of LLD (44_stream_and_container.md R136). -/
def lldBody (s : State) : Res Unit :=
  (pullBytes 8 s).bind fun t v =>
    if t.msgCap.toNat < v then .raised t .badHeader else .ok (t.setLen (BitVec.ofNat 64 v)) ()

/-- LLD (44_stream_and_container.md R136). -/
def execLld (s : State) : Host.Outcome State Fault Refusal := issue .lld lldBody s

end Sys2Proof.Machine
end

