-- ==== Sys2Proof/Machine/Driver.lean ====
section
/-! DEFINITION. Interleaved Driver commands (43_interleaved_driver.md): ENC and DEC as the fixed sequences of the coder
primitives that their rules give. -/

namespace Sys2Proof.Machine

/-- `EPUT(i mod K, MSG[i])`. -/
def putMessageByte (k i : Nat) (s : State) : Res Unit := eputBody (i % k) (s.readMsg i).toNat s

/-- The group of `K` message bytes that starts at `g * K`, in descending `j` order (43_interleaved_driver.md R120). -/
def putGroup (k g : Nat) (s : State) : Res Unit :=
  forDown k (fun j t => eputBody j (t.readMsg (g * k + j)).toNat t) s

/-- ENC's pseudocode (43_interleaved_driver.md R120): every state to `L`, the tail, the groups from the last to the
first, the flushes in descending order. -/
def encBody (s : State) : Res Unit :=
  let k := s.k.count
  let n := s.len.toNat
  let tail := n % k
  (forUp k einitBody s).bind fun s _ =>
    (forDown tail (fun x => putMessageByte k (n - tail + x)) s).bind fun s _ =>
      (forDown (n / k) (putGroup k) s).bind fun s _ => forDown k eflushBody s

/-- ENC (43_interleaved_driver.md R120). -/
def execEnc (s : State) : Host.Outcome State Fault Refusal := issue .enc encBody s

/-- `DGET(j) ; MSG[i] <- SYMO`. -/
def getMessageByte (j i : Nat) (s : State) : Res Unit := (dgetBody j s).bind fun t _ => .ok (t.writeMsg i t.symo) ()

/-- The group of `K` message bytes that starts at `g * K`: all gets, then all renormalizations, both in ascending `j`
order (43_interleaved_driver.md R121). -/
def getGroup (k g : Nat) (s : State) : Res Unit :=
  (forUp k (fun j => getMessageByte j (g * k + j)) s).bind fun t _ => forUp k drenormBody t

/-- One tail byte: each get is followed by its renormalization (43_interleaved_driver.md R121). -/
def getTailByte (i j : Nat) (s : State) : Res Unit := (getMessageByte j (i + j) s).bind fun t _ => drenormBody j t

/-- DEC's pseudocode (43_interleaved_driver.md R121). -/
def decBody (s : State) : Res Unit :=
  let k := s.k.count
  let n := s.len.toNat
  (forUp k dinitBody s).bind fun s _ =>
    (forUp (n / k) (getGroup k) s).bind fun s _ => forUp (n % k) (getTailByte (n - n % k)) s

/-- DEC (43_interleaved_driver.md R121). -/
def execDec (s : State) : Host.Outcome State Fault Refusal := issue .dec decBody s

end Sys2Proof.Machine
end

