-- ==== Sys2Proof/Machine/FreqModel.lean ====
section
/-! DEFINITION. Frequency Model commands (40_frequency_model.md): FCLR, FCNT, FSCAN, FNORM, FLD, FST. -/

namespace Sys2Proof.Machine

/-- FCLR (40_frequency_model.md R90). -/
def execFclr (s : State) : Host.Outcome State Fault Refusal := issue .fclr (fun t => .ok t.clearModel ()) s

/-! ### Counting -/

/-- A count at which every count is halved (40_frequency_model.md R91). -/
def countLimit : Nat := 2 ^ 24

/-- `(f + 1) >> 1`, exact before it is stored (00_scope.md R10). -/
def halved (f : Word) : Word := BitVec.ofNat 32 ((f.toNat + 1) / 2)

/-- One byte counted; the test is made after the increment, on the incremented count (40_frequency_model.md R91). -/
def countByte (b : Byte) (freq : Table Word 8) : Table Word 8 :=
  let counted := freq.set b.toNat (freq.get b.toNat + 1)
  if (counted.get b.toNat).toNat = countLimit then counted.map halved else counted

/-- FCNT b (40_frequency_model.md R91). -/
def execFcnt (b : Byte) (s : State) : Host.Outcome State Fault Refusal :=
  issue (.fcnt b) (fun t => .ok (t.setFreq (countByte b t.freq)) ()) s

/-- The counts after `MSG[0..n)` (40_frequency_model.md R95): ascending index order. -/
def countMessage (s : State) (n : Nat) : Table Word 8 := countUp n (fun i freq => countByte (s.readMsg i) freq) s.freq

/-- FSCAN (40_frequency_model.md R95): adds to the counts already there. -/
def execFscan (s : State) : Host.Outcome State Fault Refusal :=
  issue .fscan (fun t => .ok (t.setFreq (countMessage t t.len.toNat)) ()) s

/-! ### Normalizing (40_frequency_model.md R93) -/

/-- `cum[0] <- 0 ; cum[i+1] <- cum[i] + freq[i]`, for `i < n`. -/
def prefixSums (freq : Table Word 8) (n : Nat) (c : CumTable) : CumTable :=
  countUp n (fun i c => c.put (i + 1) (c.entry i + freq.get i)) (c.put 0 0)

/-- Step 2: `cum[i] <- (M * cum[i]) / S` for `i` in `1..256`, floor division of the 64-bit product. -/
def rescale (mass total : Nat) (c : CumTable) : CumTable :=
  countUp 256 (fun i c => c.put (i + 1) (BitVec.ofNat 32 (mass * (c.entry (i + 1)).toNat / total))) c

/-- The gap `cum[j+1] - cum[j]`. -/
def CumTable.gap (c : CumTable) (j : Nat) : Nat := (c.entry (j + 1)).toNat - (c.entry j).toNat

/-- Step 3's donor among `0..n-1`: the minimum gap above 1, ties to the lowest index; with that gap. -/
def donorBelow (c : CumTable) (n : Nat) : Option (Nat × Nat) :=
  countUp n
    (fun j best =>
      match best with
      | none => if 1 < c.gap j then some (j, c.gap j) else none
      | some (j', f) => if 1 < c.gap j ∧ c.gap j < f then some (j, c.gap j) else some (j', f))
    none

/-- Step 3's transfer of one unit from `j` to `s`, by the contiguous run of `cum[]` between them. -/
def transfer (j s : Nat) (c : CumTable) : CumTable :=
  if j < s then countUp (s - j) (fun t c => c.put (j + 1 + t) (c.entry (j + 1 + t) - 1)) c
  else countUp (j - s) (fun t c => c.put (s + 1 + t) (c.entry (s + 1 + t) + 1)) c

/-- Step 3: one symbol looked at; the flag says that no `assert` has failed so far. -/
def repairSymbol (freq : Table Word 8) (s : Nat) (x : CumTable × Bool) : CumTable × Bool :=
  if x.2 && decide (freq.get s ≠ 0) && decide (x.1.entry (s + 1) = x.1.entry s) then
    match donorBelow x.1 256 with
    | some (j, _) => (transfer j s x.1, true)
    | none => (x.1, false)
  else x

/-- Step 3 for the symbols `0..n-1`, in ascending order. -/
def repairBelow (freq : Table Word 8) (n : Nat) (c : CumTable) : CumTable × Bool :=
  countUp n (repairSymbol freq) (c, true)

/-- Step 4's `assert`s. -/
def normalized (mass : Nat) (freq : Table Word 8) (c : CumTable) : Bool :=
  decide (c.entry 0 = 0) && decide ((c.entry 256).toNat = mass) &&
    allBelow 256 fun s =>
      decide ((c.entry s).toNat ≤ (c.entry (s + 1)).toNat) &&
        (decide (freq.get s = 0) == decide (c.entry (s + 1) = c.entry s))

/-- Step 4: `freq[s] <- cum[s+1] - cum[s]`. -/
def gaps (c : CumTable) : Table Word 8 := .tabulate 8 fun s => c.entry (s + 1) - c.entry s

/-- The body of FNORM (40_frequency_model.md R93): `cum[]` is rescaled in place (10_state.md R44), so a failed
`assert` leaves it as it then stands. -/
def fnormBody (s : State) : Res Unit :=
  let sums := prefixSums s.freq 256 s.cum
  if sums.entry 256 = 0 then .ok ((s.setCum .zero).setFlags .empty false) ()
  else
    let repaired := repairBelow s.freq 256 (rescale s.p.mass (sums.entry 256).toNat sums)
    let t := s.setCum repaired.1
    if repaired.2 && normalized s.p.mass s.freq repaired.1 then
      .ok ((t.setFreq (gaps repaired.1)).setFlags .valid false) ()
    else .raised t .invariantViolation

/-- FNORM (40_frequency_model.md R93). -/
def execFnorm (s : State) : Host.Outcome State Fault Refusal := issue .fnorm fnormBody s

/-! ### Loading and storing the table -/

/-- One word of the table: `freq[i] <- lo | (hi << 8)` (40_frequency_model.md R96). -/
def loadFreq (i : Nat) (s : State) : Res Unit :=
  (pullBytes 2 s).bind fun t v => .ok (t.setFreq (t.freq.set i (BitVec.ofNat 32 v))) ()

/-- The prefix sums of a loaded table, and the check of their total (40_frequency_model.md R96). -/
def checkLoaded (s : State) : Res Unit :=
  let t := s.setCum (prefixSums s.freq 256 s.cum)
  if (t.cum.entry 256).toNat = t.p.mass then .ok (t.setFlags .valid false) ()
  else if t.cum.entry 256 = 0 ∧ t.len = 0 then .ok (t.setFlags .empty false) ()
  else .raised (t.setFlags t.ms false) .badHeader

/-- The body of FLD (40_frequency_model.md R96). -/
def fldBody (s : State) : Res Unit := (forUp 256 loadFreq s).bind fun t _ => checkLoaded t

/-- FLD (40_frequency_model.md R96). -/
def execFld (s : State) : Host.Outcome State Fault Refusal := issue .fld fldBody s

/-- One word of the table pushed, high byte first (40_frequency_model.md R97). -/
def storeFreq (i : Nat) (s : State) : Res Unit := pushBytes 2 (s.freq.get i).toNat s

/-- The body of FST (40_frequency_model.md R97): every entry is checked before any byte is pushed. -/
def fstBody (s : State) : Res Unit :=
  if s.freq.all fun f => decide (f.toNat ≤ 0xFFFF) then forDown 256 storeFreq s
  else .raised s .invariantViolation

/-- FST (40_frequency_model.md R97). -/
def execFst (s : State) : Host.Outcome State Fault Refusal := issue .fst fstBody s

end Sys2Proof.Machine
end

