-- ==== Sys2Proof/Machine/System.lean ====
section
/-! DEFINITION. System commands (45_system_commands.md): NOP, CFG, SRST. -/

namespace Sys2Proof.Machine

/-- NOP (45_system_commands.md R140). -/
def execNop (s : State) : Host.Outcome State Fault Refusal := issue .nop (fun t => .ok t ()) s

/-- The body of CFG once `K` and `P` are legal (45_system_commands.md R141). -/
def cfgBody (k : Interleave) (p : Scale) (s : State) : Res Unit := .ok (s.setCfg k p).clearModel ()

/-- CFG K, P (45_system_commands.md R141): an illegal operand value raises IllegalCommand and changes nothing. -/
def execCfg (k : Nibble) (p : Byte) (s : State) : Host.Outcome State Fault Refusal :=
  issue (.cfg k p)
    (fun t =>
      match Interleave.ofField k, Scale.ofField p with
      | some k', some p' => cfgBody k' p' t
      | _, _ => .raised t .illegalCommand)
    s

/-- SRST (45_system_commands.md R142): accepted while a fault is latched, and not counted in CC. -/
def execSrst (s : State) : Host.Outcome State Fault Refusal := .next s.resetKeepingBuffers

end Sys2Proof.Machine
end

