-- ==== Sys2Proof/Machine/Dispatch.lean ====
section
/-! DEFINITION. One arm per command (30_encoding.md R73): the meaning each one has. -/

namespace Sys2Proof.Machine

def exec (i : Instr) (s : State) : Host.Outcome State Fault Refusal :=
  match i with
  | .nop => Sys2Proof.Machine.execNop s
  | .cfg k p => Sys2Proof.Machine.execCfg k p s
  | .srst => Sys2Proof.Machine.execSrst s
  | .fclr => Sys2Proof.Machine.execFclr s
  | .fcnt b => Sys2Proof.Machine.execFcnt b s
  | .fscan => Sys2Proof.Machine.execFscan s
  | .fnorm => Sys2Proof.Machine.execFnorm s
  | .fld => Sys2Proof.Machine.execFld s
  | .fst => Sys2Proof.Machine.execFst s
  | .abld => Sys2Proof.Machine.execAbld s
  | .einit j => Sys2Proof.Machine.execEinit j s
  | .eput j sym => Sys2Proof.Machine.execEput j sym s
  | .eflush j => Sys2Proof.Machine.execEflush j s
  | .enc => Sys2Proof.Machine.execEnc s
  | .dinit j => Sys2Proof.Machine.execDinit j s
  | .dget j => Sys2Proof.Machine.execDget j s
  | .drenorm j => Sys2Proof.Machine.execDrenorm j s
  | .dec => Sys2Proof.Machine.execDec s
  | .sclr => Sys2Proof.Machine.execSclr s
  | .rewind => Sys2Proof.Machine.execRewind s
  | .lst => Sys2Proof.Machine.execLst s
  | .lld => Sys2Proof.Machine.execLld s

end Sys2Proof.Machine
end

