-- ==== Sys2Proof/Machine/HostPort.lean ====
section
/-! DEFINITION. The host access port (10_state.md R45, 20_memory.md R60) and the reset input (70_reset_and_hazards.md
R170). Reads change nothing, so they are functions of the state; writes and resets are inputs of `step`. -/

namespace Sys2Proof.Machine

/-- A host read of register number `n` (10_state.md R45). -/
def portReadReg (s : State) (n : Nat) : Word :=
  match n with
  | 0 => s.cfgWord
  | 1 => s.statusWord
  | 2 => s.faultWord
  | 3 => s.fcmd
  | 4 => s.symoWord
  | 5 => lowHalf s.len
  | 6 => highHalf s.len
  | 7 => lowHalf s.wp
  | 8 => highHalf s.wp
  | 9 => lowHalf s.rp
  | 10 => highHalf s.rp
  | 11 => lowHalf s.rend
  | 12 => highHalf s.rend
  | 13 => lowHalf s.cc
  | 14 => highHalf s.cc
  | 16 => s.r.get 0
  | 17 => s.r.get 1
  | 18 => s.r.get 2
  | 19 => s.r.get 3
  | _ => 0

/-- A host write of register number `n`: LEN, RP and REND by halves, every other number ignored (10_state.md R45). -/
def portWriteReg (s : State) (n : Nat) (v : Word) : State :=
  match n with
  | 5 => s.setLen (withLowHalf s.len v)
  | 6 => s.setLen (withHighHalf s.len v)
  | 9 => s.setRp (withLowHalf s.rp v)
  | 10 => s.setRp (withHighHalf s.rp v)
  | 11 => s.setRend (withLowHalf s.rend v)
  | 12 => s.setRend (withHighHalf s.rend v)
  | _ => s

/-- The tables the host can read (20_memory.md R50). -/
inductive HostTable where
  | freq | cum
  | derived (a : Config.AliasArray)
deriving DecidableEq, Repr

/-- How many entries a table has (20_memory.md R50). -/
def HostTable.size (t : HostTable) : Nat :=
  match t with
  | .freq => 256
  | .cum => 257
  | .derived .divider => 256
  | .derived .symId => 512
  | .derived .slotFreqs => 512
  | .derived .slotAdjust => 512
  | .derived .aliasRemap => 65536

/-- Whether the spec gives the entry's contents: the alias arrays are unspecified while `TV = 0` (10_state.md R46),
and ABLD writes `alias_remap[0..M)` only (R39; log 4). -/
def HostTable.specified (t : HostTable) (s : State) (i : Nat) : Bool :=
  match t with
  | .freq => true
  | .cum => true
  | .derived .aliasRemap => s.tv && decide (i < s.p.mass)
  | .derived _ => s.tv

/-- An 8-bit entry as the host reads it: the access is 8 bits wide (10_state.md R36, 20_memory.md R57).
DEDUCED (log 4): bits 31:8 of the word that stands for it are 0, whether the spec gives the entry's contents or not. -/
def byteEntry (b : Byte) : Word := b.setWidth 32

/-- The entry as the table holds it; `sym_id` entries are 8 bits (10_state.md R36). -/
def HostTable.stored (t : HostTable) (s : State) (i : Nat) : Word :=
  match t with
  | .freq => s.freq.get i
  | .cum => s.cum.entry i
  | .derived .divider => s.divider.get i
  | .derived .symId => byteEntry (s.symId.get i)
  | .derived .slotFreqs => s.slotFreqs.get i
  | .derived .slotAdjust => s.slotAdjust.get i
  | .derived .aliasRemap => s.aliasRemap.get i

/-- What a read of an entry the spec leaves unspecified returns: a free value of the entry's own width, so a free byte
for `sym_id` (10_state.md R36, R46, 20_memory.md R57; log 4).
DESIGN CHOICE (log 4): only a reset raises `aliasEpoch`, so two reads of one such entry agree when no reset lies
between them, also across an ABLD and a later FCLR or CFG; the spec allows any value each time
(93_implementation_defined.md U5). -/
def HostTable.unspecified (t : HostTable) (s : State) (i : Nat) : Word :=
  match t with
  | .freq => 0
  | .cum => 0
  | .derived .symId => byteEntry ((Config.unspecifiedEntry .symId s.aliasEpoch i).setWidth 8)
  | .derived a => Config.unspecifiedEntry a s.aliasEpoch i

/-- A host read of a table entry; `none` where the table has no such entry (20_memory.md R60). -/
def portReadTable (s : State) (t : HostTable) (i : Nat) : Option Word :=
  if i < t.size then some (if t.specified s i then t.stored s i else t.unspecified s i) else none

/-- A host read of `MSG[i]`; `none` where there is no such byte (20_memory.md R60). -/
def portReadMsg (s : State) (i : Nat) : Option Byte := if i < s.msgCap.toNat then some (s.readMsg i) else none

/-- A host read of `STR[a]`; `none` where there is no such byte (20_memory.md R60). -/
def portReadStr (s : State) (a : Nat) : Option Byte := if a < s.strCap.toNat then some (s.readStr a) else none

/-- A host write of `MSG[i]`, `0 ≤ i < MSG_CAP` (20_memory.md R60). -/
def portWriteMsg (s : State) (i : Nat) (b : Byte) : Host.Outcome State Fault Refusal :=
  if i < s.msgCap.toNat then .next (s.writeMsg i b) else .fault (.noSuchMsgByte i)

/-- A host write of `STR[a]`, `0 ≤ a < STR_CAP` (20_memory.md R60). -/
def portWriteStr (s : State) (a : Nat) (b : Byte) : Host.Outcome State Fault Refusal :=
  if a < s.strCap.toNat then .next (s.writeStr a b) else .fault (.noSuchStrByte a)

/-- The reset input (70_reset_and_hazards.md R170): between commands the buffers stay; a command it abandons leaves
them unspecified. -/
def resetInput (midCommand : Bool) (s : State) : State :=
  if midCommand then s.resetLosingBuffers else s.resetKeepingBuffers

/-- Power-on (70_reset_and_hazards.md R170). -/
def powerOn (s : State) : State := s.resetLosingBuffers

end Sys2Proof.Machine
end

