-- ==== Sys2Proof/Machine/HostAction.lean ====
section
/-! DEFINITION. What one action of the host does: a command word presented, a write at the host port, a reset. -/

namespace Sys2Proof.Machine

/-- A command word presented to the CORE: the command it spells, or the rejection of an illegal word
(30_encoding.md R79). -/
def present (w : Word) (s : State) : Host.Outcome State Fault Refusal :=
  match decode w with
  | .ok i => exec i s
  | .error _ => .next (rejectWord w s)

/-- One action of the host (10_state.md R29, R45; 20_memory.md R60; 70_reset_and_hazards.md R170). -/
def perform (a : Input) (s : State) : Host.Outcome State Fault Refusal :=
  match a with
  | .command w => present w s
  | .writeReg n v => .next (portWriteReg s n v)
  | .writeMsg i b => portWriteMsg s i b
  | .writeStr a b => portWriteStr s a b
  | .resetInput midCommand => .next (resetInput midCommand s)
  | .powerOn => .next (powerOn s)

/-- The action that presents a word numbered as the opcode table numbers it: `nbits` bits given, the rest zero. The
CORE receives whole words and has no byte order for commands (30_encoding.md R70). -/
def presentWord (nbits w : Nat) : Input := .command (BitVec.ofNat 32 (w % 2 ^ nbits))

end Sys2Proof.Machine
end

