-- ==== Sys2Proof/Machine/Step.lean ====
section
/-! DEFINITION. One step: the host's next action (10_state.md R29, 20_memory.md R60; log 1). With none pending the
CORE is idle and holds its state (60_exceptions.md R163). -/

namespace Sys2Proof.Machine

def step (s : State) : Host.Outcome State Fault Refusal :=
  match s.inputs with
  | [] => .next s
  | a :: rest => perform a (s.withInputs rest)

/-- The host presents the word `w` (numbered as the opcode table numbers it) next, before anything else it does. -/
def State.withFetchWord (s : State) (nbits w : Nat) : State := s.withInputs (presentWord nbits w :: s.inputs)

end Sys2Proof.Machine
end

