-- ==== Sys2Proof/Safety.lean ====
section
/-! DEFINITION. What claims about runs are stated in: the safe state, the invariants of the model status and of the
alias table, and the values the rules compute, written from the rules and not from the meanings. -/

namespace Sys2Proof.Machine

/-- No fault is latched; a faulted state is never a success (60_exceptions.md R153). -/
def Safe (s : State) : Prop := s.fault = none

/-! ### Values the rules speak of -/

/-- The `n` bytes of STR from address `a`, read forward, least significant first (20_memory.md R53, R55). -/
def State.littleEndian (s : State) (a : Nat) (n : Nat) : Nat :=
  match n with
  | 0 => 0
  | n + 1 => s.littleEndian a n + (s.readStr (a + n)).toNat * 256 ^ n

/-- `freq[0] + … + freq[n-1]`, exact. -/
def State.freqSum (s : State) (n : Nat) : Nat :=
  match n with
  | 0 => 0
  | n + 1 => s.freqSum n + (s.freq.get n).toNat

/-- The sum of the first `n` little-endian 16-bit words of the read window (40_frequency_model.md R96). -/
def State.loadedSum (s : State) (n : Nat) : Nat :=
  match n with
  | 0 => 0
  | n + 1 => s.loadedSum n + s.littleEndian (s.rp.toNat + 2 * n) 2

/-- How many of `MSG[0..n)` equal `b` (40_frequency_model.md R95). -/
def State.occurrences (s : State) (b : Byte) (n : Nat) : Nat :=
  match n with
  | 0 => 0
  | n + 1 => s.occurrences b n + if s.readMsg n = b then 1 else 0

/-- `j` is the donor among the gaps `g`: the minimum gap above 1, ties to the lowest index (40_frequency_model.md R93,
step 3). -/
def DonorOf (g : Nat → Nat) (j : Nat) : Prop :=
  j < 256 ∧ 1 < g j ∧ ∀ i, i < 256 → 1 < g i → g j ≤ g i ∧ (g i = g j → j ≤ i)

/-- What looking at symbol `n` makes of the gaps `g`: a counted symbol with an empty gap takes one unit from the donor,
any other symbol changes nothing (40_frequency_model.md R93, step 3). -/
def RepairTurn (counts : Table Word 8) (n : Nat) (g g' : Nat → Nat) : Prop :=
  if counts.get n ≠ 0 ∧ g n = 0 then
    ∃ j, DonorOf g j ∧ ∀ i, i < 256 → g' i = if i = j then g i - 1 else if i = n then 1 else g i
  else ∀ i, i < 256 → g' i = g i

/-- How many low bytes a 32-bit state `x` sheds before it is below `limit` (42_coder_state.md R111). -/
def emitCount (limit x : Nat) : Nat :=
  if x < limit then 0
  else if x / 256 < limit then 1
  else if x / 256 ^ 2 < limit then 2
  else if x / 256 ^ 3 < limit then 3
  else 4

/-- A state `x` after the `n` bytes from address `a` have been shifted in (42_coder_state.md R115). -/
def State.shiftedIn (s : State) (x a : Nat) (n : Nat) : Nat :=
  match n with
  | 0 => x
  | n + 1 => s.shiftedIn x a n * 256 + (s.readStr (a + n)).toNat

/-- The symbol `alias_decode(y)` gives (10_state.md R48). -/
def State.decodeSym (s : State) (y : Nat) : Nat :=
  let bucket := y / 2 ^ (s.p.exponent - 8)
  (s.symId.get (2 * bucket + if y < (s.divider.get bucket).toNat then 1 else 0)).toNat

/-- The offset `alias_decode(y)` gives, modulo `2^32` (10_state.md R48). -/
def State.decodeDelta (s : State) (y : Nat) : Nat :=
  let bucket := y / 2 ^ (s.p.exponent - 8)
  (BitVec.ofNat 32 y - s.slotAdjust.get (2 * bucket + if y < (s.divider.get bucket).toNat then 1 else 0)).toNat

/-- The frequency DGET multiplies with at code point `y` (42_coder_state.md R114). -/
def State.decodeFreq (s : State) (y : Nat) : Nat :=
  let bucket := y / 2 ^ (s.p.exponent - 8)
  (s.slotFreqs.get (2 * bucket + if y < (s.divider.get bucket).toNat then 1 else 0)).toNat

/-- The normalization interval `[L, 2^31)` (10_state.md R21). -/
def InInterval (x : Word) : Prop := 0x00800000 ≤ x.toNat ∧ x.toNat < 2 ^ 31

/-! ### Invariants -/

/-- What holds in every state a run reaches, whatever the model and the table hold. -/
structure StateOk (s : State) : Prop where
  /-- 00_scope.md R8 -/
  msgCapInRange : 1 ≤ s.msgCap.toNat ∧ s.msgCap.toNat < 2 ^ 32
  /-- 00_scope.md R8 -/
  strCapInRange : 1 ≤ s.strCap.toNat ∧ s.strCap.toNat < 2 ^ 63
  /-- MSG is in canonical form -/
  msgWf : Memory.wf s.msgCap.toNat s.msg = true
  /-- STR is in canonical form -/
  strWf : Memory.wf s.strCap.toNat s.str = true
  /-- 10_state.md R41 -/
  wpInside : s.wp.toNat ≤ s.strCap.toNat
  /-- 10_state.md R31: `TV = 1` implies `MS = VALID` -/
  tvValid : s.tv = true → s.ms = .valid
  /-- 10_state.md R31: an EMPTY model is all zero -/
  emptyZero : s.ms = .empty → (∀ i, i < 256 → s.freq.get i = 0) ∧ ∀ i, i ≤ 256 → s.cum.entry i = 0
  /-- 40_frequency_model.md R92 -/
  rawBounded : s.ms = .raw → ∀ i, i < 256 → (s.freq.get i).toNat < 2 ^ 24
  /-- 10_state.md R32: FCMD is 0 while no fault is latched -/
  fcmdClear : s.fault = none → s.fcmd = 0

/-- The normalized model (10_state.md R47): `cum` is the running sum of `freq`, from 0 to `M`. -/
structure ModelOk (s : State) : Prop where
  first : s.cum.entry 0 = 0
  step : ∀ i, i < 256 → (s.cum.entry (i + 1)).toNat = (s.cum.entry i).toNat + (s.freq.get i).toNat
  total : (s.cum.entry 256).toNat = 2 ^ s.p.exponent

/-- The finished alias table (10_state.md R48, 41_alias_table.md R105): decoding and remapping are inverse, and the
slot of every code point carries its symbol's frequency. -/
structure TableOk (s : State) : Prop where
  remapThenDecode : ∀ sym, sym < 256 → ∀ d, d < (s.freq.get sym).toNat →
    (s.aliasRemap.get ((s.cum.entry sym).toNat + d)).toNat < 2 ^ s.p.exponent ∧
      s.decodeSym (s.aliasRemap.get ((s.cum.entry sym).toNat + d)).toNat = sym ∧
      s.decodeDelta (s.aliasRemap.get ((s.cum.entry sym).toNat + d)).toNat = d
  decodeThenRemap : ∀ y, y < 2 ^ s.p.exponent →
    s.decodeDelta y < (s.freq.get (s.decodeSym y)).toNat ∧
      (s.aliasRemap.get ((s.cum.entry (s.decodeSym y)).toNat + s.decodeDelta y)).toNat = y
  slotFreq : ∀ y, y < 2 ^ s.p.exponent → s.decodeFreq y = (s.freq.get (s.decodeSym y)).toNat

/-- What holds in every state a run reaches. -/
structure RunOk (s : State) : Prop where
  state : StateOk s
  model : s.ms = .valid → ModelOk s
  table : s.tv = true → TableOk s

/-! ### The command words and the admission table, transcribed -/

/-- One row of the opcode map: the mask of the row's format and the word with every operand zero (30_encoding.md
R71, R73). -/
structure SpecRow where
  mnemonic : String
  mask : Word
  pattern : Word
deriving DecidableEq, Repr

/-- The opcode map (30_encoding.md R73). -/
def specRows : List SpecRow :=
  [⟨"NOP", 0xFFFFFFFF, 0x00000000⟩, ⟨"CFG", 0xFFF0FF00, 0x01000000⟩, ⟨"SRST", 0xFFFFFFFF, 0x02000000⟩,
    ⟨"FCLR", 0xFFFFFFFF, 0x10000000⟩, ⟨"FCNT", 0xFFFFFF00, 0x11000000⟩, ⟨"FSCAN", 0xFFFFFFFF, 0x12000000⟩,
    ⟨"FNORM", 0xFFFFFFFF, 0x13000000⟩, ⟨"FLD", 0xFFFFFFFF, 0x14000000⟩, ⟨"FST", 0xFFFFFFFF, 0x15000000⟩,
    ⟨"ABLD", 0xFFFFFFFF, 0x20000000⟩, ⟨"EINIT", 0xFFF0FFFF, 0x30000000⟩, ⟨"EPUT", 0xFFF0FF00, 0x31000000⟩] ++
  [⟨"EFLUSH", 0xFFF0FFFF, 0x32000000⟩, ⟨"ENC", 0xFFFFFFFF, 0x38000000⟩, ⟨"DINIT", 0xFFF0FFFF, 0x40000000⟩,
    ⟨"DGET", 0xFFF0FFFF, 0x41000000⟩, ⟨"DRENORM", 0xFFF0FFFF, 0x42000000⟩, ⟨"DEC", 0xFFFFFFFF, 0x48000000⟩,
    ⟨"SCLR", 0xFFFFFFFF, 0x50000000⟩, ⟨"REWIND", 0xFFFFFFFF, 0x51000000⟩, ⟨"LST", 0xFFFFFFFF, 0x52000000⟩,
    ⟨"LLD", 0xFFFFFFFF, 0x53000000⟩]

/-- The mnemonic of a command (30_encoding.md R73). -/
def mnemonicOf (i : Instr) : String :=
  match i with
  | .nop => "NOP"
  | .cfg _ _ => "CFG"
  | .srst => "SRST"
  | .fclr => "FCLR"
  | .fcnt _ => "FCNT"
  | .fscan => "FSCAN"
  | .fnorm => "FNORM"
  | .fld => "FLD"
  | .fst => "FST"
  | .abld => "ABLD"
  | .einit _ => "EINIT"
  | .eput _ _ => "EPUT"
  | .eflush _ => "EFLUSH"
  | .enc => "ENC"
  | .dinit _ => "DINIT"
  | .dget _ => "DGET"
  | .drenorm _ => "DRENORM"
  | .dec => "DEC"
  | .sclr => "SCLR"
  | .rewind => "REWIND"
  | .lst => "LST"
  | .lld => "LLD"

/-- `j` names a coder state in use (30_encoding.md R72). -/
def StreamInUse (j : Nibble) (s : State) : Prop := j.toNat < s.k.count

/-- Operand legality (30_encoding.md R72) and the admission table (R78), as the spec words them. -/
def AdmittedBySpec (i : Instr) (s : State) : Prop :=
  match i with
  | .nop => True
  | .cfg k p => (k = 1 ∨ k = 2 ∨ k = 4) ∧ 8 ≤ p.toNat ∧ p.toNat ≤ 16
  | .srst => True
  | .fclr => True
  | .fcnt _ => s.ms = .raw
  | .fscan => s.ms = .raw ∧ s.len.toNat ≤ s.msgCap.toNat
  | .fnorm => s.ms = .raw
  | .fld => s.ms = .raw
  | .fst => s.ms = .valid ∨ s.ms = .empty
  | .abld => s.ms = .valid ∨ s.ms = .empty
  | .einit j => StreamInUse j s
  | .eput j _ => StreamInUse j s ∧ s.tv = true
  | .eflush j => StreamInUse j s
  | .enc => s.len.toNat ≤ s.msgCap.toNat ∧ (s.len.toNat = 0 ∨ s.tv = true)
  | .dinit j => StreamInUse j s
  | .dget j => StreamInUse j s ∧ s.tv = true
  | .drenorm j => StreamInUse j s
  | .dec => s.len.toNat ≤ s.msgCap.toNat ∧ (s.len.toNat = 0 ∨ s.tv = true)
  | .sclr => True
  | .rewind => True
  | .lst => True
  | .lld => True

/-- The primitives ENC expands to, in order (43_interleaved_driver.md R122, R120): `K` EINITs, the message from its
last byte to its first, byte `i` with state `i mod K`, `K` EFLUSHes in descending order. -/
def encPrimitives (s : State) : List Instr :=
  (List.range s.k.count).map (fun j => Instr.einit (BitVec.ofNat 4 j)) ++
    ((List.range s.len.toNat).reverse.map fun i => Instr.eput (BitVec.ofNat 4 (i % s.k.count)) (s.readMsg i)) ++
      (List.range s.k.count).reverse.map fun j => Instr.eflush (BitVec.ofNat 4 j)

/-! ### Sequences of commands -/

/-- Commands executed one after another, in order (20_memory.md R58). -/
def execAll (is : List Instr) (s : State) : Host.Outcome State Fault Refusal :=
  match is with
  | [] => .next s
  | i :: is =>
    match exec i s with
    | .next t => execAll is t
    | .fault f => .fault f
    | .refused r => .refused r

/-- What the host does when it plays the decode driver with primitives (43_interleaved_driver.md R122). -/
inductive DriverAct where
  /-- issue a command -/
  | issue (i : Instr)
  /-- copy SYMO to `MSG[i]` -/
  | copySymo (i : Nat)
deriving DecidableEq, Repr

/-- One of these; the host copies nothing once a fault is latched. -/
def driverAct (a : DriverAct) (s : State) : Host.Outcome State Fault Refusal :=
  match a with
  | .issue i => exec i s
  | .copySymo i => if s.fault = none then perform (.writeMsg i s.symo) s else .next s

/-- The host's actions, one after another, in order (20_memory.md R58). -/
def driveAll (acts : List DriverAct) (s : State) : Host.Outcome State Fault Refusal :=
  match acts with
  | [] => .next s
  | a :: acts =>
    match driverAct a s with
    | .next t => driveAll acts t
    | .fault f => .fault f
    | .refused r => .refused r

/-- What DEC expands to, in order (43_interleaved_driver.md R122, R121): `K` DINITs; each group of `K` bytes as all its
DGETs, each followed by the copy of SYMO, then all its DRENORMs; each tail byte as DGET, copy, DRENORM. -/
def decPrimitives (s : State) : List DriverAct :=
  let k := s.k.count
  let n := s.len.toNat
  let stream := fun j : Nat => BitVec.ofNat 4 j
  (List.range k).map (fun j => .issue (.dinit (stream j))) ++
    (List.range (n / k)).flatMap (fun g =>
      (List.range k).flatMap (fun j => [.issue (.dget (stream j)), .copySymo (g * k + j)]) ++
        (List.range k).map fun j => .issue (.drenorm (stream j))) ++
      (List.range (n % k)).flatMap fun j =>
        [.issue (.dget (stream j)), .copySymo (n - n % k + j), .issue (.drenorm (stream j))]

end Sys2Proof.Machine
end

