-- ==== Sys2Proof/Certificates/Slice0/Obligations.lean ====
section
/-! DEFINITION. The statements about the model, from the numbered rules of the spec. A name `Obligations.X` is a
proposition; nothing here is proved. -/

open Sys2Proof Sys2Proof.Machine

/-! ### Command words -/

/-- Decoding the word of a command gives the command, with every operand at every value its field admits
(30_encoding.md R71, R76). -/
def Obligations.DecodeOfEncode : Prop := ∀ i : Instr, decode (encode i) = .ok i

/-- Encode inverts decode: a word that decodes is the word of the command it spells, so no command has two words
(30_encoding.md R71, R74, R76). -/
def Obligations.EncodeOfDecode : Prop := ∀ (w : Word) (i : Instr), decode w = .ok i → encode i = w

/-- A word spells the command of a row exactly when `w & mask == op << 24` (30_encoding.md R71, rows of R73), and it
is illegal exactly when it does so for no row (R74). -/
def Obligations.WordSpellsRowByMask : Prop :=
  ∀ w : Word,
    (∀ row ∈ specRows, w &&& row.mask = row.pattern ↔ ∃ i, decode w = .ok i ∧ mnemonicOf i = row.mnemonic) ∧
      ((∀ row ∈ specRows, w &&& row.mask ≠ row.pattern) ↔ ∃ e, decode w = .error e)

/-- Words written out from the spec's encodings decode to the commands they stand for (30_encoding.md R76). -/
def Obligations.SpecWordsDecode : Prop :=
  decode 0x0104000C = .ok (.cfg 4 12) ∧ decode 0x31020053 = .ok (.eput 2 0x53) ∧ decode 0x11000041 = .ok (.fcnt 0x41) ∧
    decode 0x42030000 = .ok (.drenorm 3) ∧ decode 0x20000000 = .ok .abld ∧ decode 0x38000000 = .ok .enc ∧
      decode 0x53000000 = .ok .lld ∧ decode 0x02000001 = .error .immNotZero

/-! ### Steps -/

/-- A step on a pending word that decodes runs the decoded command on the state with that word taken, and adds nothing
else (10_state.md R29); with nothing pending the CORE holds its state (60_exceptions.md R163). That the host's words
stand in a list of the state is the model's choice (log 1). -/
def Obligations.StepRunsDecodedCommand : Prop :=
  ∀ s : State,
    (∀ (w : Word) (rest : List Input) (i : Instr), s.inputs = .command w :: rest → decode w = .ok i →
      step s = exec i { s with inputs := rest }) ∧
      (s.inputs = [] → step s = .next s)

/-- An illegal word raises IllegalCommand and changes no other state (30_encoding.md R74). -/
def Obligations.IllegalWordRaises : Prop :=
  ∀ (s : State) (w : Word) (rest : List Input) (e : Illegal), s.inputs = .command w :: rest → s.fault = none →
    decode w = .error e →
      step s = .next { s with inputs := rest, fault := some .illegalCommand, fcmd := w }

/-- The faulted state: every word but SRST is discarded without any effect, a host write leaves FAULT and FCMD, and
SRST, the reset input or power-on clears them (60_exceptions.md R153). -/
def Obligations.FaultedState : Prop :=
  ∀ (s t : State) (rest : List Input), s.fault ≠ none →
    (∀ w, s.inputs = .command w :: rest → w ≠ 0x02000000 → step s = .next { s with inputs := rest }) ∧
      (∀ a, s.inputs = a :: rest →
        ((∃ n v, a = .writeReg n v) ∨ (∃ i b, a = .writeMsg i b) ∨ ∃ i b, a = .writeStr i b) → step s = .next t →
          t.fault = s.fault ∧ t.fcmd = s.fcmd) ∧
        (∀ a, s.inputs = a :: rest →
          (a = .command 0x02000000 ∨ (∃ m, a = .resetInput m) ∨ a = .powerOn) → step s = .next t →
            t.fault = none ∧ t.fcmd = 0)

/-- A command its operands or the state do not admit raises IllegalCommand and changes nothing else (30_encoding.md
R72, R78, R79; 60_exceptions.md R152). -/
def Obligations.InadmissibleCommandRaises : Prop :=
  ∀ (i : Instr) (s : State), s.fault = none → ¬ AdmittedBySpec i s →
    exec i s = .next { s with fault := some .illegalCommand, fcmd := encode i }

/-- Every command but SRST, in every state, answers a next state in one of four ways: discarded; refused with
IllegalCommand; completed, one more counted in CC and no fault; or ended by a fault that records its word and leaves
CC (30_encoding.md R79, 10_state.md R29, 60_exceptions.md R152). The two capacities and the model's own fields (the
host's pending actions, log 1, and the two epochs, logs 3 and 4) are never touched. -/
def Obligations.EveryCommandEnds : Prop :=
  ∀ (i : Instr) (s : State), i ≠ .srst →
    ∃ t, exec i s = .next t ∧ t.inputs = s.inputs ∧ t.msgCap = s.msgCap ∧ t.strCap = s.strCap ∧
      t.bufEpoch = s.bufEpoch ∧ t.aliasEpoch = s.aliasEpoch ∧
        ((s.fault ≠ none ∧ t = s) ∨
          (s.fault = none ∧ ¬ AdmittedBySpec i s ∧ t = { s with fault := some .illegalCommand, fcmd := encode i }) ∨
            (s.fault = none ∧ AdmittedBySpec i s ∧ t.fault = none ∧ t.fcmd = s.fcmd ∧ t.cc = s.cc + 1) ∨
              (s.fault = none ∧ AdmittedBySpec i s ∧ t.fault ≠ none ∧ t.fcmd = encode i ∧ t.cc = s.cc))

/-! ### Reset and the host port -/

/-- The values after power-on, for every pair of capacities (10_state.md R46, 70_reset_and_hazards.md R171), as the
host reads them; State.reset is that state with the two capacities the model chose (log 2). -/
def Obligations.ResetValues : Prop :=
  ∀ msgCap strCap : DWord,
    let s := State.powerOn msgCap strCap
    (∀ j, j < 4 → s.r.get j = 0x00800000) ∧ portReadReg s 0 = 0x0001000E ∧ portReadReg s 1 = 0 ∧ portReadReg s 2 = 0 ∧
      portReadReg s 3 = 0 ∧ portReadReg s 4 = 0 ∧ s.len = 0 ∧ s.wp = strCap ∧ s.rp = strCap ∧ s.rend = strCap ∧
        s.cc = 0 ∧ (∀ i, i < 256 → s.freq.get i = 0) ∧ (∀ i, i ≤ 256 → s.cum.entry i = 0) ∧ s.inputs = [] ∧
          State.reset = State.powerOn Config.msgCap Config.strCap

/-- SRST, also while a fault is latched: every register and model table to its reset value, CC 0, both buffers kept
(45_system_commands.md R142). -/
def Obligations.SrstResets : Prop :=
  ∀ s : State, ∃ t, exec .srst s = .next t ∧ (∀ j, j < 4 → t.r.get j = 0x00800000) ∧ portReadReg t 0 = 0x0001000E ∧
    portReadReg t 1 = 0 ∧ t.fault = none ∧ t.fcmd = 0 ∧ t.symo = 0 ∧ t.len = 0 ∧ t.wp = s.strCap ∧ t.rp = s.strCap ∧
      t.rend = s.strCap ∧ (∀ i, i < 256 → t.freq.get i = 0) ∧ (∀ i, i ≤ 256 → t.cum.entry i = 0) ∧ t.cc = 0 ∧
        (∀ i, t.readMsg i = s.readMsg i) ∧ (∀ a, t.readStr a = s.readStr a) ∧ t.msgCap = s.msgCap ∧
          t.strCap = s.strCap ∧ t.inputs = s.inputs

/-- The reset input between commands does what SRST does (70_reset_and_hazards.md R170); in the middle of a command,
and at power-on, it does the same to every register and table, and leaves both buffers with no written byte. The last
clause is the model's choice: free bytes stand for the unspecified contents (logs 3 and 11). -/
def Obligations.ResetInputResets : Prop :=
  ∀ (s : State) (rest : List Input),
    (s.inputs = .resetInput false :: rest → step s = exec .srst { s with inputs := rest }) ∧
      (∀ cause, cause = Input.resetInput true ∨ cause = Input.powerOn → s.inputs = cause :: rest →
        ∃ t, exec .srst { s with inputs := rest } = .next t ∧
          step s = .next { t with msg := [], str := [], bufEpoch := s.bufEpoch + 1 })

/-- What the host reads at each register number (10_state.md R45, fields R30, R31, R32, R43). -/
def Obligations.HostReadsRegisters : Prop :=
  ∀ s : State,
    (portReadReg s 0).toNat = s.k.count * 2 ^ 16 + s.p.exponent ∧
      (portReadReg s 1).toNat =
        (if s.fault = none then 0 else 8) + (if s.tv = true then 4 else 0) +
          (match s.ms with | .raw => 0 | .empty => 1 | .valid => 2) ∧
        (portReadReg s 2).toNat =
          (match s.fault with
            | none => 0
            | some .badHeader => 1
            | some .truncatedInput => 2
            | some .io => 3
            | some .invariantViolation => 4
            | some .illegalCommand => 5) ∧
          portReadReg s 3 = s.fcmd ∧ (portReadReg s 4).toNat = s.symo.toNat ∧
            portReadReg s 6 ++ portReadReg s 5 = s.len ∧ portReadReg s 8 ++ portReadReg s 7 = s.wp ∧
              portReadReg s 10 ++ portReadReg s 9 = s.rp ∧ portReadReg s 12 ++ portReadReg s 11 = s.rend ∧
                portReadReg s 14 ++ portReadReg s 13 = s.cc ∧ (∀ j, j < 4 → portReadReg s (16 + j) = s.r.get j) ∧
                  portReadReg s 15 = 0 ∧ ∀ n, 20 ≤ n → portReadReg s n = 0

/-- The host reads every table entry and buffer byte that exists, the alias arrays while `TV = 1` and `alias_remap`
below `M` (20_memory.md R50, R60); a `sym_id` entry is read as 8 bits whatever TV is (10_state.md R36, 20_memory.md R57, the
word that stands for it DEDUCED in log 4). That a read beyond a table or buffer answers none is the model's choice: the spec gives
such an access no meaning (log 12). -/
def Obligations.HostReadsTablesAndBuffers : Prop :=
  ∀ (s : State) (i : Nat),
    portReadTable s .freq i = (if i < 256 then some (s.freq.get i) else none) ∧
      portReadTable s .cum i = (if i < 257 then some (s.cum.entry i) else none) ∧
        portReadMsg s i = (if i < s.msgCap.toNat then some (s.readMsg i) else none) ∧
          portReadStr s i = (if i < s.strCap.toNat then some (s.readStr i) else none) ∧
            (∀ v, portReadTable s (.derived .symId) i = some v → v.toNat < 256) ∧
            (s.tv = true →
              portReadTable s (.derived .divider) i = (if i < 256 then some (s.divider.get i) else none) ∧
                portReadTable s (.derived .symId) i = (if i < 512 then some ((s.symId.get i).setWidth 32) else none) ∧
                  portReadTable s (.derived .slotFreqs) i = (if i < 512 then some (s.slotFreqs.get i) else none) ∧
                    portReadTable s (.derived .slotAdjust) i = (if i < 512 then some (s.slotAdjust.get i) else none) ∧
                      (i < 2 ^ s.p.exponent → portReadTable s (.derived .aliasRemap) i = some (s.aliasRemap.get i)))

/-- A host write of LEN, RP or REND by halves writes that half and nothing else; a write of any other number is
ignored (10_state.md R45). -/
def Obligations.HostWritesRegisters : Prop :=
  ∀ (s : State) (rest : List Input) (n : Nat) (v : Word), s.inputs = .writeReg n v :: rest →
    step s = .next
      { s with
        inputs := rest
        len := if n = 5 then portReadReg s 6 ++ v else if n = 6 then v ++ portReadReg s 5 else s.len
        rp := if n = 9 then portReadReg s 10 ++ v else if n = 10 then v ++ portReadReg s 9 else s.rp
        rend := if n = 11 then portReadReg s 12 ++ v else if n = 12 then v ++ portReadReg s 11 else s.rend }

/-- A host write of a buffer byte in range writes that byte and no other piece of state (20_memory.md R60); out of
range it stops the model (log 12). -/
def Obligations.HostWritesBuffers : Prop :=
  ∀ (s : State) (rest : List Input) (a : Nat) (b : Byte),
    (s.inputs = .writeMsg a b :: rest → a < s.msgCap.toNat →
      ∃ t, step s = .next t ∧ t = { s with inputs := rest, msg := t.msg } ∧
        ∀ x, t.readMsg x = if x = a then b else s.readMsg x) ∧
      (s.inputs = .writeStr a b :: rest → a < s.strCap.toNat →
        ∃ t, step s = .next t ∧ t = { s with inputs := rest, str := t.str } ∧
          ∀ x, t.readStr x = if x = a then b else s.readStr x) ∧
        (s.inputs = .writeMsg a b :: rest → s.msgCap.toNat ≤ a → step s = .fault (.noSuchMsgByte a)) ∧
          (s.inputs = .writeStr a b :: rest → s.strCap.toNat ≤ a → step s = .fault (.noSuchStrByte a))

/-! ### Invariants -/

/-- The state after power-on meets every invariant, for every pair of capacities in range (00_scope.md R8, 10_state.md
R46, R47, R48); State.reset, whose capacities the model chose (log 2), is one of these. -/
def Obligations.ResetIsOk : Prop :=
  (∀ msgCap strCap : DWord, 1 ≤ msgCap.toNat → msgCap.toNat < 2 ^ 32 → 1 ≤ strCap.toNat → strCap.toNat < 2 ^ 63 →
    RunOk (State.powerOn msgCap strCap)) ∧ RunOk State.reset

/-- Every step keeps what holds in every state a run reaches: the capacities, the buffers' canonical form, `WP` inside
STR, `TV = 1` only on a VALID model, an EMPTY model all zero, raw counts below `2^24`, FCMD clear without a fault
(00_scope.md R8, 10_state.md R31, R32, R41, 40_frequency_model.md R92). -/
def Obligations.StepKeepsStateOk : Prop :=
  ∀ s t : State, StateOk s → step s = .next t → StateOk t

/-- Every step keeps the model invariant of a VALID model and the alias-table invariant of a valid table (10_state.md
R47, R48). -/
def Obligations.StepKeepsModelAndTable : Prop :=
  ∀ s t : State, RunOk s → step s = .next t → RunOk t

/-! ### System commands -/

/-- NOP, the word `0x00000000`, changes nothing but CC; while a fault is latched it is discarded
(45_system_commands.md R140). -/
def Obligations.NopOnlyCounts : Prop :=
  encode .nop = 0x00000000 ∧
    ∀ s : State, (s.fault = none → exec .nop s = .next { s with cc := s.cc + 1 }) ∧
      (s.fault ≠ none → exec .nop s = .next s)

/-- CFG, the word `0x01000000 | K << 16 | P`, with legal operands sets `K` and `P`, clears the model and touches
nothing else; any other operand value raises IllegalCommand and changes nothing (45_system_commands.md R141). -/
def Obligations.CfgSetsAndClears : Prop :=
  ∀ (s : State) (k : Nibble) (p : Byte), s.fault = none →
    encode (.cfg k p) = 0x01000000 ||| k.setWidth 32 <<< 16 ||| p.setWidth 32 ∧
    (∀ (k' : Interleave) (p' : Scale), k.toNat = k'.count → p.toNat = p'.exponent →
      exec (.cfg k p) s = .next
        { s with k := k', p := p', freq := .fill 0 8, cum := ⟨.fill 0 8, 0⟩, ms := .raw, tv := false, cc := s.cc + 1 }) ∧
      ((k ≠ 1 ∧ k ≠ 2 ∧ k ≠ 4) ∨ p.toNat < 8 ∨ 16 < p.toNat →
        exec (.cfg k p) s = .next { s with fault := some .illegalCommand, fcmd := encode (.cfg k p) })

/-! ### Frequency Model -/

/-- FCLR, the word `0x10000000`, clears `freq[]` and `cum[]`, `MS <- RAW`, `TV <- 0`, nothing else
(40_frequency_model.md R90). -/
def Obligations.FclrClears : Prop :=
  encode .fclr = 0x10000000 ∧ ∀ s : State, s.fault = none →
    exec .fclr s = .next
      { s with freq := .fill 0 8, cum := ⟨.fill 0 8, 0⟩, ms := .raw, tv := false, cc := s.cc + 1 }

/-- FCNT counts one byte; when the incremented count is `2^24` every count is halved, rounding up, which keeps the set
of nonzero counts (40_frequency_model.md R91). -/
def Obligations.FcntCounts : Prop :=
  ∀ (s : State) (b : Byte), s.fault = none → s.ms = .raw →
    ∃ t, exec (.fcnt b) s = .next t ∧ t = { s with freq := t.freq, cc := s.cc + 1 } ∧
      ((s.freq.get b.toNat + 1).toNat ≠ 2 ^ 24 →
        ∀ j, j < 256 → t.freq.get j = if j = b.toNat then s.freq.get j + 1 else s.freq.get j) ∧
        ((s.freq.get b.toNat + 1).toNat = 2 ^ 24 →
          (t.freq.get b.toNat).toNat = 2 ^ 23 ∧
            ∀ j, j < 256 → j ≠ b.toNat →
              (t.freq.get j).toNat = ((s.freq.get j).toNat + 1) / 2 ∧ (t.freq.get j = 0 ↔ s.freq.get j = 0))

/-- FSCAN adds to each count how often its byte occurs in `MSG[0..LEN)`, where no count reaches `2^24`
(40_frequency_model.md R95). -/
def Obligations.FscanAddsOccurrences : Prop :=
  ∀ s : State, s.fault = none → s.ms = .raw → s.len.toNat ≤ s.msgCap.toNat →
    (∀ b : Byte, (s.freq.get b.toNat).toNat + s.occurrences b s.len.toNat < 2 ^ 24) →
      ∃ t, exec .fscan s = .next t ∧ t = { s with freq := t.freq, cc := s.cc + 1 } ∧
        ∀ b : Byte, (t.freq.get b.toNat).toNat = (s.freq.get b.toNat).toNat + s.occurrences b s.len.toNat

/-- FSCAN is FCNT for each byte of `MSG[0..LEN)` in ascending order, but for the count of commands
(40_frequency_model.md R95). -/
def Obligations.FscanIsFcntPerByte : Prop :=
  ∀ s : State, s.fault = none → s.ms = .raw → s.len.toNat ≤ s.msgCap.toNat →
    ∃ t, exec .fscan s = .next t ∧
      execAll ((List.range s.len.toNat).map fun i => Instr.fcnt (s.readMsg i)) s = .next { t with cc := s.cc + s.len }

/-- The empty model: FNORM on all-zero counts divides nothing, leaves the all-zero model and sets EMPTY
(40_frequency_model.md R93); ABLD on an EMPTY model only clears TV (41_alias_table.md R100). -/
def Obligations.EmptyModelCommands : Prop :=
  ∀ s : State, s.fault = none →
    (s.ms = .raw → (∀ i, i < 256 → s.freq.get i = 0) →
      exec .fnorm s = .next { s with cum := ⟨.fill 0 8, 0⟩, ms := .empty, tv := false, cc := s.cc + 1 }) ∧
      (s.ms = .empty → exec .abld s = .next { s with tv := false, cc := s.cc + 1 })

/-- FNORM on counts with a nonzero total completes with a VALID model: `cum` runs from 0 to `M`, and a frequency is 0
exactly where the count was 0 (40_frequency_model.md R94). -/
def Obligations.FnormGuarantee : Prop :=
  ∀ s : State, s.fault = none → s.ms = .raw → (∀ i, i < 256 → (s.freq.get i).toNat < 2 ^ 24) →
    (∃ i, i < 256 ∧ s.freq.get i ≠ 0) →
      ∃ t, exec .fnorm s = .next t ∧ ModelOk t ∧ (∀ i, i < 256 → (t.freq.get i = 0 ↔ s.freq.get i = 0)) ∧
        t = { s with freq := t.freq, cum := t.cum, ms := .valid, tv := false, cc := s.cc + 1 }

/-- FNORM on counts with a nonzero total, all of it: the gaps `M * (count sum up to i) / S` of the rescale go through
one repair turn per symbol in ascending order, each with the donor the rule names, and the gaps after the last turn
are the new frequencies, their running sums the new `cum[]`; and where no counted symbol's gap is empty after the
rescale no repair is made (40_frequency_model.md R93, steps 1 to 4). -/
def Obligations.FnormRescales : Prop :=
  ∀ s : State, s.fault = none → s.ms = .raw → (∀ i, i < 256 → (s.freq.get i).toNat < 2 ^ 24) → 0 < s.freqSum 256 →
    (∃ (t : State) (g : Nat → Nat → Nat), exec .fnorm s = .next t ∧
      t = { s with freq := t.freq, cum := t.cum, ms := .valid, tv := false, cc := s.cc + 1 } ∧
        (∀ i, i < 256 → g 0 i =
          2 ^ s.p.exponent * s.freqSum (i + 1) / s.freqSum 256 - 2 ^ s.p.exponent * s.freqSum i / s.freqSum 256) ∧
          (∀ n, n < 256 → RepairTurn s.freq n (g n) (g (n + 1))) ∧ (∀ i, i < 256 → (t.freq.get i).toNat = g 256 i) ∧
            ∀ i, i ≤ 256 → (t.cum.entry i).toNat = t.freqSum i) ∧
      ((∀ i, i < 256 → s.freq.get i ≠ 0 →
        2 ^ s.p.exponent * s.freqSum i / s.freqSum 256 < 2 ^ s.p.exponent * s.freqSum (i + 1) / s.freqSum 256) →
        ∃ t, exec .fnorm s = .next t ∧ t.ms = .valid ∧ t.tv = false ∧
          (∀ i, i ≤ 256 → (t.cum.entry i).toNat = 2 ^ s.p.exponent * s.freqSum i / s.freqSum 256) ∧
            ∀ i, i < 256 → (t.freq.get i).toNat =
              2 ^ s.p.exponent * s.freqSum (i + 1) / s.freqSum 256 - 2 ^ s.p.exponent * s.freqSum i / s.freqSum 256)

/-- FNORM's donor has the minimum gap above 1, ties to the lowest index (40_frequency_model.md R93, step 3). -/
def Obligations.DonorIsLowestMinimum : Prop :=
  ∀ (c : CumTable) (j f : Nat), donorBelow c 256 = some (j, f) ↔
    j < 256 ∧ f = c.gap j ∧ 1 < f ∧ ∀ i, i < 256 → 1 < c.gap i → f ≤ c.gap i ∧ (c.gap i = f → j ≤ i)

/-- FNORM's transfer lowers the donor's gap by one, raises the receiver's by one and moves no other gap
(40_frequency_model.md R93, step 3). -/
def Obligations.TransferMovesOneUnit : Prop :=
  ∀ (c : CumTable) (j s : Nat), j < 256 → s < 256 → j ≠ s → (∀ i, i < 256 → (c.entry i).toNat ≤ (c.entry (i + 1)).toNat) →
    (c.entry 256).toNat ≤ 2 ^ 16 → 1 < c.gap j →
      ∀ i, i < 256 → (transfer j s c).gap i = if i = j then c.gap i - 1 else if i = s then c.gap i + 1 else c.gap i

/-- FLD on a full window: 256 little-endian words become `freq[]` and `cum[]` their running sum; the total `M` makes
the model VALID, the all-zero table of a zero length makes it EMPTY, anything else raises BadHeader with what was read
and summed staying written (40_frequency_model.md R96, 60_exceptions.md R152). -/
def Obligations.FldLoads : Prop :=
  ∀ s : State, s.fault = none → s.ms = .raw → s.rp.toNat + 512 ≤ s.rend.toNat → s.rp.toNat + 512 ≤ s.strCap.toNat →
    ∃ t, exec .fld s = .next t ∧ (∀ i, i < 256 → (t.freq.get i).toNat = s.littleEndian (s.rp.toNat + 2 * i) 2) ∧
      (∀ i, i ≤ 256 → (t.cum.entry i).toNat = s.loadedSum i) ∧
        (s.loadedSum 256 = 2 ^ s.p.exponent →
          t = { s with freq := t.freq, cum := t.cum, ms := .valid, tv := false, rp := s.rp + 512, cc := s.cc + 1 }) ∧
          (s.loadedSum 256 = 0 → s.len = 0 →
            t = { s with freq := t.freq, cum := t.cum, ms := .empty, tv := false, rp := s.rp + 512, cc := s.cc + 1 }) ∧
            (s.loadedSum 256 ≠ 2 ^ s.p.exponent → s.loadedSum 256 ≠ 0 ∨ s.len ≠ 0 →
              t = { s with
                    freq := t.freq
                    cum := t.cum
                    tv := false
                    rp := s.rp + 512
                    fault := some .badHeader
                    fcmd := 0x14000000 })

/-- FLD on a window shorter than 512 bytes raises TruncatedInput at its end, the whole words read before it written,
the other entries and `cum[]` unchanged (40_frequency_model.md R96, 60_exceptions.md R152, R154). -/
def Obligations.FldTruncated : Prop :=
  ∀ s : State, s.fault = none → s.ms = .raw → s.window < 512 →
    ∃ t, exec .fld s = .next t ∧
      t = { s with
            freq := t.freq
            rp := s.rp + BitVec.ofNat 64 s.window
            fault := some .truncatedInput
            fcmd := 0x14000000 } ∧
        ∀ i, i < 256 → t.freq.get i =
          if 2 * i + 2 ≤ s.window then BitVec.ofNat 32 (s.littleEndian (s.rp.toNat + 2 * i) 2) else s.freq.get i

/-- FST stores the table below WP, so that read forward word `i` is `freq[i]`, little-endian; no other byte of STR
changes (40_frequency_model.md R97). -/
def Obligations.FstStores : Prop :=
  ∀ s : State, s.fault = none → s.ms = .valid ∨ s.ms = .empty → (∀ i, i < 256 → (s.freq.get i).toNat ≤ 0xFFFF) →
    512 ≤ s.wp.toNat → s.wp.toNat ≤ s.strCap.toNat →
      ∃ t, exec .fst s = .next t ∧ t = { s with wp := s.wp - 512, str := t.str, cc := s.cc + 1 } ∧
        (∀ i, i < 256 → t.littleEndian (s.wp.toNat - 512 + 2 * i) 2 = (s.freq.get i).toNat) ∧
          ∀ a, a < s.wp.toNat - 512 ∨ s.wp.toNat ≤ a → t.readStr a = s.readStr a

/-- What FST stored, FLD loads: the same model (44_stream_and_container.md R138). -/
def Obligations.FstThenFldRestores : Prop :=
  ∀ s : State, s.fault = none → s.ms = .valid → ModelOk s → (∀ i, i < 256 → (s.freq.get i).toNat ≤ 0xFFFF) →
    512 ≤ s.wp.toNat → s.wp.toNat ≤ s.strCap.toNat →
      ∃ t, execAll [.fst, .rewind, .fclr, .fld] s = .next t ∧ t.fault = none ∧ t.ms = .valid ∧ t.freq = s.freq ∧
        (∀ i, i ≤ 256 → t.cum.entry i = s.cum.entry i) ∧ t.rp = s.wp

/-! ### Alias Table -/

/-- ABLD on a VALID model completes with `TV = 1` and the finished table: decoding and remapping are inverse
bijections, every slot carries its symbol's frequency, and the code points of a symbol rise with the offset, as the
ascending order of the buckets gives them out; `alias_remap[M..65536)` is not written (41_alias_table.md R100, R103,
R104, R105). -/
def Obligations.AbldBuildsTable : Prop :=
  ∀ s : State, s.fault = none → s.ms = .valid → ModelOk s →
    ∃ t, exec .abld s = .next t ∧ TableOk t ∧
      t = { s with
            tv := true
            divider := t.divider
            symId := t.symId
            slotFreqs := t.slotFreqs
            slotAdjust := t.slotAdjust
            aliasRemap := t.aliasRemap
            cc := s.cc + 1 } ∧
        (∀ sym, sym < 256 → ∀ d d', d < d' → d' < (s.freq.get sym).toNat →
          (t.aliasRemap.get ((s.cum.entry sym).toNat + d)).toNat <
            (t.aliasRemap.get ((s.cum.entry sym).toNat + d')).toNat) ∧
          ∀ y, 2 ^ s.p.exponent ≤ y → y < 65536 → t.aliasRemap.get y = s.aliasRemap.get y

/-- After ABLD on a VALID model the primary of every bucket is its own symbol (41_alias_table.md R101, 10_state.md
R36), and no divider leaves its bucket's range (10_state.md R35). Of a normalized model the sweep's donors are R101's:
the bucket of a symbol with frequency below `T` is split at that frequency, and its alias is a symbol of frequency at
least `T`; over these symbols in ascending order the donors never go back; and the first of them takes the first
symbol of frequency at least `T`. -/
def Obligations.AbldPrimariesAndDividers : Prop :=
  ∀ s t : State, s.fault = none → s.ms = .valid → exec .abld s = .next t →
    let height := 2 ^ (s.p.exponent - 8)
    let f := fun i => (s.freq.get i).toNat
    let donor := fun i => (t.symId.get (2 * i)).toNat
    (∀ i, i < 256 → (t.symId.get (2 * i + 1)).toNat = i ∧ i * height ≤ (t.divider.get i).toNat ∧
      (t.divider.get i).toNat ≤ (i + 1) * height) ∧
      (ModelOk s →
        (∀ i, i < 256 → f i < height → (t.divider.get i).toNat = i * height + f i ∧ height ≤ f (donor i)) ∧
          (∀ i i', i < i' → i' < 256 → f i < height → f i' < height → donor i ≤ donor i') ∧
            ∀ i j, i < 256 → j < 256 → f i < height → (∀ x, x < i → height ≤ f x) → height ≤ f j →
              (∀ x, x < j → f x < height) → donor i = j)

/-! ### Coder State, encode side -/

/-- EINIT, the word `0x30000000 | j << 16`, writes `L` to `r[j]` and touches nothing else; `j ≥ K` raises
IllegalCommand (42_coder_state.md R110). -/
def Obligations.EinitWritesLowerBound : Prop :=
  ∀ (s : State) (j : Nibble), s.fault = none →
    encode (.einit j) = 0x30000000 ||| j.setWidth 32 <<< 16 ∧
    (StreamInUse j s → exec (.einit j) s = .next { s with r := s.r.set j.toNat 0x00800000, cc := s.cc + 1 }) ∧
      (¬ StreamInUse j s →
        exec (.einit j) s = .next { s with fault := some .illegalCommand, fcmd := encode (.einit j) })

/-- EPUT sheds low bytes of `r[j]` into the sink, least significant first, until it is below `x_max = 2^(31-P) * f`,
and puts the symbol; no other byte of STR and no other register changes (42_coder_state.md R111). -/
def Obligations.EputEncodes : Prop :=
  ∀ (s : State) (j : Nibble) (sym : Byte), s.fault = none → StreamInUse j s → s.tv = true →
    s.freq.get sym.toNat ≠ 0 →
      (s.cum.entry sym.toNat).toNat + (s.freq.get sym.toNat).toNat ≤ 2 ^ s.p.exponent → s.wp.toNat ≤ s.strCap.toNat →
        let f := (s.freq.get sym.toNat).toNat
        let x := (s.r.get j.toNat).toNat
        let n := emitCount (2 ^ (31 - s.p.exponent) * f) x
        let y := x / 256 ^ n
        n ≤ s.wp.toNat →
          ∃ t, exec (.eput j sym) s = .next t ∧
            t = { s with
                  r := s.r.set j.toNat (BitVec.ofNat 32 (y / f * 2 ^ s.p.exponent +
                    (s.aliasRemap.get (y % f + (s.cum.entry sym.toNat).toNat)).toNat))
                  wp := s.wp - BitVec.ofNat 64 n
                  str := t.str
                  cc := s.cc + 1 } ∧
              (∀ m, m < n → (t.readStr (s.wp.toNat - 1 - m)).toNat = x / 256 ^ m % 256) ∧
                ∀ a, a < s.wp.toNat - n ∨ s.wp.toNat ≤ a → t.readStr a = s.readStr a

/-- EPUT of a symbol of frequency 0, and FST with an entry above `0xFFFF`, raise InvariantViolation before any byte is
pushed, whatever the room (42_coder_state.md R111, 40_frequency_model.md R97, 60_exceptions.md R154). -/
def Obligations.InvariantViolationBeforeAnyByte : Prop :=
  ∀ s : State, s.fault = none →
    (∀ (j : Nibble) (sym : Byte), StreamInUse j s → s.tv = true → s.freq.get sym.toNat = 0 →
      exec (.eput j sym) s = .next { s with fault := some .invariantViolation, fcmd := encode (.eput j sym) }) ∧
      (s.ms = .valid ∨ s.ms = .empty → (∃ i, i < 256 ∧ 0xFFFF < (s.freq.get i).toNat) →
        exec .fst s = .next { s with fault := some .invariantViolation, fcmd := 0x15000000 })

/-- EPUT with too little room raises Io at the PutByte that finds the sink full: the bytes before it stay written, and
`r[j]` holds the value whose low byte could not be emitted (42_coder_state.md R111, 60_exceptions.md R152). -/
def Obligations.EputFullSinkRaises : Prop :=
  ∀ (s : State) (j : Nibble) (sym : Byte), s.fault = none → StreamInUse j s → s.tv = true →
    s.freq.get sym.toNat ≠ 0 → s.wp.toNat ≤ s.strCap.toNat →
      let x := (s.r.get j.toNat).toNat
      s.wp.toNat < emitCount (2 ^ (31 - s.p.exponent) * (s.freq.get sym.toNat).toNat) x →
        ∃ t, exec (.eput j sym) s = .next t ∧
          t = { s with
                r := s.r.set j.toNat (BitVec.ofNat 32 (x / 256 ^ s.wp.toNat))
                wp := 0
                str := t.str
                fault := some .io
                fcmd := encode (.eput j sym) } ∧
            (∀ m, m < s.wp.toNat → (t.readStr (s.wp.toNat - 1 - m)).toNat = x / 256 ^ m % 256) ∧
              ∀ a, s.wp.toNat ≤ a → t.readStr a = s.readStr a

/-- EFLUSH pushes the four bytes of `r[j]`, which read forward are little-endian, and leaves `r[j]` (42_coder_state.md
R112). -/
def Obligations.EflushPushesState : Prop :=
  ∀ (s : State) (j : Nibble), s.fault = none → StreamInUse j s → 4 ≤ s.wp.toNat → s.wp.toNat ≤ s.strCap.toNat →
    ∃ t, exec (.eflush j) s = .next t ∧ t = { s with wp := s.wp - 4, str := t.str, cc := s.cc + 1 } ∧
      t.littleEndian (s.wp.toNat - 4) 4 = (s.r.get j.toNat).toNat ∧
        ∀ a, a < s.wp.toNat - 4 ∨ s.wp.toNat ≤ a → t.readStr a = s.readStr a

/-- EFLUSH, LST and FST with too little room raise Io with the sink full: the bytes pushed before it, most significant
first, stay written, no other byte changes (42_coder_state.md R112, 44_stream_and_container.md R131, R135,
40_frequency_model.md R97, 60_exceptions.md R152). -/
def Obligations.FullSinkRaises : Prop :=
  ∀ s : State, s.fault = none → s.wp.toNat ≤ s.strCap.toNat →
    (∀ j : Nibble, StreamInUse j s → s.wp.toNat < 4 →
      ∃ t, exec (.eflush j) s = .next t ∧
        t = { s with wp := 0, str := t.str, fault := some .io, fcmd := encode (.eflush j) } ∧
          (∀ m, m < s.wp.toNat → (t.readStr (s.wp.toNat - 1 - m)).toNat = (s.r.get j.toNat).toNat / 256 ^ (3 - m) % 256) ∧
            ∀ a, s.wp.toNat ≤ a → t.readStr a = s.readStr a) ∧
      (s.wp.toNat < 8 →
        ∃ t, exec .lst s = .next t ∧ t = { s with wp := 0, str := t.str, fault := some .io, fcmd := 0x52000000 } ∧
          (∀ m, m < s.wp.toNat → (t.readStr (s.wp.toNat - 1 - m)).toNat = s.len.toNat / 256 ^ (7 - m) % 256) ∧
            ∀ a, s.wp.toNat ≤ a → t.readStr a = s.readStr a) ∧
        (s.ms = .valid ∨ s.ms = .empty → (∀ i, i < 256 → (s.freq.get i).toNat ≤ 0xFFFF) → s.wp.toNat < 512 →
          ∃ t, exec .fst s = .next t ∧ t = { s with wp := 0, str := t.str, fault := some .io, fcmd := 0x15000000 } ∧
            (∀ m, m < s.wp.toNat → (t.readStr (s.wp.toNat - 1 - m)).toNat =
              (s.freq.get (255 - m / 2)).toNat / 256 ^ (1 - m % 2) % 256) ∧
            ∀ a, s.wp.toNat ≤ a → t.readStr a = s.readStr a)

/-! ### Coder State, decode side -/

/-- DINIT reads four bytes forward into `r[j]`, least significant first (42_coder_state.md R113). -/
def Obligations.DinitReadsState : Prop :=
  ∀ (s : State) (j : Nibble), s.fault = none → StreamInUse j s → s.rp.toNat + 4 ≤ s.rend.toNat →
    s.rp.toNat + 4 ≤ s.strCap.toNat →
      exec (.dinit j) s = .next
        { s with
          r := s.r.set j.toNat (BitVec.ofNat 32 (s.littleEndian s.rp.toNat 4))
          rp := s.rp + 4
          cc := s.cc + 1 }

/-- DINIT, LLD and DRENORM on a source that runs out raise TruncatedInput: RP has moved past the bytes that were read;
DINIT and LLD have not written their target, DRENORM has shifted in what was read (42_coder_state.md R113, R115,
44_stream_and_container.md R136, 60_exceptions.md R152). -/
def Obligations.SourceRunsOut : Prop :=
  ∀ s : State, s.fault = none →
    (∀ j : Nibble, StreamInUse j s → s.window < 4 →
      exec (.dinit j) s = .next
        { s with
          rp := s.rp + BitVec.ofNat 64 s.window
          fault := some .truncatedInput
          fcmd := encode (.dinit j) }) ∧
      (s.window < 8 →
        exec .lld s = .next
          { s with rp := s.rp + BitVec.ofNat 64 s.window, fault := some .truncatedInput, fcmd := 0x53000000 }) ∧
        (∀ j : Nibble, StreamInUse j s →
          (∀ i, i ≤ s.window → s.shiftedIn (s.r.get j.toNat).toNat s.rp.toNat i < 0x00800000) →
            exec (.drenorm j) s = .next
              { s with
                r := s.r.set j.toNat (BitVec.ofNat 32 (s.shiftedIn (s.r.get j.toNat).toNat s.rp.toNat s.window))
                rp := s.rp + BitVec.ofNat 64 s.window
                fault := some .truncatedInput
                fcmd := encode (.drenorm j) })

/-- DGET: alias lookup and advance; `r[j]` modulo `2^32`, the symbol in SYMO, nothing else; `j ≥ K` or `TV = 0` raises
IllegalCommand (42_coder_state.md R114). -/
def Obligations.DgetDecodes : Prop :=
  ∀ (s : State) (j : Nibble), s.fault = none →
    let x := (s.r.get j.toNat).toNat
    let xm := x % 2 ^ s.p.exponent
    let bucket := xm / 2 ^ (s.p.exponent - 8)
    let slot := if xm < (s.divider.get bucket).toNat then 2 * bucket + 1 else 2 * bucket
    (StreamInUse j s → s.tv = true →
      exec (.dget j) s = .next
        { s with
          r := s.r.set j.toNat (BitVec.ofNat 32 ((s.slotFreqs.get slot).toNat * (x / 2 ^ s.p.exponent) + xm) -
            s.slotAdjust.get slot)
          symo := s.symId.get slot
          cc := s.cc + 1 }) ∧
      (¬ StreamInUse j s ∨ s.tv = false →
        exec (.dget j) s = .next { s with fault := some .illegalCommand, fcmd := encode (.dget j) })

/-- DRENORM reads bytes until `r[j]` is at least `L`: with `m` the first count at which it is, `m` bytes and no more
(42_coder_state.md R115). -/
def Obligations.DrenormReads : Prop :=
  ∀ (s : State) (j : Nibble) (m : Nat), s.fault = none → StreamInUse j s → m ≤ s.window →
    let v := s.shiftedIn (s.r.get j.toNat).toNat s.rp.toNat
    (∀ i, i < m → v i < 0x00800000) → 0x00800000 ≤ v m →
      exec (.drenorm j) s = .next
        { s with
          r := s.r.set j.toNat (BitVec.ofNat 32 (v m))
          rp := s.rp + BitVec.ofNat 64 m
          cc := s.cc + 1 }

/-- What EFLUSH pushed DINIT reads: the two byte orders agree (20_memory.md R53). -/
def Obligations.FlushThenInitRestores : Prop :=
  ∀ (s : State) (j j' : Nibble), s.fault = none → StreamInUse j s → StreamInUse j' s → 4 ≤ s.wp.toNat →
    s.wp.toNat ≤ s.strCap.toNat → s.strCap.toNat < 2 ^ 63 →
      ∃ t, execAll [.eflush j, .rewind, .dinit j'] s = .next t ∧ t.fault = none ∧
        t.r = s.r.set j'.toNat (s.r.get j.toNat) ∧ t.rp = s.wp

/-- EPUT keeps the state in the normalization interval, and DGET then DRENORM undo it, giving the symbol back and
taking exactly the bytes it emitted (42_coder_state.md R116). -/
def Obligations.PutThenGetRestores : Prop :=
  ∀ (s : State) (j : Nibble) (sym : Byte), s.fault = none → StreamInUse j s → s.tv = true → StateOk s → ModelOk s →
    TableOk s → s.freq.get sym.toNat ≠ 0 → InInterval (s.r.get j.toNat) → 2 ≤ s.wp.toNat →
      ∃ t u, exec (.eput j sym) s = .next t ∧ InInterval (t.r.get j.toNat) ∧
        execAll [.dget j, .drenorm j] { t with rp := t.wp, rend := s.wp } = .next u ∧ u.fault = none ∧
          u.symo = sym ∧ u.r = s.r ∧ u.rp = s.wp

/-! ### Interleaved Driver -/

/-- ENC completes on a message every byte of which has a frequency, with room for the flushes and three bytes a
symbol; read forward the payload starts with the final states in ascending order, which are all `L` for the empty
message (43_interleaved_driver.md R120, R123). -/
def Obligations.EncCompletes : Prop :=
  ∀ s : State, s.fault = none → s.len.toNat ≤ s.msgCap.toNat → s.len.toNat = 0 ∨ s.tv = true →
    (∀ i, i < s.len.toNat → s.freq.get (s.readMsg i).toNat ≠ 0) →
      4 * s.k.count + 3 * s.len.toNat ≤ s.wp.toNat → s.wp.toNat ≤ s.strCap.toNat →
        ∃ t, exec .enc s = .next t ∧ t = { s with r := t.r, wp := t.wp, str := t.str, cc := s.cc + 1 } ∧
          (∀ j, s.k.count ≤ j → j < 4 → t.r.get j = s.r.get j) ∧ t.wp.toNat + 4 * s.k.count ≤ s.wp.toNat ∧
            s.wp.toNat ≤ t.wp.toNat + 4 * s.k.count + 3 * s.len.toNat ∧
              (∀ j, j < s.k.count → t.littleEndian (t.wp.toNat + 4 * j) 4 = (t.r.get j).toNat) ∧
                (s.len.toNat = 0 → ∀ j, j < s.k.count → t.r.get j = 0x00800000) ∧
                  ∀ a, a < t.wp.toNat ∨ s.wp.toNat ≤ a → t.readStr a = s.readStr a

/-- ENC has the same effect on every piece of state except CC as the sequence of its primitives, whether it completes
or faults, but that on a fault FCMD holds ENC's own word after ENC and the word of one of its primitives after the
sequence (60_exceptions.md R152, R153); a completed sequence counts each of its primitives in CC
(43_interleaved_driver.md R120, R122, 'Primitive equivalence'). -/
def Obligations.EncIsItsPrimitives : Prop :=
  ∀ s t : State, s.fault = none → s.len.toNat ≤ s.msgCap.toNat → s.len.toNat = 0 ∨ s.tv = true →
    exec .enc s = .next t →
      ∃ u, execAll (encPrimitives s) s = .next u ∧ u = { t with cc := u.cc, fcmd := u.fcmd } ∧
        (t.fault = none → u.fcmd = t.fcmd ∧ u.cc = s.cc + BitVec.ofNat 64 (encPrimitives s).length) ∧
          (t.fault ≠ none → t.fcmd = encode .enc ∧ ∃ i ∈ encPrimitives s, u.fcmd = encode i)

/-- DEC completes on a finished table, start states in the interval or above and two bytes a symbol in the window; it
writes `MSG[0..LEN)` and no other byte, and the first `K` symbols are those the start states decode to
(43_interleaved_driver.md R121). On any stream and any table, whether it completes or faults, DEC has the same effect
on every piece of state except CC as its primitives with the host copying SYMO to MSG after each DGET, but that on a
fault FCMD holds DEC's own word after DEC and the word of one of its primitives after those (43_interleaved_driver.md
R122, 'Primitive equivalence'; 60_exceptions.md R152, R153). -/
def Obligations.DecCompletes : Prop :=
  (∀ s : State, s.fault = none → s.len.toNat ≤ s.msgCap.toNat → s.tv = true → ModelOk s → TableOk s →
      4 * s.k.count + 2 * s.len.toNat ≤ s.window →
        (∀ j, j < s.k.count → 0x00800000 ≤ s.littleEndian (s.rp.toNat + 4 * j) 4) →
          ∃ t, exec .dec s = .next t ∧
            t = { s with r := t.r, rp := t.rp, symo := t.symo, msg := t.msg, cc := s.cc + 1 } ∧
              (∀ j, s.k.count ≤ j → j < 4 → t.r.get j = s.r.get j) ∧
                (∀ i, s.len.toNat ≤ i → t.readMsg i = s.readMsg i) ∧
                  (∀ j, j < s.k.count → j < s.len.toNat → (t.readMsg j).toNat =
                    s.decodeSym (s.littleEndian (s.rp.toNat + 4 * j) 4 % 2 ^ s.p.exponent)) ∧
                    s.rp.toNat + 4 * s.k.count ≤ t.rp.toNat ∧
                      t.rp.toNat ≤ s.rp.toNat + 4 * s.k.count + 2 * s.len.toNat) ∧
    ∀ s t : State, s.fault = none → s.len.toNat ≤ s.msgCap.toNat → s.len.toNat = 0 ∨ s.tv = true →
      exec .dec s = .next t →
        ∃ u, driveAll (decPrimitives s) s = .next u ∧ u = { t with cc := u.cc, fcmd := u.fcmd } ∧
          (t.fault = none → u.fcmd = t.fcmd ∧ u.cc = s.cc + BitVec.ofNat 64 (s.k.count + 2 * s.len.toNat)) ∧
            (t.fault ≠ none → t.fcmd = encode .dec ∧ ∃ i, .issue i ∈ decPrimitives s ∧ u.fcmd = encode i)

/-- DEC of the empty message reads the `4 * K` state bytes and writes nothing to MSG or SYMO (43_interleaved_driver.md
R121). -/
def Obligations.DecEmptyMessage : Prop :=
  ∀ s : State, s.fault = none → s.len = 0 → 4 * s.k.count ≤ s.window →
    ∃ t, exec .dec s = .next t ∧
      t = { s with r := t.r, rp := s.rp + BitVec.ofNat 64 (4 * s.k.count), cc := s.cc + 1 } ∧
        ∀ j, j < 4 → t.r.get j =
          if j < s.k.count then BitVec.ofNat 32 (s.littleEndian (s.rp.toNat + 4 * j) 4) else s.r.get j

/-- The round trip, for every `K` and `P`: what ENC encoded DEC decodes, whatever MSG held meanwhile; every payload
byte is consumed and each state ends at `L`; the empty message needs no table (43_interleaved_driver.md R122). -/
def Obligations.DecodeOfEncodedMessage : Prop :=
  ∀ (s : State) (other : List Host.Cell), s.fault = none → s.len.toNat ≤ s.msgCap.toNat → StateOk s →
    s.len.toNat = 0 ∨ (s.tv = true ∧ ModelOk s ∧ TableOk s) → (∀ i, i < s.len.toNat → s.freq.get (s.readMsg i).toNat ≠ 0) →
      4 * s.k.count + 2 * s.len.toNat ≤ s.wp.toNat →
        ∃ t u, exec .enc s = .next t ∧ exec .dec { t with msg := other, rp := t.wp, rend := s.wp } = .next u ∧
          u.fault = none ∧ (∀ i, i < s.len.toNat → u.readMsg i = s.readMsg i) ∧ u.rp = s.wp ∧
            ∀ j, j < s.k.count → u.r.get j = 0x00800000

/-! ### Stream and container -/

/-- SCLR, the word `0x50000000`, sets `WP <- STR_CAP` and REWIND, the word `0x51000000`, sets `RP <- WP`, `REND <-
STR_CAP`; neither touches anything else (44_stream_and_container.md R133, R134). -/
def Obligations.SclrAndRewindSetPointers : Prop :=
  encode .sclr = 0x50000000 ∧ encode .rewind = 0x51000000 ∧ ∀ s : State, s.fault = none →
    exec .sclr s = .next { s with wp := s.strCap, cc := s.cc + 1 } ∧
      exec .rewind s = .next { s with rp := s.wp, rend := s.strCap, cc := s.cc + 1 }

/-- LST pushes the 8-byte length, little-endian read forward (44_stream_and_container.md R135). -/
def Obligations.LstPushesLength : Prop :=
  ∀ s : State, s.fault = none → 8 ≤ s.wp.toNat → s.wp.toNat ≤ s.strCap.toNat →
    ∃ t, exec .lst s = .next t ∧ t = { s with wp := s.wp - 8, str := t.str, cc := s.cc + 1 } ∧
      t.littleEndian (s.wp.toNat - 8) 8 = s.len.toNat ∧
        ∀ a, a < s.wp.toNat - 8 ∨ s.wp.toNat ≤ a → t.readStr a = s.readStr a

/-- LLD reads the 8-byte length, little-endian; above MSG_CAP it raises BadHeader with LEN unchanged
(44_stream_and_container.md R136). -/
def Obligations.LldLoadsLength : Prop :=
  ∀ s : State, s.fault = none → s.rp.toNat + 8 ≤ s.rend.toNat → s.rp.toNat + 8 ≤ s.strCap.toNat →
    (s.littleEndian s.rp.toNat 8 ≤ s.msgCap.toNat →
      exec .lld s = .next
        { s with len := BitVec.ofNat 64 (s.littleEndian s.rp.toNat 8), rp := s.rp + 8, cc := s.cc + 1 }) ∧
      (s.msgCap.toNat < s.littleEndian s.rp.toNat 8 →
        exec .lld s = .next { s with rp := s.rp + 8, fault := some .badHeader, fcmd := 0x53000000 })

/-! ### Frames: what a command leaves alone in every next state it answers, completed, faulted, refused or discarded -/

/-- FST, EFLUSH and LST change at most WP, STR, CC and the fault registers, and in STR at most the bytes below
the old WP: 512, 4 and 8 of them (40_frequency_model.md R97, 42_coder_state.md R112, 44_stream_and_container.md
R135). -/
def Obligations.SinkCommandFrame : Prop :=
  ∀ (s t : State) (i : Instr) (n : Nat), (i = .fst ∧ n = 512) ∨ (∃ j, i = .eflush j ∧ n = 4) ∨ (i = .lst ∧ n = 8) →
    exec i s = .next t →
      t = { s with wp := t.wp, str := t.str, cc := t.cc, fault := t.fault, fcmd := t.fcmd } ∧
        ∀ a, a < s.wp.toNat - n ∨ s.wp.toNat ≤ a → t.readStr a = s.readStr a

/-- EPUT changes at most `r[j]`, WP, STR, CC and the fault registers, and in STR at most the bytes it emits, just
below the old WP (42_coder_state.md R111); ENC at most `r[0..K)`, WP, STR, CC and the fault registers, and in STR only
bytes from the new WP up to the old one (43_interleaved_driver.md R120). -/
def Obligations.EncodeCommandFrame : Prop :=
  ∀ s t : State,
    (∀ (j : Nibble) (sym : Byte), exec (.eput j sym) s = .next t →
      t = { s with r := t.r, wp := t.wp, str := t.str, cc := t.cc, fault := t.fault, fcmd := t.fcmd } ∧
        (∀ m, m < 4 → m ≠ j.toNat → t.r.get m = s.r.get m) ∧
          ∀ a, a < s.wp.toNat -
              emitCount (2 ^ (31 - s.p.exponent) * (s.freq.get sym.toNat).toNat) (s.r.get j.toNat).toNat ∨
            s.wp.toNat ≤ a → t.readStr a = s.readStr a) ∧
      (exec .enc s = .next t →
        t = { s with r := t.r, wp := t.wp, str := t.str, cc := t.cc, fault := t.fault, fcmd := t.fcmd } ∧
          (∀ m, s.k.count ≤ m → m < 4 → t.r.get m = s.r.get m) ∧ t.wp.toNat ≤ s.wp.toNat ∧
            ∀ a, a < t.wp.toNat ∨ s.wp.toNat ≤ a → t.readStr a = s.readStr a)

/-- DINIT and DRENORM change at most `r[j]`, RP, CC and the fault registers; LLD at most LEN, RP, CC and the fault
registers; DEC at most `r[0..K)`, RP, SYMO, `MSG[0..LEN)`, CC and the fault registers (42_coder_state.md R113, R115,
44_stream_and_container.md R136, 43_interleaved_driver.md R121, 20_memory.md R51). -/
def Obligations.SourceCommandFrame : Prop :=
  ∀ s t : State,
    (∀ (i : Instr) (j : Nibble), i = .dinit j ∨ i = .drenorm j → exec i s = .next t →
      t = { s with r := t.r, rp := t.rp, cc := t.cc, fault := t.fault, fcmd := t.fcmd } ∧
        ∀ m, m < 4 → m ≠ j.toNat → t.r.get m = s.r.get m) ∧
      (exec .lld s = .next t → t = { s with len := t.len, rp := t.rp, cc := t.cc, fault := t.fault, fcmd := t.fcmd }) ∧
        (exec .dec s = .next t →
          t = { s with
                r := t.r
                rp := t.rp
                symo := t.symo
                msg := t.msg
                cc := t.cc
                fault := t.fault
                fcmd := t.fcmd } ∧
            (∀ m, s.k.count ≤ m → m < 4 → t.r.get m = s.r.get m) ∧
              ∀ i, s.len.toNat ≤ i → t.readMsg i = s.readMsg i)

/-- FCNT and FSCAN change at most `freq[]`; FNORM `freq[]`, `cum[]`, MS and TV; FLD these and RP; ABLD the five alias
arrays and TV; all of them CC and the fault registers (40_frequency_model.md R91, R93, R95, R96, 41_alias_table.md
R100). -/
def Obligations.ModelCommandFrame : Prop :=
  ∀ s t : State,
    (∀ i : Instr, (∃ b, i = .fcnt b) ∨ i = .fscan → exec i s = .next t →
      t = { s with freq := t.freq, cc := t.cc, fault := t.fault, fcmd := t.fcmd }) ∧
      (exec .fnorm s = .next t →
        t = { s with
              freq := t.freq
              cum := t.cum
              ms := t.ms
              tv := t.tv
              cc := t.cc
              fault := t.fault
              fcmd := t.fcmd }) ∧
        (exec .fld s = .next t →
          t = { s with
                freq := t.freq
                cum := t.cum
                ms := t.ms
                tv := t.tv
                rp := t.rp
                cc := t.cc
                fault := t.fault
                fcmd := t.fcmd }) ∧
          (exec .abld s = .next t →
            t = { s with
                  tv := t.tv
                  divider := t.divider
                  symId := t.symId
                  slotFreqs := t.slotFreqs
                  slotAdjust := t.slotAdjust
                  aliasRemap := t.aliasRemap
                  cc := t.cc
                  fault := t.fault
                  fcmd := t.fcmd })
end

