-- ==== Sys2Proof/Laws/Mem.lean ====
section
/-! SUPPORT. The laws of a byte buffer: read after write, every other address left alone, the canonical form kept,
and equal contents are equal lists. -/

namespace Sys2Proof.Machine

theorem Mem.lookup_store (cells : List Host.Cell) (x y : Nat) (v : Byte) :
    Mem.lookup (Mem.store cells x v) y = if y = x then some v else Mem.lookup cells y := by
  induction cells with
  | nil => simp [Mem.store, Mem.lookup]
  | cons c cells ih =>
    obtain ⟨a, b⟩ := c
    simp only [Mem.store]
    split
    · simp only [Mem.lookup]
      repeat' split
      all_goals first | rfl | omega
    · split
      · subst a
        simp only [Mem.lookup]
        repeat' split
        all_goals rfl
      · simp only [Mem.lookup, ih]
        repeat' split
        all_goals first | rfl | omega

theorem Mem.risingFrom_mono {cap low low' : Nat} {cells : List Host.Cell} (h : Mem.risingFrom cap low cells = true)
    (hle : low' ≤ low) : Mem.risingFrom cap low' cells = true := by
  cases cells with
  | nil => rfl
  | cons c cells =>
    simp only [Mem.risingFrom, Bool.and_eq_true, decide_eq_true_eq] at h ⊢
    exact ⟨⟨by omega, h.1.2⟩, h.2⟩

theorem Mem.risingFrom_store {cap low x : Nat} {cells : List Host.Cell} (v : Byte)
    (h : Mem.risingFrom cap low cells = true) (hlow : low ≤ x) (hcap : x < cap) :
    Mem.risingFrom cap low (Mem.store cells x v) = true := by
  induction cells generalizing low with
  | nil => simp [Mem.store, Mem.risingFrom, hlow, hcap]
  | cons c cells ih =>
    obtain ⟨a, b⟩ := c
    simp only [Mem.risingFrom, Bool.and_eq_true, decide_eq_true_eq] at h
    simp only [Mem.store]
    split
    · simp only [Mem.risingFrom, Bool.and_eq_true, decide_eq_true_eq]
      exact ⟨⟨hlow, hcap⟩, ⟨by omega, h.1.2⟩, h.2⟩
    · split
      · subst a
        simp only [Mem.risingFrom, Bool.and_eq_true, decide_eq_true_eq]
        exact ⟨⟨hlow, hcap⟩, h.2⟩
      · simp only [Mem.risingFrom, Bool.and_eq_true, decide_eq_true_eq]
        exact ⟨h.1, ih h.2 (by omega)⟩

/-- The one memory operation that writes keeps the canonical form. -/
theorem Memory.wf_store {cap x : Nat} {cells : List Host.Cell} (v : Byte) (h : Memory.wf cap cells = true)
    (hcap : x < cap) : Memory.wf cap (Mem.store cells x v) = true :=
  Mem.risingFrom_store v h (Nat.zero_le x) hcap

theorem Memory.wf_nil (cap : Nat) : Memory.wf cap [] = true := rfl

theorem Mem.lookup_below {cap low x : Nat} {cells : List Host.Cell} (h : Mem.risingFrom cap low cells = true)
    (hx : x < low) : Mem.lookup cells x = none := by
  cases cells with
  | nil => rfl
  | cons c cells =>
    obtain ⟨a, b⟩ := c
    simp only [Mem.risingFrom, Bool.and_eq_true, decide_eq_true_eq] at h
    simp only [Mem.lookup]
    rw [if_neg (by omega), if_pos (by omega)]

/-- Two canonical lists that hold the same byte at every address are the same list. -/
theorem Mem.ext_lookup {cap low : Nat} {m m' : List Host.Cell} (h : Mem.risingFrom cap low m = true)
    (h' : Mem.risingFrom cap low m' = true) (heq : ∀ x, Mem.lookup m x = Mem.lookup m' x) : m = m' := by
  induction m generalizing m' low with
  | nil =>
    cases m' with
    | nil => rfl
    | cons c m' => simpa [Mem.lookup] using heq c.1
  | cons c m ih =>
    obtain ⟨a, b⟩ := c
    cases m' with
    | nil => simpa [Mem.lookup] using heq a
    | cons c' m' =>
      obtain ⟨a', b'⟩ := c'
      simp only [Mem.risingFrom, Bool.and_eq_true, decide_eq_true_eq] at h h'
      have ha : a = a' := by
        have h1 := heq a
        have h2 := heq a'
        simp only [Mem.lookup, if_true] at h1 h2
        by_contra hne
        rcases Nat.lt_or_gt_of_ne hne with hlt | hlt
        · rw [if_neg (by omega), if_pos (by omega)] at h1
          simp at h1
        · rw [if_neg (by omega), if_pos (by omega)] at h2
          simp at h2
      subst a'
      have hb : b = b' := by simpa [Mem.lookup] using heq a
      subst b'
      congr 1
      refine ih h.2 h'.2 fun x => ?_
      rcases Nat.lt_or_ge x (a + 1) with hx | hx
      · rw [Mem.lookup_below h.2 hx, Mem.lookup_below h'.2 hx]
      · have := heq x
        simpa [Mem.lookup, show x ≠ a by omega, show ¬ x < a by omega] using this

end Sys2Proof.Machine
end

