-- ==== Sys2Proof/Laws/State.lean ====
section
/-! SUPPORT. For each named update of the state, the value of every field after it (all by rfl, all simp lemmas), so
that no later proof unfolds a record update. -/

namespace Sys2Proof.Machine

variable (s : State)

@[simp] theorem State.withInputs_msgCap (x : List Input) : (s.withInputs x).msgCap = s.msgCap := rfl
@[simp] theorem State.withInputs_strCap (x : List Input) : (s.withInputs x).strCap = s.strCap := rfl
@[simp] theorem State.withInputs_r (x : List Input) : (s.withInputs x).r = s.r := rfl
@[simp] theorem State.withInputs_cc (x : List Input) : (s.withInputs x).cc = s.cc := rfl
@[simp] theorem State.withInputs_k (x : List Input) : (s.withInputs x).k = s.k := rfl
@[simp] theorem State.withInputs_p (x : List Input) : (s.withInputs x).p = s.p := rfl
@[simp] theorem State.withInputs_ms (x : List Input) : (s.withInputs x).ms = s.ms := rfl
@[simp] theorem State.withInputs_tv (x : List Input) : (s.withInputs x).tv = s.tv := rfl
@[simp] theorem State.withInputs_fault (x : List Input) : (s.withInputs x).fault = s.fault := rfl
@[simp] theorem State.withInputs_fcmd (x : List Input) : (s.withInputs x).fcmd = s.fcmd := rfl
@[simp] theorem State.withInputs_symo (x : List Input) : (s.withInputs x).symo = s.symo := rfl
@[simp] theorem State.withInputs_len (x : List Input) : (s.withInputs x).len = s.len := rfl
@[simp] theorem State.withInputs_wp (x : List Input) : (s.withInputs x).wp = s.wp := rfl
@[simp] theorem State.withInputs_rp (x : List Input) : (s.withInputs x).rp = s.rp := rfl
@[simp] theorem State.withInputs_rend (x : List Input) : (s.withInputs x).rend = s.rend := rfl
@[simp] theorem State.withInputs_freq (x : List Input) : (s.withInputs x).freq = s.freq := rfl
@[simp] theorem State.withInputs_cum (x : List Input) : (s.withInputs x).cum = s.cum := rfl
@[simp] theorem State.withInputs_divider (x : List Input) : (s.withInputs x).divider = s.divider := rfl
@[simp] theorem State.withInputs_symId (x : List Input) : (s.withInputs x).symId = s.symId := rfl
@[simp] theorem State.withInputs_slotFreqs (x : List Input) : (s.withInputs x).slotFreqs = s.slotFreqs := rfl
@[simp] theorem State.withInputs_slotAdjust (x : List Input) : (s.withInputs x).slotAdjust = s.slotAdjust := rfl
@[simp] theorem State.withInputs_aliasRemap (x : List Input) : (s.withInputs x).aliasRemap = s.aliasRemap := rfl
@[simp] theorem State.withInputs_msg (x : List Input) : (s.withInputs x).msg = s.msg := rfl
@[simp] theorem State.withInputs_str (x : List Input) : (s.withInputs x).str = s.str := rfl
@[simp] theorem State.withInputs_inputs (x : List Input) : (s.withInputs x).inputs = x := rfl
@[simp] theorem State.withInputs_bufEpoch (x : List Input) : (s.withInputs x).bufEpoch = s.bufEpoch := rfl
@[simp] theorem State.withInputs_aliasEpoch (x : List Input) : (s.withInputs x).aliasEpoch = s.aliasEpoch := rfl

@[simp] theorem State.setR_msgCap (j : Nat) (v : Word) : (s.setR j v).msgCap = s.msgCap := rfl
@[simp] theorem State.setR_strCap (j : Nat) (v : Word) : (s.setR j v).strCap = s.strCap := rfl
@[simp] theorem State.setR_r (j : Nat) (v : Word) : (s.setR j v).r = s.r.set j v := rfl
@[simp] theorem State.setR_cc (j : Nat) (v : Word) : (s.setR j v).cc = s.cc := rfl
@[simp] theorem State.setR_k (j : Nat) (v : Word) : (s.setR j v).k = s.k := rfl
@[simp] theorem State.setR_p (j : Nat) (v : Word) : (s.setR j v).p = s.p := rfl
@[simp] theorem State.setR_ms (j : Nat) (v : Word) : (s.setR j v).ms = s.ms := rfl
@[simp] theorem State.setR_tv (j : Nat) (v : Word) : (s.setR j v).tv = s.tv := rfl
@[simp] theorem State.setR_fault (j : Nat) (v : Word) : (s.setR j v).fault = s.fault := rfl
@[simp] theorem State.setR_fcmd (j : Nat) (v : Word) : (s.setR j v).fcmd = s.fcmd := rfl
@[simp] theorem State.setR_symo (j : Nat) (v : Word) : (s.setR j v).symo = s.symo := rfl
@[simp] theorem State.setR_len (j : Nat) (v : Word) : (s.setR j v).len = s.len := rfl
@[simp] theorem State.setR_wp (j : Nat) (v : Word) : (s.setR j v).wp = s.wp := rfl
@[simp] theorem State.setR_rp (j : Nat) (v : Word) : (s.setR j v).rp = s.rp := rfl
@[simp] theorem State.setR_rend (j : Nat) (v : Word) : (s.setR j v).rend = s.rend := rfl
@[simp] theorem State.setR_freq (j : Nat) (v : Word) : (s.setR j v).freq = s.freq := rfl
@[simp] theorem State.setR_cum (j : Nat) (v : Word) : (s.setR j v).cum = s.cum := rfl
@[simp] theorem State.setR_divider (j : Nat) (v : Word) : (s.setR j v).divider = s.divider := rfl
@[simp] theorem State.setR_symId (j : Nat) (v : Word) : (s.setR j v).symId = s.symId := rfl
@[simp] theorem State.setR_slotFreqs (j : Nat) (v : Word) : (s.setR j v).slotFreqs = s.slotFreqs := rfl
@[simp] theorem State.setR_slotAdjust (j : Nat) (v : Word) : (s.setR j v).slotAdjust = s.slotAdjust := rfl
@[simp] theorem State.setR_aliasRemap (j : Nat) (v : Word) : (s.setR j v).aliasRemap = s.aliasRemap := rfl
@[simp] theorem State.setR_msg (j : Nat) (v : Word) : (s.setR j v).msg = s.msg := rfl
@[simp] theorem State.setR_str (j : Nat) (v : Word) : (s.setR j v).str = s.str := rfl
@[simp] theorem State.setR_inputs (j : Nat) (v : Word) : (s.setR j v).inputs = s.inputs := rfl
@[simp] theorem State.setR_bufEpoch (j : Nat) (v : Word) : (s.setR j v).bufEpoch = s.bufEpoch := rfl
@[simp] theorem State.setR_aliasEpoch (j : Nat) (v : Word) : (s.setR j v).aliasEpoch = s.aliasEpoch := rfl

@[simp] theorem State.setCfg_msgCap (k : Interleave) (p : Scale) : (s.setCfg k p).msgCap = s.msgCap := rfl
@[simp] theorem State.setCfg_strCap (k : Interleave) (p : Scale) : (s.setCfg k p).strCap = s.strCap := rfl
@[simp] theorem State.setCfg_r (k : Interleave) (p : Scale) : (s.setCfg k p).r = s.r := rfl
@[simp] theorem State.setCfg_cc (k : Interleave) (p : Scale) : (s.setCfg k p).cc = s.cc := rfl
@[simp] theorem State.setCfg_k (k : Interleave) (p : Scale) : (s.setCfg k p).k = k := rfl
@[simp] theorem State.setCfg_p (k : Interleave) (p : Scale) : (s.setCfg k p).p = p := rfl
@[simp] theorem State.setCfg_ms (k : Interleave) (p : Scale) : (s.setCfg k p).ms = s.ms := rfl
@[simp] theorem State.setCfg_tv (k : Interleave) (p : Scale) : (s.setCfg k p).tv = s.tv := rfl
@[simp] theorem State.setCfg_fault (k : Interleave) (p : Scale) : (s.setCfg k p).fault = s.fault := rfl
@[simp] theorem State.setCfg_fcmd (k : Interleave) (p : Scale) : (s.setCfg k p).fcmd = s.fcmd := rfl
@[simp] theorem State.setCfg_symo (k : Interleave) (p : Scale) : (s.setCfg k p).symo = s.symo := rfl
@[simp] theorem State.setCfg_len (k : Interleave) (p : Scale) : (s.setCfg k p).len = s.len := rfl
@[simp] theorem State.setCfg_wp (k : Interleave) (p : Scale) : (s.setCfg k p).wp = s.wp := rfl
@[simp] theorem State.setCfg_rp (k : Interleave) (p : Scale) : (s.setCfg k p).rp = s.rp := rfl
@[simp] theorem State.setCfg_rend (k : Interleave) (p : Scale) : (s.setCfg k p).rend = s.rend := rfl
@[simp] theorem State.setCfg_freq (k : Interleave) (p : Scale) : (s.setCfg k p).freq = s.freq := rfl
@[simp] theorem State.setCfg_cum (k : Interleave) (p : Scale) : (s.setCfg k p).cum = s.cum := rfl
@[simp] theorem State.setCfg_divider (k : Interleave) (p : Scale) : (s.setCfg k p).divider = s.divider := rfl
@[simp] theorem State.setCfg_symId (k : Interleave) (p : Scale) : (s.setCfg k p).symId = s.symId := rfl
@[simp] theorem State.setCfg_slotFreqs (k : Interleave) (p : Scale) : (s.setCfg k p).slotFreqs = s.slotFreqs := rfl
@[simp] theorem State.setCfg_slotAdjust (k : Interleave) (p : Scale) : (s.setCfg k p).slotAdjust = s.slotAdjust := rfl
@[simp] theorem State.setCfg_aliasRemap (k : Interleave) (p : Scale) : (s.setCfg k p).aliasRemap = s.aliasRemap := rfl
@[simp] theorem State.setCfg_msg (k : Interleave) (p : Scale) : (s.setCfg k p).msg = s.msg := rfl
@[simp] theorem State.setCfg_str (k : Interleave) (p : Scale) : (s.setCfg k p).str = s.str := rfl
@[simp] theorem State.setCfg_inputs (k : Interleave) (p : Scale) : (s.setCfg k p).inputs = s.inputs := rfl
@[simp] theorem State.setCfg_bufEpoch (k : Interleave) (p : Scale) : (s.setCfg k p).bufEpoch = s.bufEpoch := rfl
@[simp] theorem State.setCfg_aliasEpoch (k : Interleave) (p : Scale) : (s.setCfg k p).aliasEpoch = s.aliasEpoch := rfl

@[simp] theorem State.setFlags_msgCap (ms : ModelStatus) (tv : Bool) : (s.setFlags ms tv).msgCap = s.msgCap := rfl
@[simp] theorem State.setFlags_strCap (ms : ModelStatus) (tv : Bool) : (s.setFlags ms tv).strCap = s.strCap := rfl
@[simp] theorem State.setFlags_r (ms : ModelStatus) (tv : Bool) : (s.setFlags ms tv).r = s.r := rfl
@[simp] theorem State.setFlags_cc (ms : ModelStatus) (tv : Bool) : (s.setFlags ms tv).cc = s.cc := rfl
@[simp] theorem State.setFlags_k (ms : ModelStatus) (tv : Bool) : (s.setFlags ms tv).k = s.k := rfl
@[simp] theorem State.setFlags_p (ms : ModelStatus) (tv : Bool) : (s.setFlags ms tv).p = s.p := rfl
@[simp] theorem State.setFlags_ms (ms : ModelStatus) (tv : Bool) : (s.setFlags ms tv).ms = ms := rfl
@[simp] theorem State.setFlags_tv (ms : ModelStatus) (tv : Bool) : (s.setFlags ms tv).tv = tv := rfl
@[simp] theorem State.setFlags_fault (ms : ModelStatus) (tv : Bool) : (s.setFlags ms tv).fault = s.fault := rfl
@[simp] theorem State.setFlags_fcmd (ms : ModelStatus) (tv : Bool) : (s.setFlags ms tv).fcmd = s.fcmd := rfl
@[simp] theorem State.setFlags_symo (ms : ModelStatus) (tv : Bool) : (s.setFlags ms tv).symo = s.symo := rfl
@[simp] theorem State.setFlags_len (ms : ModelStatus) (tv : Bool) : (s.setFlags ms tv).len = s.len := rfl
@[simp] theorem State.setFlags_wp (ms : ModelStatus) (tv : Bool) : (s.setFlags ms tv).wp = s.wp := rfl
@[simp] theorem State.setFlags_rp (ms : ModelStatus) (tv : Bool) : (s.setFlags ms tv).rp = s.rp := rfl
@[simp] theorem State.setFlags_rend (ms : ModelStatus) (tv : Bool) : (s.setFlags ms tv).rend = s.rend := rfl
@[simp] theorem State.setFlags_freq (ms : ModelStatus) (tv : Bool) : (s.setFlags ms tv).freq = s.freq := rfl
@[simp] theorem State.setFlags_cum (ms : ModelStatus) (tv : Bool) : (s.setFlags ms tv).cum = s.cum := rfl
@[simp] theorem State.setFlags_divider (ms : ModelStatus) (tv : Bool) : (s.setFlags ms tv).divider = s.divider := rfl
@[simp] theorem State.setFlags_symId (ms : ModelStatus) (tv : Bool) : (s.setFlags ms tv).symId = s.symId := rfl
@[simp] theorem State.setFlags_slotFreqs (ms : ModelStatus) (tv : Bool) : (s.setFlags ms tv).slotFreqs = s.slotFreqs := rfl
@[simp] theorem State.setFlags_slotAdjust (ms : ModelStatus) (tv : Bool) : (s.setFlags ms tv).slotAdjust = s.slotAdjust := rfl
@[simp] theorem State.setFlags_aliasRemap (ms : ModelStatus) (tv : Bool) : (s.setFlags ms tv).aliasRemap = s.aliasRemap := rfl
@[simp] theorem State.setFlags_msg (ms : ModelStatus) (tv : Bool) : (s.setFlags ms tv).msg = s.msg := rfl
@[simp] theorem State.setFlags_str (ms : ModelStatus) (tv : Bool) : (s.setFlags ms tv).str = s.str := rfl
@[simp] theorem State.setFlags_inputs (ms : ModelStatus) (tv : Bool) : (s.setFlags ms tv).inputs = s.inputs := rfl
@[simp] theorem State.setFlags_bufEpoch (ms : ModelStatus) (tv : Bool) : (s.setFlags ms tv).bufEpoch = s.bufEpoch := rfl
@[simp] theorem State.setFlags_aliasEpoch (ms : ModelStatus) (tv : Bool) : (s.setFlags ms tv).aliasEpoch = s.aliasEpoch := rfl

@[simp] theorem State.setSymo_msgCap (b : Byte) : (s.setSymo b).msgCap = s.msgCap := rfl
@[simp] theorem State.setSymo_strCap (b : Byte) : (s.setSymo b).strCap = s.strCap := rfl
@[simp] theorem State.setSymo_r (b : Byte) : (s.setSymo b).r = s.r := rfl
@[simp] theorem State.setSymo_cc (b : Byte) : (s.setSymo b).cc = s.cc := rfl
@[simp] theorem State.setSymo_k (b : Byte) : (s.setSymo b).k = s.k := rfl
@[simp] theorem State.setSymo_p (b : Byte) : (s.setSymo b).p = s.p := rfl
@[simp] theorem State.setSymo_ms (b : Byte) : (s.setSymo b).ms = s.ms := rfl
@[simp] theorem State.setSymo_tv (b : Byte) : (s.setSymo b).tv = s.tv := rfl
@[simp] theorem State.setSymo_fault (b : Byte) : (s.setSymo b).fault = s.fault := rfl
@[simp] theorem State.setSymo_fcmd (b : Byte) : (s.setSymo b).fcmd = s.fcmd := rfl
@[simp] theorem State.setSymo_symo (b : Byte) : (s.setSymo b).symo = b := rfl
@[simp] theorem State.setSymo_len (b : Byte) : (s.setSymo b).len = s.len := rfl
@[simp] theorem State.setSymo_wp (b : Byte) : (s.setSymo b).wp = s.wp := rfl
@[simp] theorem State.setSymo_rp (b : Byte) : (s.setSymo b).rp = s.rp := rfl
@[simp] theorem State.setSymo_rend (b : Byte) : (s.setSymo b).rend = s.rend := rfl
@[simp] theorem State.setSymo_freq (b : Byte) : (s.setSymo b).freq = s.freq := rfl
@[simp] theorem State.setSymo_cum (b : Byte) : (s.setSymo b).cum = s.cum := rfl
@[simp] theorem State.setSymo_divider (b : Byte) : (s.setSymo b).divider = s.divider := rfl
@[simp] theorem State.setSymo_symId (b : Byte) : (s.setSymo b).symId = s.symId := rfl
@[simp] theorem State.setSymo_slotFreqs (b : Byte) : (s.setSymo b).slotFreqs = s.slotFreqs := rfl
@[simp] theorem State.setSymo_slotAdjust (b : Byte) : (s.setSymo b).slotAdjust = s.slotAdjust := rfl
@[simp] theorem State.setSymo_aliasRemap (b : Byte) : (s.setSymo b).aliasRemap = s.aliasRemap := rfl
@[simp] theorem State.setSymo_msg (b : Byte) : (s.setSymo b).msg = s.msg := rfl
@[simp] theorem State.setSymo_str (b : Byte) : (s.setSymo b).str = s.str := rfl
@[simp] theorem State.setSymo_inputs (b : Byte) : (s.setSymo b).inputs = s.inputs := rfl
@[simp] theorem State.setSymo_bufEpoch (b : Byte) : (s.setSymo b).bufEpoch = s.bufEpoch := rfl
@[simp] theorem State.setSymo_aliasEpoch (b : Byte) : (s.setSymo b).aliasEpoch = s.aliasEpoch := rfl

@[simp] theorem State.setLen_msgCap (v : DWord) : (s.setLen v).msgCap = s.msgCap := rfl
@[simp] theorem State.setLen_strCap (v : DWord) : (s.setLen v).strCap = s.strCap := rfl
@[simp] theorem State.setLen_r (v : DWord) : (s.setLen v).r = s.r := rfl
@[simp] theorem State.setLen_cc (v : DWord) : (s.setLen v).cc = s.cc := rfl
@[simp] theorem State.setLen_k (v : DWord) : (s.setLen v).k = s.k := rfl
@[simp] theorem State.setLen_p (v : DWord) : (s.setLen v).p = s.p := rfl
@[simp] theorem State.setLen_ms (v : DWord) : (s.setLen v).ms = s.ms := rfl
@[simp] theorem State.setLen_tv (v : DWord) : (s.setLen v).tv = s.tv := rfl
@[simp] theorem State.setLen_fault (v : DWord) : (s.setLen v).fault = s.fault := rfl
@[simp] theorem State.setLen_fcmd (v : DWord) : (s.setLen v).fcmd = s.fcmd := rfl
@[simp] theorem State.setLen_symo (v : DWord) : (s.setLen v).symo = s.symo := rfl
@[simp] theorem State.setLen_len (v : DWord) : (s.setLen v).len = v := rfl
@[simp] theorem State.setLen_wp (v : DWord) : (s.setLen v).wp = s.wp := rfl
@[simp] theorem State.setLen_rp (v : DWord) : (s.setLen v).rp = s.rp := rfl
@[simp] theorem State.setLen_rend (v : DWord) : (s.setLen v).rend = s.rend := rfl
@[simp] theorem State.setLen_freq (v : DWord) : (s.setLen v).freq = s.freq := rfl
@[simp] theorem State.setLen_cum (v : DWord) : (s.setLen v).cum = s.cum := rfl
@[simp] theorem State.setLen_divider (v : DWord) : (s.setLen v).divider = s.divider := rfl
@[simp] theorem State.setLen_symId (v : DWord) : (s.setLen v).symId = s.symId := rfl
@[simp] theorem State.setLen_slotFreqs (v : DWord) : (s.setLen v).slotFreqs = s.slotFreqs := rfl
@[simp] theorem State.setLen_slotAdjust (v : DWord) : (s.setLen v).slotAdjust = s.slotAdjust := rfl
@[simp] theorem State.setLen_aliasRemap (v : DWord) : (s.setLen v).aliasRemap = s.aliasRemap := rfl
@[simp] theorem State.setLen_msg (v : DWord) : (s.setLen v).msg = s.msg := rfl
@[simp] theorem State.setLen_str (v : DWord) : (s.setLen v).str = s.str := rfl
@[simp] theorem State.setLen_inputs (v : DWord) : (s.setLen v).inputs = s.inputs := rfl
@[simp] theorem State.setLen_bufEpoch (v : DWord) : (s.setLen v).bufEpoch = s.bufEpoch := rfl
@[simp] theorem State.setLen_aliasEpoch (v : DWord) : (s.setLen v).aliasEpoch = s.aliasEpoch := rfl

@[simp] theorem State.setWp_msgCap (v : DWord) : (s.setWp v).msgCap = s.msgCap := rfl
@[simp] theorem State.setWp_strCap (v : DWord) : (s.setWp v).strCap = s.strCap := rfl
@[simp] theorem State.setWp_r (v : DWord) : (s.setWp v).r = s.r := rfl
@[simp] theorem State.setWp_cc (v : DWord) : (s.setWp v).cc = s.cc := rfl
@[simp] theorem State.setWp_k (v : DWord) : (s.setWp v).k = s.k := rfl
@[simp] theorem State.setWp_p (v : DWord) : (s.setWp v).p = s.p := rfl
@[simp] theorem State.setWp_ms (v : DWord) : (s.setWp v).ms = s.ms := rfl
@[simp] theorem State.setWp_tv (v : DWord) : (s.setWp v).tv = s.tv := rfl
@[simp] theorem State.setWp_fault (v : DWord) : (s.setWp v).fault = s.fault := rfl
@[simp] theorem State.setWp_fcmd (v : DWord) : (s.setWp v).fcmd = s.fcmd := rfl
@[simp] theorem State.setWp_symo (v : DWord) : (s.setWp v).symo = s.symo := rfl
@[simp] theorem State.setWp_len (v : DWord) : (s.setWp v).len = s.len := rfl
@[simp] theorem State.setWp_wp (v : DWord) : (s.setWp v).wp = v := rfl
@[simp] theorem State.setWp_rp (v : DWord) : (s.setWp v).rp = s.rp := rfl
@[simp] theorem State.setWp_rend (v : DWord) : (s.setWp v).rend = s.rend := rfl
@[simp] theorem State.setWp_freq (v : DWord) : (s.setWp v).freq = s.freq := rfl
@[simp] theorem State.setWp_cum (v : DWord) : (s.setWp v).cum = s.cum := rfl
@[simp] theorem State.setWp_divider (v : DWord) : (s.setWp v).divider = s.divider := rfl
@[simp] theorem State.setWp_symId (v : DWord) : (s.setWp v).symId = s.symId := rfl
@[simp] theorem State.setWp_slotFreqs (v : DWord) : (s.setWp v).slotFreqs = s.slotFreqs := rfl
@[simp] theorem State.setWp_slotAdjust (v : DWord) : (s.setWp v).slotAdjust = s.slotAdjust := rfl
@[simp] theorem State.setWp_aliasRemap (v : DWord) : (s.setWp v).aliasRemap = s.aliasRemap := rfl
@[simp] theorem State.setWp_msg (v : DWord) : (s.setWp v).msg = s.msg := rfl
@[simp] theorem State.setWp_str (v : DWord) : (s.setWp v).str = s.str := rfl
@[simp] theorem State.setWp_inputs (v : DWord) : (s.setWp v).inputs = s.inputs := rfl
@[simp] theorem State.setWp_bufEpoch (v : DWord) : (s.setWp v).bufEpoch = s.bufEpoch := rfl
@[simp] theorem State.setWp_aliasEpoch (v : DWord) : (s.setWp v).aliasEpoch = s.aliasEpoch := rfl

@[simp] theorem State.setRp_msgCap (v : DWord) : (s.setRp v).msgCap = s.msgCap := rfl
@[simp] theorem State.setRp_strCap (v : DWord) : (s.setRp v).strCap = s.strCap := rfl
@[simp] theorem State.setRp_r (v : DWord) : (s.setRp v).r = s.r := rfl
@[simp] theorem State.setRp_cc (v : DWord) : (s.setRp v).cc = s.cc := rfl
@[simp] theorem State.setRp_k (v : DWord) : (s.setRp v).k = s.k := rfl
@[simp] theorem State.setRp_p (v : DWord) : (s.setRp v).p = s.p := rfl
@[simp] theorem State.setRp_ms (v : DWord) : (s.setRp v).ms = s.ms := rfl
@[simp] theorem State.setRp_tv (v : DWord) : (s.setRp v).tv = s.tv := rfl
@[simp] theorem State.setRp_fault (v : DWord) : (s.setRp v).fault = s.fault := rfl
@[simp] theorem State.setRp_fcmd (v : DWord) : (s.setRp v).fcmd = s.fcmd := rfl
@[simp] theorem State.setRp_symo (v : DWord) : (s.setRp v).symo = s.symo := rfl
@[simp] theorem State.setRp_len (v : DWord) : (s.setRp v).len = s.len := rfl
@[simp] theorem State.setRp_wp (v : DWord) : (s.setRp v).wp = s.wp := rfl
@[simp] theorem State.setRp_rp (v : DWord) : (s.setRp v).rp = v := rfl
@[simp] theorem State.setRp_rend (v : DWord) : (s.setRp v).rend = s.rend := rfl
@[simp] theorem State.setRp_freq (v : DWord) : (s.setRp v).freq = s.freq := rfl
@[simp] theorem State.setRp_cum (v : DWord) : (s.setRp v).cum = s.cum := rfl
@[simp] theorem State.setRp_divider (v : DWord) : (s.setRp v).divider = s.divider := rfl
@[simp] theorem State.setRp_symId (v : DWord) : (s.setRp v).symId = s.symId := rfl
@[simp] theorem State.setRp_slotFreqs (v : DWord) : (s.setRp v).slotFreqs = s.slotFreqs := rfl
@[simp] theorem State.setRp_slotAdjust (v : DWord) : (s.setRp v).slotAdjust = s.slotAdjust := rfl
@[simp] theorem State.setRp_aliasRemap (v : DWord) : (s.setRp v).aliasRemap = s.aliasRemap := rfl
@[simp] theorem State.setRp_msg (v : DWord) : (s.setRp v).msg = s.msg := rfl
@[simp] theorem State.setRp_str (v : DWord) : (s.setRp v).str = s.str := rfl
@[simp] theorem State.setRp_inputs (v : DWord) : (s.setRp v).inputs = s.inputs := rfl
@[simp] theorem State.setRp_bufEpoch (v : DWord) : (s.setRp v).bufEpoch = s.bufEpoch := rfl
@[simp] theorem State.setRp_aliasEpoch (v : DWord) : (s.setRp v).aliasEpoch = s.aliasEpoch := rfl

@[simp] theorem State.setRend_msgCap (v : DWord) : (s.setRend v).msgCap = s.msgCap := rfl
@[simp] theorem State.setRend_strCap (v : DWord) : (s.setRend v).strCap = s.strCap := rfl
@[simp] theorem State.setRend_r (v : DWord) : (s.setRend v).r = s.r := rfl
@[simp] theorem State.setRend_cc (v : DWord) : (s.setRend v).cc = s.cc := rfl
@[simp] theorem State.setRend_k (v : DWord) : (s.setRend v).k = s.k := rfl
@[simp] theorem State.setRend_p (v : DWord) : (s.setRend v).p = s.p := rfl
@[simp] theorem State.setRend_ms (v : DWord) : (s.setRend v).ms = s.ms := rfl
@[simp] theorem State.setRend_tv (v : DWord) : (s.setRend v).tv = s.tv := rfl
@[simp] theorem State.setRend_fault (v : DWord) : (s.setRend v).fault = s.fault := rfl
@[simp] theorem State.setRend_fcmd (v : DWord) : (s.setRend v).fcmd = s.fcmd := rfl
@[simp] theorem State.setRend_symo (v : DWord) : (s.setRend v).symo = s.symo := rfl
@[simp] theorem State.setRend_len (v : DWord) : (s.setRend v).len = s.len := rfl
@[simp] theorem State.setRend_wp (v : DWord) : (s.setRend v).wp = s.wp := rfl
@[simp] theorem State.setRend_rp (v : DWord) : (s.setRend v).rp = s.rp := rfl
@[simp] theorem State.setRend_rend (v : DWord) : (s.setRend v).rend = v := rfl
@[simp] theorem State.setRend_freq (v : DWord) : (s.setRend v).freq = s.freq := rfl
@[simp] theorem State.setRend_cum (v : DWord) : (s.setRend v).cum = s.cum := rfl
@[simp] theorem State.setRend_divider (v : DWord) : (s.setRend v).divider = s.divider := rfl
@[simp] theorem State.setRend_symId (v : DWord) : (s.setRend v).symId = s.symId := rfl
@[simp] theorem State.setRend_slotFreqs (v : DWord) : (s.setRend v).slotFreqs = s.slotFreqs := rfl
@[simp] theorem State.setRend_slotAdjust (v : DWord) : (s.setRend v).slotAdjust = s.slotAdjust := rfl
@[simp] theorem State.setRend_aliasRemap (v : DWord) : (s.setRend v).aliasRemap = s.aliasRemap := rfl
@[simp] theorem State.setRend_msg (v : DWord) : (s.setRend v).msg = s.msg := rfl
@[simp] theorem State.setRend_str (v : DWord) : (s.setRend v).str = s.str := rfl
@[simp] theorem State.setRend_inputs (v : DWord) : (s.setRend v).inputs = s.inputs := rfl
@[simp] theorem State.setRend_bufEpoch (v : DWord) : (s.setRend v).bufEpoch = s.bufEpoch := rfl
@[simp] theorem State.setRend_aliasEpoch (v : DWord) : (s.setRend v).aliasEpoch = s.aliasEpoch := rfl

@[simp] theorem State.setFreq_msgCap (t : Table Word 8) : (s.setFreq t).msgCap = s.msgCap := rfl
@[simp] theorem State.setFreq_strCap (t : Table Word 8) : (s.setFreq t).strCap = s.strCap := rfl
@[simp] theorem State.setFreq_r (t : Table Word 8) : (s.setFreq t).r = s.r := rfl
@[simp] theorem State.setFreq_cc (t : Table Word 8) : (s.setFreq t).cc = s.cc := rfl
@[simp] theorem State.setFreq_k (t : Table Word 8) : (s.setFreq t).k = s.k := rfl
@[simp] theorem State.setFreq_p (t : Table Word 8) : (s.setFreq t).p = s.p := rfl
@[simp] theorem State.setFreq_ms (t : Table Word 8) : (s.setFreq t).ms = s.ms := rfl
@[simp] theorem State.setFreq_tv (t : Table Word 8) : (s.setFreq t).tv = s.tv := rfl
@[simp] theorem State.setFreq_fault (t : Table Word 8) : (s.setFreq t).fault = s.fault := rfl
@[simp] theorem State.setFreq_fcmd (t : Table Word 8) : (s.setFreq t).fcmd = s.fcmd := rfl
@[simp] theorem State.setFreq_symo (t : Table Word 8) : (s.setFreq t).symo = s.symo := rfl
@[simp] theorem State.setFreq_len (t : Table Word 8) : (s.setFreq t).len = s.len := rfl
@[simp] theorem State.setFreq_wp (t : Table Word 8) : (s.setFreq t).wp = s.wp := rfl
@[simp] theorem State.setFreq_rp (t : Table Word 8) : (s.setFreq t).rp = s.rp := rfl
@[simp] theorem State.setFreq_rend (t : Table Word 8) : (s.setFreq t).rend = s.rend := rfl
@[simp] theorem State.setFreq_freq (t : Table Word 8) : (s.setFreq t).freq = t := rfl
@[simp] theorem State.setFreq_cum (t : Table Word 8) : (s.setFreq t).cum = s.cum := rfl
@[simp] theorem State.setFreq_divider (t : Table Word 8) : (s.setFreq t).divider = s.divider := rfl
@[simp] theorem State.setFreq_symId (t : Table Word 8) : (s.setFreq t).symId = s.symId := rfl
@[simp] theorem State.setFreq_slotFreqs (t : Table Word 8) : (s.setFreq t).slotFreqs = s.slotFreqs := rfl
@[simp] theorem State.setFreq_slotAdjust (t : Table Word 8) : (s.setFreq t).slotAdjust = s.slotAdjust := rfl
@[simp] theorem State.setFreq_aliasRemap (t : Table Word 8) : (s.setFreq t).aliasRemap = s.aliasRemap := rfl
@[simp] theorem State.setFreq_msg (t : Table Word 8) : (s.setFreq t).msg = s.msg := rfl
@[simp] theorem State.setFreq_str (t : Table Word 8) : (s.setFreq t).str = s.str := rfl
@[simp] theorem State.setFreq_inputs (t : Table Word 8) : (s.setFreq t).inputs = s.inputs := rfl
@[simp] theorem State.setFreq_bufEpoch (t : Table Word 8) : (s.setFreq t).bufEpoch = s.bufEpoch := rfl
@[simp] theorem State.setFreq_aliasEpoch (t : Table Word 8) : (s.setFreq t).aliasEpoch = s.aliasEpoch := rfl

@[simp] theorem State.setCum_msgCap (c : CumTable) : (s.setCum c).msgCap = s.msgCap := rfl
@[simp] theorem State.setCum_strCap (c : CumTable) : (s.setCum c).strCap = s.strCap := rfl
@[simp] theorem State.setCum_r (c : CumTable) : (s.setCum c).r = s.r := rfl
@[simp] theorem State.setCum_cc (c : CumTable) : (s.setCum c).cc = s.cc := rfl
@[simp] theorem State.setCum_k (c : CumTable) : (s.setCum c).k = s.k := rfl
@[simp] theorem State.setCum_p (c : CumTable) : (s.setCum c).p = s.p := rfl
@[simp] theorem State.setCum_ms (c : CumTable) : (s.setCum c).ms = s.ms := rfl
@[simp] theorem State.setCum_tv (c : CumTable) : (s.setCum c).tv = s.tv := rfl
@[simp] theorem State.setCum_fault (c : CumTable) : (s.setCum c).fault = s.fault := rfl
@[simp] theorem State.setCum_fcmd (c : CumTable) : (s.setCum c).fcmd = s.fcmd := rfl
@[simp] theorem State.setCum_symo (c : CumTable) : (s.setCum c).symo = s.symo := rfl
@[simp] theorem State.setCum_len (c : CumTable) : (s.setCum c).len = s.len := rfl
@[simp] theorem State.setCum_wp (c : CumTable) : (s.setCum c).wp = s.wp := rfl
@[simp] theorem State.setCum_rp (c : CumTable) : (s.setCum c).rp = s.rp := rfl
@[simp] theorem State.setCum_rend (c : CumTable) : (s.setCum c).rend = s.rend := rfl
@[simp] theorem State.setCum_freq (c : CumTable) : (s.setCum c).freq = s.freq := rfl
@[simp] theorem State.setCum_cum (c : CumTable) : (s.setCum c).cum = c := rfl
@[simp] theorem State.setCum_divider (c : CumTable) : (s.setCum c).divider = s.divider := rfl
@[simp] theorem State.setCum_symId (c : CumTable) : (s.setCum c).symId = s.symId := rfl
@[simp] theorem State.setCum_slotFreqs (c : CumTable) : (s.setCum c).slotFreqs = s.slotFreqs := rfl
@[simp] theorem State.setCum_slotAdjust (c : CumTable) : (s.setCum c).slotAdjust = s.slotAdjust := rfl
@[simp] theorem State.setCum_aliasRemap (c : CumTable) : (s.setCum c).aliasRemap = s.aliasRemap := rfl
@[simp] theorem State.setCum_msg (c : CumTable) : (s.setCum c).msg = s.msg := rfl
@[simp] theorem State.setCum_str (c : CumTable) : (s.setCum c).str = s.str := rfl
@[simp] theorem State.setCum_inputs (c : CumTable) : (s.setCum c).inputs = s.inputs := rfl
@[simp] theorem State.setCum_bufEpoch (c : CumTable) : (s.setCum c).bufEpoch = s.bufEpoch := rfl
@[simp] theorem State.setCum_aliasEpoch (c : CumTable) : (s.setCum c).aliasEpoch = s.aliasEpoch := rfl

@[simp] theorem State.setAlias_msgCap (d : Table Word 8) (i : Table Byte 9) (f a : Table Word 9) (y : Table Word 16) : (s.setAlias d i f a y).msgCap = s.msgCap := rfl
@[simp] theorem State.setAlias_strCap (d : Table Word 8) (i : Table Byte 9) (f a : Table Word 9) (y : Table Word 16) : (s.setAlias d i f a y).strCap = s.strCap := rfl
@[simp] theorem State.setAlias_r (d : Table Word 8) (i : Table Byte 9) (f a : Table Word 9) (y : Table Word 16) : (s.setAlias d i f a y).r = s.r := rfl
@[simp] theorem State.setAlias_cc (d : Table Word 8) (i : Table Byte 9) (f a : Table Word 9) (y : Table Word 16) : (s.setAlias d i f a y).cc = s.cc := rfl
@[simp] theorem State.setAlias_k (d : Table Word 8) (i : Table Byte 9) (f a : Table Word 9) (y : Table Word 16) : (s.setAlias d i f a y).k = s.k := rfl
@[simp] theorem State.setAlias_p (d : Table Word 8) (i : Table Byte 9) (f a : Table Word 9) (y : Table Word 16) : (s.setAlias d i f a y).p = s.p := rfl
@[simp] theorem State.setAlias_ms (d : Table Word 8) (i : Table Byte 9) (f a : Table Word 9) (y : Table Word 16) : (s.setAlias d i f a y).ms = s.ms := rfl
@[simp] theorem State.setAlias_tv (d : Table Word 8) (i : Table Byte 9) (f a : Table Word 9) (y : Table Word 16) : (s.setAlias d i f a y).tv = s.tv := rfl
@[simp] theorem State.setAlias_fault (d : Table Word 8) (i : Table Byte 9) (f a : Table Word 9) (y : Table Word 16) : (s.setAlias d i f a y).fault = s.fault := rfl
@[simp] theorem State.setAlias_fcmd (d : Table Word 8) (i : Table Byte 9) (f a : Table Word 9) (y : Table Word 16) : (s.setAlias d i f a y).fcmd = s.fcmd := rfl
@[simp] theorem State.setAlias_symo (d : Table Word 8) (i : Table Byte 9) (f a : Table Word 9) (y : Table Word 16) : (s.setAlias d i f a y).symo = s.symo := rfl
@[simp] theorem State.setAlias_len (d : Table Word 8) (i : Table Byte 9) (f a : Table Word 9) (y : Table Word 16) : (s.setAlias d i f a y).len = s.len := rfl
@[simp] theorem State.setAlias_wp (d : Table Word 8) (i : Table Byte 9) (f a : Table Word 9) (y : Table Word 16) : (s.setAlias d i f a y).wp = s.wp := rfl
@[simp] theorem State.setAlias_rp (d : Table Word 8) (i : Table Byte 9) (f a : Table Word 9) (y : Table Word 16) : (s.setAlias d i f a y).rp = s.rp := rfl
@[simp] theorem State.setAlias_rend (d : Table Word 8) (i : Table Byte 9) (f a : Table Word 9) (y : Table Word 16) : (s.setAlias d i f a y).rend = s.rend := rfl
@[simp] theorem State.setAlias_freq (d : Table Word 8) (i : Table Byte 9) (f a : Table Word 9) (y : Table Word 16) : (s.setAlias d i f a y).freq = s.freq := rfl
@[simp] theorem State.setAlias_cum (d : Table Word 8) (i : Table Byte 9) (f a : Table Word 9) (y : Table Word 16) : (s.setAlias d i f a y).cum = s.cum := rfl
@[simp] theorem State.setAlias_divider (d : Table Word 8) (i : Table Byte 9) (f a : Table Word 9) (y : Table Word 16) : (s.setAlias d i f a y).divider = d := rfl
@[simp] theorem State.setAlias_symId (d : Table Word 8) (i : Table Byte 9) (f a : Table Word 9) (y : Table Word 16) : (s.setAlias d i f a y).symId = i := rfl
@[simp] theorem State.setAlias_slotFreqs (d : Table Word 8) (i : Table Byte 9) (f a : Table Word 9) (y : Table Word 16) : (s.setAlias d i f a y).slotFreqs = f := rfl
@[simp] theorem State.setAlias_slotAdjust (d : Table Word 8) (i : Table Byte 9) (f a : Table Word 9) (y : Table Word 16) : (s.setAlias d i f a y).slotAdjust = a := rfl
@[simp] theorem State.setAlias_aliasRemap (d : Table Word 8) (i : Table Byte 9) (f a : Table Word 9) (y : Table Word 16) : (s.setAlias d i f a y).aliasRemap = y := rfl
@[simp] theorem State.setAlias_msg (d : Table Word 8) (i : Table Byte 9) (f a : Table Word 9) (y : Table Word 16) : (s.setAlias d i f a y).msg = s.msg := rfl
@[simp] theorem State.setAlias_str (d : Table Word 8) (i : Table Byte 9) (f a : Table Word 9) (y : Table Word 16) : (s.setAlias d i f a y).str = s.str := rfl
@[simp] theorem State.setAlias_inputs (d : Table Word 8) (i : Table Byte 9) (f a : Table Word 9) (y : Table Word 16) : (s.setAlias d i f a y).inputs = s.inputs := rfl
@[simp] theorem State.setAlias_bufEpoch (d : Table Word 8) (i : Table Byte 9) (f a : Table Word 9) (y : Table Word 16) : (s.setAlias d i f a y).bufEpoch = s.bufEpoch := rfl
@[simp] theorem State.setAlias_aliasEpoch (d : Table Word 8) (i : Table Byte 9) (f a : Table Word 9) (y : Table Word 16) : (s.setAlias d i f a y).aliasEpoch = s.aliasEpoch := rfl

@[simp] theorem State.setMsg_msgCap (m : List Host.Cell) : (s.setMsg m).msgCap = s.msgCap := rfl
@[simp] theorem State.setMsg_strCap (m : List Host.Cell) : (s.setMsg m).strCap = s.strCap := rfl
@[simp] theorem State.setMsg_r (m : List Host.Cell) : (s.setMsg m).r = s.r := rfl
@[simp] theorem State.setMsg_cc (m : List Host.Cell) : (s.setMsg m).cc = s.cc := rfl
@[simp] theorem State.setMsg_k (m : List Host.Cell) : (s.setMsg m).k = s.k := rfl
@[simp] theorem State.setMsg_p (m : List Host.Cell) : (s.setMsg m).p = s.p := rfl
@[simp] theorem State.setMsg_ms (m : List Host.Cell) : (s.setMsg m).ms = s.ms := rfl
@[simp] theorem State.setMsg_tv (m : List Host.Cell) : (s.setMsg m).tv = s.tv := rfl
@[simp] theorem State.setMsg_fault (m : List Host.Cell) : (s.setMsg m).fault = s.fault := rfl
@[simp] theorem State.setMsg_fcmd (m : List Host.Cell) : (s.setMsg m).fcmd = s.fcmd := rfl
@[simp] theorem State.setMsg_symo (m : List Host.Cell) : (s.setMsg m).symo = s.symo := rfl
@[simp] theorem State.setMsg_len (m : List Host.Cell) : (s.setMsg m).len = s.len := rfl
@[simp] theorem State.setMsg_wp (m : List Host.Cell) : (s.setMsg m).wp = s.wp := rfl
@[simp] theorem State.setMsg_rp (m : List Host.Cell) : (s.setMsg m).rp = s.rp := rfl
@[simp] theorem State.setMsg_rend (m : List Host.Cell) : (s.setMsg m).rend = s.rend := rfl
@[simp] theorem State.setMsg_freq (m : List Host.Cell) : (s.setMsg m).freq = s.freq := rfl
@[simp] theorem State.setMsg_cum (m : List Host.Cell) : (s.setMsg m).cum = s.cum := rfl
@[simp] theorem State.setMsg_divider (m : List Host.Cell) : (s.setMsg m).divider = s.divider := rfl
@[simp] theorem State.setMsg_symId (m : List Host.Cell) : (s.setMsg m).symId = s.symId := rfl
@[simp] theorem State.setMsg_slotFreqs (m : List Host.Cell) : (s.setMsg m).slotFreqs = s.slotFreqs := rfl
@[simp] theorem State.setMsg_slotAdjust (m : List Host.Cell) : (s.setMsg m).slotAdjust = s.slotAdjust := rfl
@[simp] theorem State.setMsg_aliasRemap (m : List Host.Cell) : (s.setMsg m).aliasRemap = s.aliasRemap := rfl
@[simp] theorem State.setMsg_msg (m : List Host.Cell) : (s.setMsg m).msg = m := rfl
@[simp] theorem State.setMsg_str (m : List Host.Cell) : (s.setMsg m).str = s.str := rfl
@[simp] theorem State.setMsg_inputs (m : List Host.Cell) : (s.setMsg m).inputs = s.inputs := rfl
@[simp] theorem State.setMsg_bufEpoch (m : List Host.Cell) : (s.setMsg m).bufEpoch = s.bufEpoch := rfl
@[simp] theorem State.setMsg_aliasEpoch (m : List Host.Cell) : (s.setMsg m).aliasEpoch = s.aliasEpoch := rfl

@[simp] theorem State.setStr_msgCap (m : List Host.Cell) : (s.setStr m).msgCap = s.msgCap := rfl
@[simp] theorem State.setStr_strCap (m : List Host.Cell) : (s.setStr m).strCap = s.strCap := rfl
@[simp] theorem State.setStr_r (m : List Host.Cell) : (s.setStr m).r = s.r := rfl
@[simp] theorem State.setStr_cc (m : List Host.Cell) : (s.setStr m).cc = s.cc := rfl
@[simp] theorem State.setStr_k (m : List Host.Cell) : (s.setStr m).k = s.k := rfl
@[simp] theorem State.setStr_p (m : List Host.Cell) : (s.setStr m).p = s.p := rfl
@[simp] theorem State.setStr_ms (m : List Host.Cell) : (s.setStr m).ms = s.ms := rfl
@[simp] theorem State.setStr_tv (m : List Host.Cell) : (s.setStr m).tv = s.tv := rfl
@[simp] theorem State.setStr_fault (m : List Host.Cell) : (s.setStr m).fault = s.fault := rfl
@[simp] theorem State.setStr_fcmd (m : List Host.Cell) : (s.setStr m).fcmd = s.fcmd := rfl
@[simp] theorem State.setStr_symo (m : List Host.Cell) : (s.setStr m).symo = s.symo := rfl
@[simp] theorem State.setStr_len (m : List Host.Cell) : (s.setStr m).len = s.len := rfl
@[simp] theorem State.setStr_wp (m : List Host.Cell) : (s.setStr m).wp = s.wp := rfl
@[simp] theorem State.setStr_rp (m : List Host.Cell) : (s.setStr m).rp = s.rp := rfl
@[simp] theorem State.setStr_rend (m : List Host.Cell) : (s.setStr m).rend = s.rend := rfl
@[simp] theorem State.setStr_freq (m : List Host.Cell) : (s.setStr m).freq = s.freq := rfl
@[simp] theorem State.setStr_cum (m : List Host.Cell) : (s.setStr m).cum = s.cum := rfl
@[simp] theorem State.setStr_divider (m : List Host.Cell) : (s.setStr m).divider = s.divider := rfl
@[simp] theorem State.setStr_symId (m : List Host.Cell) : (s.setStr m).symId = s.symId := rfl
@[simp] theorem State.setStr_slotFreqs (m : List Host.Cell) : (s.setStr m).slotFreqs = s.slotFreqs := rfl
@[simp] theorem State.setStr_slotAdjust (m : List Host.Cell) : (s.setStr m).slotAdjust = s.slotAdjust := rfl
@[simp] theorem State.setStr_aliasRemap (m : List Host.Cell) : (s.setStr m).aliasRemap = s.aliasRemap := rfl
@[simp] theorem State.setStr_msg (m : List Host.Cell) : (s.setStr m).msg = s.msg := rfl
@[simp] theorem State.setStr_str (m : List Host.Cell) : (s.setStr m).str = m := rfl
@[simp] theorem State.setStr_inputs (m : List Host.Cell) : (s.setStr m).inputs = s.inputs := rfl
@[simp] theorem State.setStr_bufEpoch (m : List Host.Cell) : (s.setStr m).bufEpoch = s.bufEpoch := rfl
@[simp] theorem State.setStr_aliasEpoch (m : List Host.Cell) : (s.setStr m).aliasEpoch = s.aliasEpoch := rfl

@[simp] theorem State.bumpCc_msgCap : s.bumpCc.msgCap = s.msgCap := rfl
@[simp] theorem State.bumpCc_strCap : s.bumpCc.strCap = s.strCap := rfl
@[simp] theorem State.bumpCc_r : s.bumpCc.r = s.r := rfl
@[simp] theorem State.bumpCc_cc : s.bumpCc.cc = s.cc + 1 := rfl
@[simp] theorem State.bumpCc_k : s.bumpCc.k = s.k := rfl
@[simp] theorem State.bumpCc_p : s.bumpCc.p = s.p := rfl
@[simp] theorem State.bumpCc_ms : s.bumpCc.ms = s.ms := rfl
@[simp] theorem State.bumpCc_tv : s.bumpCc.tv = s.tv := rfl
@[simp] theorem State.bumpCc_fault : s.bumpCc.fault = s.fault := rfl
@[simp] theorem State.bumpCc_fcmd : s.bumpCc.fcmd = s.fcmd := rfl
@[simp] theorem State.bumpCc_symo : s.bumpCc.symo = s.symo := rfl
@[simp] theorem State.bumpCc_len : s.bumpCc.len = s.len := rfl
@[simp] theorem State.bumpCc_wp : s.bumpCc.wp = s.wp := rfl
@[simp] theorem State.bumpCc_rp : s.bumpCc.rp = s.rp := rfl
@[simp] theorem State.bumpCc_rend : s.bumpCc.rend = s.rend := rfl
@[simp] theorem State.bumpCc_freq : s.bumpCc.freq = s.freq := rfl
@[simp] theorem State.bumpCc_cum : s.bumpCc.cum = s.cum := rfl
@[simp] theorem State.bumpCc_divider : s.bumpCc.divider = s.divider := rfl
@[simp] theorem State.bumpCc_symId : s.bumpCc.symId = s.symId := rfl
@[simp] theorem State.bumpCc_slotFreqs : s.bumpCc.slotFreqs = s.slotFreqs := rfl
@[simp] theorem State.bumpCc_slotAdjust : s.bumpCc.slotAdjust = s.slotAdjust := rfl
@[simp] theorem State.bumpCc_aliasRemap : s.bumpCc.aliasRemap = s.aliasRemap := rfl
@[simp] theorem State.bumpCc_msg : s.bumpCc.msg = s.msg := rfl
@[simp] theorem State.bumpCc_str : s.bumpCc.str = s.str := rfl
@[simp] theorem State.bumpCc_inputs : s.bumpCc.inputs = s.inputs := rfl
@[simp] theorem State.bumpCc_bufEpoch : s.bumpCc.bufEpoch = s.bufEpoch := rfl
@[simp] theorem State.bumpCc_aliasEpoch : s.bumpCc.aliasEpoch = s.aliasEpoch := rfl

@[simp] theorem State.latch_msgCap (f : FaultKind) (w : Word) : (s.latch f w).msgCap = s.msgCap := rfl
@[simp] theorem State.latch_strCap (f : FaultKind) (w : Word) : (s.latch f w).strCap = s.strCap := rfl
@[simp] theorem State.latch_r (f : FaultKind) (w : Word) : (s.latch f w).r = s.r := rfl
@[simp] theorem State.latch_cc (f : FaultKind) (w : Word) : (s.latch f w).cc = s.cc := rfl
@[simp] theorem State.latch_k (f : FaultKind) (w : Word) : (s.latch f w).k = s.k := rfl
@[simp] theorem State.latch_p (f : FaultKind) (w : Word) : (s.latch f w).p = s.p := rfl
@[simp] theorem State.latch_ms (f : FaultKind) (w : Word) : (s.latch f w).ms = s.ms := rfl
@[simp] theorem State.latch_tv (f : FaultKind) (w : Word) : (s.latch f w).tv = s.tv := rfl
@[simp] theorem State.latch_fault (f : FaultKind) (w : Word) : (s.latch f w).fault = some f := rfl
@[simp] theorem State.latch_fcmd (f : FaultKind) (w : Word) : (s.latch f w).fcmd = w := rfl
@[simp] theorem State.latch_symo (f : FaultKind) (w : Word) : (s.latch f w).symo = s.symo := rfl
@[simp] theorem State.latch_len (f : FaultKind) (w : Word) : (s.latch f w).len = s.len := rfl
@[simp] theorem State.latch_wp (f : FaultKind) (w : Word) : (s.latch f w).wp = s.wp := rfl
@[simp] theorem State.latch_rp (f : FaultKind) (w : Word) : (s.latch f w).rp = s.rp := rfl
@[simp] theorem State.latch_rend (f : FaultKind) (w : Word) : (s.latch f w).rend = s.rend := rfl
@[simp] theorem State.latch_freq (f : FaultKind) (w : Word) : (s.latch f w).freq = s.freq := rfl
@[simp] theorem State.latch_cum (f : FaultKind) (w : Word) : (s.latch f w).cum = s.cum := rfl
@[simp] theorem State.latch_divider (f : FaultKind) (w : Word) : (s.latch f w).divider = s.divider := rfl
@[simp] theorem State.latch_symId (f : FaultKind) (w : Word) : (s.latch f w).symId = s.symId := rfl
@[simp] theorem State.latch_slotFreqs (f : FaultKind) (w : Word) : (s.latch f w).slotFreqs = s.slotFreqs := rfl
@[simp] theorem State.latch_slotAdjust (f : FaultKind) (w : Word) : (s.latch f w).slotAdjust = s.slotAdjust := rfl
@[simp] theorem State.latch_aliasRemap (f : FaultKind) (w : Word) : (s.latch f w).aliasRemap = s.aliasRemap := rfl
@[simp] theorem State.latch_msg (f : FaultKind) (w : Word) : (s.latch f w).msg = s.msg := rfl
@[simp] theorem State.latch_str (f : FaultKind) (w : Word) : (s.latch f w).str = s.str := rfl
@[simp] theorem State.latch_inputs (f : FaultKind) (w : Word) : (s.latch f w).inputs = s.inputs := rfl
@[simp] theorem State.latch_bufEpoch (f : FaultKind) (w : Word) : (s.latch f w).bufEpoch = s.bufEpoch := rfl
@[simp] theorem State.latch_aliasEpoch (f : FaultKind) (w : Word) : (s.latch f w).aliasEpoch = s.aliasEpoch := rfl

@[simp] theorem State.clearModel_msgCap : s.clearModel.msgCap = s.msgCap := rfl
@[simp] theorem State.clearModel_strCap : s.clearModel.strCap = s.strCap := rfl
@[simp] theorem State.clearModel_r : s.clearModel.r = s.r := rfl
@[simp] theorem State.clearModel_cc : s.clearModel.cc = s.cc := rfl
@[simp] theorem State.clearModel_k : s.clearModel.k = s.k := rfl
@[simp] theorem State.clearModel_p : s.clearModel.p = s.p := rfl
@[simp] theorem State.clearModel_ms : s.clearModel.ms = .raw := rfl
@[simp] theorem State.clearModel_tv : s.clearModel.tv = false := rfl
@[simp] theorem State.clearModel_fault : s.clearModel.fault = s.fault := rfl
@[simp] theorem State.clearModel_fcmd : s.clearModel.fcmd = s.fcmd := rfl
@[simp] theorem State.clearModel_symo : s.clearModel.symo = s.symo := rfl
@[simp] theorem State.clearModel_len : s.clearModel.len = s.len := rfl
@[simp] theorem State.clearModel_wp : s.clearModel.wp = s.wp := rfl
@[simp] theorem State.clearModel_rp : s.clearModel.rp = s.rp := rfl
@[simp] theorem State.clearModel_rend : s.clearModel.rend = s.rend := rfl
@[simp] theorem State.clearModel_freq : s.clearModel.freq = .fill 0 8 := rfl
@[simp] theorem State.clearModel_cum : s.clearModel.cum = .zero := rfl
@[simp] theorem State.clearModel_divider : s.clearModel.divider = s.divider := rfl
@[simp] theorem State.clearModel_symId : s.clearModel.symId = s.symId := rfl
@[simp] theorem State.clearModel_slotFreqs : s.clearModel.slotFreqs = s.slotFreqs := rfl
@[simp] theorem State.clearModel_slotAdjust : s.clearModel.slotAdjust = s.slotAdjust := rfl
@[simp] theorem State.clearModel_aliasRemap : s.clearModel.aliasRemap = s.aliasRemap := rfl
@[simp] theorem State.clearModel_msg : s.clearModel.msg = s.msg := rfl
@[simp] theorem State.clearModel_str : s.clearModel.str = s.str := rfl
@[simp] theorem State.clearModel_inputs : s.clearModel.inputs = s.inputs := rfl
@[simp] theorem State.clearModel_bufEpoch : s.clearModel.bufEpoch = s.bufEpoch := rfl
@[simp] theorem State.clearModel_aliasEpoch : s.clearModel.aliasEpoch = s.aliasEpoch := rfl

@[simp] theorem State.writeMsg_msgCap (a : Nat) (b : Byte) : (s.writeMsg a b).msgCap = s.msgCap := by
  unfold State.writeMsg
  split <;> rfl
@[simp] theorem State.writeMsg_strCap (a : Nat) (b : Byte) : (s.writeMsg a b).strCap = s.strCap := by
  unfold State.writeMsg
  split <;> rfl
@[simp] theorem State.writeMsg_r (a : Nat) (b : Byte) : (s.writeMsg a b).r = s.r := by
  unfold State.writeMsg
  split <;> rfl
@[simp] theorem State.writeMsg_cc (a : Nat) (b : Byte) : (s.writeMsg a b).cc = s.cc := by
  unfold State.writeMsg
  split <;> rfl
@[simp] theorem State.writeMsg_k (a : Nat) (b : Byte) : (s.writeMsg a b).k = s.k := by
  unfold State.writeMsg
  split <;> rfl
@[simp] theorem State.writeMsg_p (a : Nat) (b : Byte) : (s.writeMsg a b).p = s.p := by
  unfold State.writeMsg
  split <;> rfl
@[simp] theorem State.writeMsg_ms (a : Nat) (b : Byte) : (s.writeMsg a b).ms = s.ms := by
  unfold State.writeMsg
  split <;> rfl
@[simp] theorem State.writeMsg_tv (a : Nat) (b : Byte) : (s.writeMsg a b).tv = s.tv := by
  unfold State.writeMsg
  split <;> rfl
@[simp] theorem State.writeMsg_fault (a : Nat) (b : Byte) : (s.writeMsg a b).fault = s.fault := by
  unfold State.writeMsg
  split <;> rfl
@[simp] theorem State.writeMsg_fcmd (a : Nat) (b : Byte) : (s.writeMsg a b).fcmd = s.fcmd := by
  unfold State.writeMsg
  split <;> rfl
@[simp] theorem State.writeMsg_symo (a : Nat) (b : Byte) : (s.writeMsg a b).symo = s.symo := by
  unfold State.writeMsg
  split <;> rfl
@[simp] theorem State.writeMsg_len (a : Nat) (b : Byte) : (s.writeMsg a b).len = s.len := by
  unfold State.writeMsg
  split <;> rfl
@[simp] theorem State.writeMsg_wp (a : Nat) (b : Byte) : (s.writeMsg a b).wp = s.wp := by
  unfold State.writeMsg
  split <;> rfl
@[simp] theorem State.writeMsg_rp (a : Nat) (b : Byte) : (s.writeMsg a b).rp = s.rp := by
  unfold State.writeMsg
  split <;> rfl
@[simp] theorem State.writeMsg_rend (a : Nat) (b : Byte) : (s.writeMsg a b).rend = s.rend := by
  unfold State.writeMsg
  split <;> rfl
@[simp] theorem State.writeMsg_freq (a : Nat) (b : Byte) : (s.writeMsg a b).freq = s.freq := by
  unfold State.writeMsg
  split <;> rfl
@[simp] theorem State.writeMsg_cum (a : Nat) (b : Byte) : (s.writeMsg a b).cum = s.cum := by
  unfold State.writeMsg
  split <;> rfl
@[simp] theorem State.writeMsg_divider (a : Nat) (b : Byte) : (s.writeMsg a b).divider = s.divider := by
  unfold State.writeMsg
  split <;> rfl
@[simp] theorem State.writeMsg_symId (a : Nat) (b : Byte) : (s.writeMsg a b).symId = s.symId := by
  unfold State.writeMsg
  split <;> rfl
@[simp] theorem State.writeMsg_slotFreqs (a : Nat) (b : Byte) : (s.writeMsg a b).slotFreqs = s.slotFreqs := by
  unfold State.writeMsg
  split <;> rfl
@[simp] theorem State.writeMsg_slotAdjust (a : Nat) (b : Byte) : (s.writeMsg a b).slotAdjust = s.slotAdjust := by
  unfold State.writeMsg
  split <;> rfl
@[simp] theorem State.writeMsg_aliasRemap (a : Nat) (b : Byte) : (s.writeMsg a b).aliasRemap = s.aliasRemap := by
  unfold State.writeMsg
  split <;> rfl
@[simp] theorem State.writeMsg_msg (a : Nat) (b : Byte) :
    (s.writeMsg a b).msg = if a < s.msgCap.toNat then Mem.store s.msg a b else s.msg := by
  unfold State.writeMsg
  split <;> rfl
@[simp] theorem State.writeMsg_str (a : Nat) (b : Byte) : (s.writeMsg a b).str = s.str := by
  unfold State.writeMsg
  split <;> rfl
@[simp] theorem State.writeMsg_inputs (a : Nat) (b : Byte) : (s.writeMsg a b).inputs = s.inputs := by
  unfold State.writeMsg
  split <;> rfl
@[simp] theorem State.writeMsg_bufEpoch (a : Nat) (b : Byte) : (s.writeMsg a b).bufEpoch = s.bufEpoch := by
  unfold State.writeMsg
  split <;> rfl
@[simp] theorem State.writeMsg_aliasEpoch (a : Nat) (b : Byte) : (s.writeMsg a b).aliasEpoch = s.aliasEpoch := by
  unfold State.writeMsg
  split <;> rfl

@[simp] theorem State.writeStr_msgCap (a : Nat) (b : Byte) : (s.writeStr a b).msgCap = s.msgCap := by
  unfold State.writeStr
  split <;> rfl
@[simp] theorem State.writeStr_strCap (a : Nat) (b : Byte) : (s.writeStr a b).strCap = s.strCap := by
  unfold State.writeStr
  split <;> rfl
@[simp] theorem State.writeStr_r (a : Nat) (b : Byte) : (s.writeStr a b).r = s.r := by
  unfold State.writeStr
  split <;> rfl
@[simp] theorem State.writeStr_cc (a : Nat) (b : Byte) : (s.writeStr a b).cc = s.cc := by
  unfold State.writeStr
  split <;> rfl
@[simp] theorem State.writeStr_k (a : Nat) (b : Byte) : (s.writeStr a b).k = s.k := by
  unfold State.writeStr
  split <;> rfl
@[simp] theorem State.writeStr_p (a : Nat) (b : Byte) : (s.writeStr a b).p = s.p := by
  unfold State.writeStr
  split <;> rfl
@[simp] theorem State.writeStr_ms (a : Nat) (b : Byte) : (s.writeStr a b).ms = s.ms := by
  unfold State.writeStr
  split <;> rfl
@[simp] theorem State.writeStr_tv (a : Nat) (b : Byte) : (s.writeStr a b).tv = s.tv := by
  unfold State.writeStr
  split <;> rfl
@[simp] theorem State.writeStr_fault (a : Nat) (b : Byte) : (s.writeStr a b).fault = s.fault := by
  unfold State.writeStr
  split <;> rfl
@[simp] theorem State.writeStr_fcmd (a : Nat) (b : Byte) : (s.writeStr a b).fcmd = s.fcmd := by
  unfold State.writeStr
  split <;> rfl
@[simp] theorem State.writeStr_symo (a : Nat) (b : Byte) : (s.writeStr a b).symo = s.symo := by
  unfold State.writeStr
  split <;> rfl
@[simp] theorem State.writeStr_len (a : Nat) (b : Byte) : (s.writeStr a b).len = s.len := by
  unfold State.writeStr
  split <;> rfl
@[simp] theorem State.writeStr_wp (a : Nat) (b : Byte) : (s.writeStr a b).wp = s.wp := by
  unfold State.writeStr
  split <;> rfl
@[simp] theorem State.writeStr_rp (a : Nat) (b : Byte) : (s.writeStr a b).rp = s.rp := by
  unfold State.writeStr
  split <;> rfl
@[simp] theorem State.writeStr_rend (a : Nat) (b : Byte) : (s.writeStr a b).rend = s.rend := by
  unfold State.writeStr
  split <;> rfl
@[simp] theorem State.writeStr_freq (a : Nat) (b : Byte) : (s.writeStr a b).freq = s.freq := by
  unfold State.writeStr
  split <;> rfl
@[simp] theorem State.writeStr_cum (a : Nat) (b : Byte) : (s.writeStr a b).cum = s.cum := by
  unfold State.writeStr
  split <;> rfl
@[simp] theorem State.writeStr_divider (a : Nat) (b : Byte) : (s.writeStr a b).divider = s.divider := by
  unfold State.writeStr
  split <;> rfl
@[simp] theorem State.writeStr_symId (a : Nat) (b : Byte) : (s.writeStr a b).symId = s.symId := by
  unfold State.writeStr
  split <;> rfl
@[simp] theorem State.writeStr_slotFreqs (a : Nat) (b : Byte) : (s.writeStr a b).slotFreqs = s.slotFreqs := by
  unfold State.writeStr
  split <;> rfl
@[simp] theorem State.writeStr_slotAdjust (a : Nat) (b : Byte) : (s.writeStr a b).slotAdjust = s.slotAdjust := by
  unfold State.writeStr
  split <;> rfl
@[simp] theorem State.writeStr_aliasRemap (a : Nat) (b : Byte) : (s.writeStr a b).aliasRemap = s.aliasRemap := by
  unfold State.writeStr
  split <;> rfl
@[simp] theorem State.writeStr_msg (a : Nat) (b : Byte) : (s.writeStr a b).msg = s.msg := by
  unfold State.writeStr
  split <;> rfl
@[simp] theorem State.writeStr_str (a : Nat) (b : Byte) :
    (s.writeStr a b).str = if a < s.strCap.toNat then Mem.store s.str a b else s.str := by
  unfold State.writeStr
  split <;> rfl
@[simp] theorem State.writeStr_inputs (a : Nat) (b : Byte) : (s.writeStr a b).inputs = s.inputs := by
  unfold State.writeStr
  split <;> rfl
@[simp] theorem State.writeStr_bufEpoch (a : Nat) (b : Byte) : (s.writeStr a b).bufEpoch = s.bufEpoch := by
  unfold State.writeStr
  split <;> rfl
@[simp] theorem State.writeStr_aliasEpoch (a : Nat) (b : Byte) : (s.writeStr a b).aliasEpoch = s.aliasEpoch := by
  unfold State.writeStr
  split <;> rfl

@[simp] theorem State.resetKeepingBuffers_msgCap : s.resetKeepingBuffers.msgCap = s.msgCap := rfl
@[simp] theorem State.resetKeepingBuffers_strCap : s.resetKeepingBuffers.strCap = s.strCap := rfl
@[simp] theorem State.resetKeepingBuffers_r : s.resetKeepingBuffers.r = .fill 0x00800000 2 := rfl
@[simp] theorem State.resetKeepingBuffers_cc : s.resetKeepingBuffers.cc = 0 := rfl
@[simp] theorem State.resetKeepingBuffers_k : s.resetKeepingBuffers.k = .one := rfl
@[simp] theorem State.resetKeepingBuffers_p : s.resetKeepingBuffers.p = .p14 := rfl
@[simp] theorem State.resetKeepingBuffers_ms : s.resetKeepingBuffers.ms = .raw := rfl
@[simp] theorem State.resetKeepingBuffers_tv : s.resetKeepingBuffers.tv = false := rfl
@[simp] theorem State.resetKeepingBuffers_fault : s.resetKeepingBuffers.fault = none := rfl
@[simp] theorem State.resetKeepingBuffers_fcmd : s.resetKeepingBuffers.fcmd = 0 := rfl
@[simp] theorem State.resetKeepingBuffers_symo : s.resetKeepingBuffers.symo = 0 := rfl
@[simp] theorem State.resetKeepingBuffers_len : s.resetKeepingBuffers.len = 0 := rfl
@[simp] theorem State.resetKeepingBuffers_wp : s.resetKeepingBuffers.wp = s.strCap := rfl
@[simp] theorem State.resetKeepingBuffers_rp : s.resetKeepingBuffers.rp = s.strCap := rfl
@[simp] theorem State.resetKeepingBuffers_rend : s.resetKeepingBuffers.rend = s.strCap := rfl
@[simp] theorem State.resetKeepingBuffers_freq : s.resetKeepingBuffers.freq = .fill 0 8 := rfl
@[simp] theorem State.resetKeepingBuffers_cum : s.resetKeepingBuffers.cum = ⟨.fill 0 8, 0⟩ := rfl
@[simp] theorem State.resetKeepingBuffers_divider : s.resetKeepingBuffers.divider = .fill 0 8 := rfl
@[simp] theorem State.resetKeepingBuffers_symId : s.resetKeepingBuffers.symId = .fill 0 9 := rfl
@[simp] theorem State.resetKeepingBuffers_slotFreqs : s.resetKeepingBuffers.slotFreqs = .fill 0 9 := rfl
@[simp] theorem State.resetKeepingBuffers_slotAdjust : s.resetKeepingBuffers.slotAdjust = .fill 0 9 := rfl
@[simp] theorem State.resetKeepingBuffers_aliasRemap : s.resetKeepingBuffers.aliasRemap = .fill 0 16 := rfl
@[simp] theorem State.resetKeepingBuffers_msg : s.resetKeepingBuffers.msg = s.msg := rfl
@[simp] theorem State.resetKeepingBuffers_str : s.resetKeepingBuffers.str = s.str := rfl
@[simp] theorem State.resetKeepingBuffers_inputs : s.resetKeepingBuffers.inputs = s.inputs := rfl
@[simp] theorem State.resetKeepingBuffers_bufEpoch : s.resetKeepingBuffers.bufEpoch = s.bufEpoch := rfl
@[simp] theorem State.resetKeepingBuffers_aliasEpoch : s.resetKeepingBuffers.aliasEpoch = s.aliasEpoch + 1 := rfl

@[simp] theorem State.resetLosingBuffers_msgCap : s.resetLosingBuffers.msgCap = s.msgCap := rfl
@[simp] theorem State.resetLosingBuffers_strCap : s.resetLosingBuffers.strCap = s.strCap := rfl
@[simp] theorem State.resetLosingBuffers_r : s.resetLosingBuffers.r = .fill 0x00800000 2 := rfl
@[simp] theorem State.resetLosingBuffers_cc : s.resetLosingBuffers.cc = 0 := rfl
@[simp] theorem State.resetLosingBuffers_k : s.resetLosingBuffers.k = .one := rfl
@[simp] theorem State.resetLosingBuffers_p : s.resetLosingBuffers.p = .p14 := rfl
@[simp] theorem State.resetLosingBuffers_ms : s.resetLosingBuffers.ms = .raw := rfl
@[simp] theorem State.resetLosingBuffers_tv : s.resetLosingBuffers.tv = false := rfl
@[simp] theorem State.resetLosingBuffers_fault : s.resetLosingBuffers.fault = none := rfl
@[simp] theorem State.resetLosingBuffers_fcmd : s.resetLosingBuffers.fcmd = 0 := rfl
@[simp] theorem State.resetLosingBuffers_symo : s.resetLosingBuffers.symo = 0 := rfl
@[simp] theorem State.resetLosingBuffers_len : s.resetLosingBuffers.len = 0 := rfl
@[simp] theorem State.resetLosingBuffers_wp : s.resetLosingBuffers.wp = s.strCap := rfl
@[simp] theorem State.resetLosingBuffers_rp : s.resetLosingBuffers.rp = s.strCap := rfl
@[simp] theorem State.resetLosingBuffers_rend : s.resetLosingBuffers.rend = s.strCap := rfl
@[simp] theorem State.resetLosingBuffers_freq : s.resetLosingBuffers.freq = .fill 0 8 := rfl
@[simp] theorem State.resetLosingBuffers_cum : s.resetLosingBuffers.cum = ⟨.fill 0 8, 0⟩ := rfl
@[simp] theorem State.resetLosingBuffers_divider : s.resetLosingBuffers.divider = .fill 0 8 := rfl
@[simp] theorem State.resetLosingBuffers_symId : s.resetLosingBuffers.symId = .fill 0 9 := rfl
@[simp] theorem State.resetLosingBuffers_slotFreqs : s.resetLosingBuffers.slotFreqs = .fill 0 9 := rfl
@[simp] theorem State.resetLosingBuffers_slotAdjust : s.resetLosingBuffers.slotAdjust = .fill 0 9 := rfl
@[simp] theorem State.resetLosingBuffers_aliasRemap : s.resetLosingBuffers.aliasRemap = .fill 0 16 := rfl
@[simp] theorem State.resetLosingBuffers_msg : s.resetLosingBuffers.msg = [] := rfl
@[simp] theorem State.resetLosingBuffers_str : s.resetLosingBuffers.str = [] := rfl
@[simp] theorem State.resetLosingBuffers_inputs : s.resetLosingBuffers.inputs = s.inputs := rfl
@[simp] theorem State.resetLosingBuffers_bufEpoch : s.resetLosingBuffers.bufEpoch = s.bufEpoch + 1 := rfl
@[simp] theorem State.resetLosingBuffers_aliasEpoch : s.resetLosingBuffers.aliasEpoch = s.aliasEpoch + 1 := rfl

end Sys2Proof.Machine
end

