-- ==== Sys2Proof/Laws/Table.lean ====
section
/-! SUPPORT. The laws of a register file: reading back, leaving the other entries alone, equality entry by entry. -/

namespace Sys2Proof.Machine

variable {α β : Type}

@[simp] theorem Table.get_fill (v : α) : ∀ (n i : Nat), (Table.fill v n).get i = v
  | 0, _ => rfl
  | n + 1, i => by simp only [Table.fill, Table.get, Table.get_fill v n, ite_self]

theorem Table.get_tabulate : ∀ (n : Nat) (f : Nat → α) (i : Nat), i < 2 ^ n → (Table.tabulate n f).get i = f i
  | 0, f, i, h => by
    obtain rfl : i = 0 := by simpa using h
    rfl
  | n + 1, f, i, h => by
    rw [Nat.pow_succ] at h
    simp only [Table.tabulate, Table.get]
    split
    · exact Table.get_tabulate n f i ‹_›
    · rw [Table.get_tabulate n _ (i - 2 ^ n) (by omega)]
      congr 1
      omega

theorem Table.get_set_self : ∀ {n : Nat} (t : Table α n) (i : Nat) (v : α), (t.set i v).get i = v
  | _, .leaf _, _, _ => rfl
  | _, .node (n := n) lo hi, i, v => by
    by_cases h : i < 2 ^ n <;> simp only [Table.set, h, if_true, if_false, Table.get]
    · exact Table.get_set_self lo i v
    · exact Table.get_set_self hi (i - 2 ^ n) v

theorem Table.get_set_ne : ∀ {n : Nat} (t : Table α n) (i j : Nat) (v : α),
    i < 2 ^ n → j < 2 ^ n → j ≠ i → (t.set i v).get j = t.get j
  | _, .leaf _, i, j, _, hi, hj, hne => by
    obtain rfl : i = 0 := by simpa using hi
    exact absurd (by simpa using hj) hne
  | _, .node (n := n) lo hi, i, j, v, hi', hj, hne => by
    rw [Nat.pow_succ] at hi' hj
    by_cases h : i < 2 ^ n <;> by_cases h' : j < 2 ^ n <;> simp only [Table.set, h, h', if_true, if_false, Table.get]
    · exact Table.get_set_ne lo i j v h h' hne
    · exact Table.get_set_ne hi (i - 2 ^ n) (j - 2 ^ n) v (by omega) (by omega) (by omega)

theorem Table.get_set {n : Nat} (t : Table α n) (i j : Nat) (v : α) (hi : i < 2 ^ n) (hj : j < 2 ^ n) :
    (t.set i v).get j = if j = i then v else t.get j := by
  split
  · subst j
    exact t.get_set_self i v
  · exact t.get_set_ne i j v hi hj ‹_›

@[simp] theorem Table.get_map (f : α → β) : ∀ {n : Nat} (t : Table α n) (i : Nat), (t.map f).get i = f (t.get i)
  | _, .leaf _, _ => rfl
  | _, .node lo hi, i => by
    simp only [Table.map, Table.get]
    split
    · exact Table.get_map f lo i
    · exact Table.get_map f hi _

theorem Table.all_iff (test : α → Bool) : ∀ {n : Nat} (t : Table α n),
    t.all test = true ↔ ∀ i, i < 2 ^ n → test (t.get i) = true
  | _, .leaf v => by simp [Table.all, Table.get]
  | _, .node (n := n) lo hi => by
    simp only [Table.all, Bool.and_eq_true, Table.all_iff test lo, Table.all_iff test hi, Table.get, Nat.pow_succ]
    constructor
    · rintro ⟨hlo, hhi⟩ i hi'
      split
      · exact hlo i ‹_›
      · exact hhi _ (by omega)
    · intro h
      refine ⟨fun i hi' => ?_, fun i hi' => ?_⟩
      · simpa [hi'] using h i (by omega)
      · simpa using h (2 ^ n + i) (by omega)

theorem Table.ext_get : ∀ {n : Nat} (t u : Table α n), (∀ i, i < 2 ^ n → t.get i = u.get i) → t = u
  | _, .leaf _, .leaf _, h => by simpa [Table.get] using h 0 (by simp)
  | _, .node (n := n) lo hi, .node lo' hi', h => by
    congr 1
    · refine Table.ext_get lo lo' fun i hi'' => ?_
      simpa [Table.get, hi''] using h i (by rw [Nat.pow_succ]; omega)
    · refine Table.ext_get hi hi' fun i hi'' => ?_
      simpa [Table.get] using h (2 ^ n + i) (by rw [Nat.pow_succ]; omega)

theorem Table.set_get {n : Nat} (t : Table α n) (i : Nat) (h : i < 2 ^ n) : t.set i (t.get i) = t := by
  refine Table.ext_get _ _ fun j hj => ?_
  rw [Table.get_set t i j _ h hj]
  split
  · subst j
    rfl
  · rfl

end Sys2Proof.Machine
end

