-- ==== Sys2Proof/Laws/Ops.lean ====
section
/-! SUPPORT. For each shared operation, what it can do, said once: sequencing, the loops, the byte primitives, a
command's admission and end, the buffers. -/

namespace Sys2Proof.Machine

/-! ### Sequencing -/

@[simp] theorem Res.bind_ok {α β : Type} (s : State) (a : α) (f : State → α → Res β) : (Res.ok s a).bind f = f s a := rfl

@[simp] theorem Res.bind_raised {α β : Type} (s : State) (k : FaultKind) (f : State → α → Res β) :
    (Res.raised s k).bind f = .raised s k := rfl

@[simp] theorem Res.state_ok {α : Type} (s : State) (a : α) : (Res.ok s a).state = s := rfl

@[simp] theorem Res.state_raised {α : Type} (s : State) (k : FaultKind) : (Res.raised (α := α) s k).state = s := rfl

theorem Res.bind_assoc {α β γ : Type} (x : Res α) (f : State → α → Res β) (g : State → β → Res γ) :
    (x.bind f).bind g = x.bind fun s a => (f s a).bind g := by
  cases x <;> rfl

/-- What relates a stretch's start to its end is kept by sequencing, when it is transitive. -/
theorem Res.bind_rel {α β : Type} {R : State → State → Prop} (trans : ∀ {a b c}, R a b → R b c → R a c) {s : State}
    {x : Res α} {f : State → α → Res β} (hx : R s x.state) (hf : ∀ t a, R t (f t a).state) :
    R s (x.bind f).state := by
  cases x with
  | ok t a => exact trans hx (hf t a)
  | raised t k => exact hx

/-- A property of states every stretch keeps is kept by sequencing. -/
theorem Res.bind_keeps {α β : Type} {P : State → Prop} {x : Res α} {f : State → α → Res β} (hx : P x.state)
    (hf : ∀ t a, P t → P (f t a).state) : P (x.bind f).state := by
  cases x with
  | ok t a => exact hf t a hx
  | raised t k => exact hx

/-! ### Loops -/

@[simp] theorem forUp_zero (body : Nat → State → Res Unit) (s : State) : forUp 0 body s = .ok s () := rfl

theorem forUp_succ (n : Nat) (body : Nat → State → Res Unit) (s : State) :
    forUp (n + 1) body s = (forUp n body s).bind fun t _ => body n t := rfl

@[simp] theorem forDown_zero (body : Nat → State → Res Unit) (s : State) : forDown 0 body s = .ok s () := rfl

theorem forDown_succ (n : Nat) (body : Nat → State → Res Unit) (s : State) :
    forDown (n + 1) body s = (body n s).bind fun t _ => forDown n body t := rfl

theorem forUp_rel {R : State → State → Prop} (refl : ∀ a, R a a) (trans : ∀ {a b c}, R a b → R b c → R a c)
    {body : Nat → State → Res Unit} (n : Nat) (hb : ∀ i, i < n → ∀ t, R t (body i t).state) (s : State) :
    R s (forUp n body s).state := by
  induction n with
  | zero => exact refl s
  | succ n ih => exact Res.bind_rel (R := R) (fun h h' => trans h h') (ih fun i hi => hb i (by omega)) fun t _ => hb n (by omega) t

theorem forDown_rel {R : State → State → Prop} (refl : ∀ a, R a a) (trans : ∀ {a b c}, R a b → R b c → R a c)
    {body : Nat → State → Res Unit} (n : Nat) (hb : ∀ i, i < n → ∀ t, R t (body i t).state) (s : State) :
    R s (forDown n body s).state := by
  induction n generalizing s with
  | zero => exact refl s
  | succ n ih => exact Res.bind_rel (R := R) (fun h h' => trans h h') (hb n (by omega) s) fun t _ => ih (fun i hi => hb i (by omega)) t

theorem forUp_keeps {P : State → Prop} {body : Nat → State → Res Unit} (n : Nat)
    (hb : ∀ i, i < n → ∀ t, P t → P (body i t).state) {s : State} (hs : P s) : P (forUp n body s).state := by
  induction n with
  | zero => exact hs
  | succ n ih => exact Res.bind_keeps (ih fun i hi => hb i (by omega)) fun t _ ht => hb n (by omega) t ht

theorem forDown_keeps {P : State → Prop} {body : Nat → State → Res Unit} (n : Nat)
    (hb : ∀ i, i < n → ∀ t, P t → P (body i t).state) {s : State} (hs : P s) : P (forDown n body s).state := by
  induction n generalizing s with
  | zero => exact hs
  | succ n ih => exact Res.bind_keeps (hb n (by omega) s hs) fun t _ ht => ih (fun i hi => hb i (by omega)) ht

theorem countUp_succ {σ : Type} (n : Nat) (body : Nat → σ → σ) (x : σ) :
    countUp (n + 1) body x = body n (countUp n body x) := rfl

/-- An assertion indexed by the loop variable holds at the end when it holds at the start and each turn carries it on. -/
theorem countUp_induct {σ : Type} {P : Nat → σ → Prop} {body : Nat → σ → σ} (n : Nat) {x : σ} (h0 : P 0 x)
    (hb : ∀ i, i < n → ∀ y, P i y → P (i + 1) (body i y)) : P n (countUp n body x) := by
  induction n with
  | zero => exact h0
  | succ n ih => exact hb n (by omega) _ (ih fun i hi => hb i (by omega))

theorem allBelow_iff (n : Nat) (test : Nat → Bool) : allBelow n test = true ↔ ∀ i, i < n → test i = true := by
  induction n with
  | zero => simp [allBelow]
  | succ n ih =>
    simp only [allBelow, Bool.and_eq_true, ih]
    constructor
    · rintro ⟨h, hn⟩ i hi
      rcases Nat.lt_succ_iff_lt_or_eq.mp hi with hi | rfl
      · exact h i hi
      · exact hn
    · exact fun h => ⟨fun i hi => h i (by omega), h n (by omega)⟩

/-! ### `cum[]` -/

theorem CumTable.entry_put (c : CumTable) (i j : Nat) (v : Word) (hi : i ≤ 256) (hj : j ≤ 256) :
    (c.put i v).entry j = if j = i then v else c.entry j := by
  unfold CumTable.put CumTable.entry
  by_cases hi' : i < 256 <;> by_cases hj' : j < 256 <;> simp only [hi', hj', if_true, if_false]
  · exact Table.get_set c.low i j v hi' hj'
  · rw [if_neg (by omega)]
  · rw [if_neg (by omega)]
  · rw [if_pos (by omega)]

@[simp] theorem CumTable.entry_zero (i : Nat) : CumTable.zero.entry i = 0 := by
  unfold CumTable.zero CumTable.entry
  split <;> simp

/-! ### The buffers -/

theorem State.readStr_writeStr (s : State) (a x : Nat) (b : Byte) :
    (s.writeStr a b).readStr x = if x = a ∧ a < s.strCap.toNat then b else s.readStr x := by
  simp only [State.readStr, State.writeStr_str, State.writeStr_bufEpoch]
  by_cases ha : a < s.strCap.toNat
  · by_cases hx : x = a <;> simp [ha, hx, Mem.lookup_store]
  · simp [ha]

theorem State.readMsg_writeMsg (s : State) (a x : Nat) (b : Byte) :
    (s.writeMsg a b).readMsg x = if x = a ∧ a < s.msgCap.toNat then b else s.readMsg x := by
  simp only [State.readMsg, State.writeMsg_msg, State.writeMsg_bufEpoch]
  by_cases ha : a < s.msgCap.toNat
  · by_cases hx : x = a <;> simp [ha, hx, Mem.lookup_store]
  · simp [ha]

/-- `readStr` looks at nothing but the written bytes and the epoch. -/
theorem State.readStr_congr {s t : State} (h : t.str = s.str) (he : t.bufEpoch = s.bufEpoch) (a : Nat) :
    t.readStr a = s.readStr a := by
  simp only [State.readStr, h, he]

/-- `readMsg` looks at nothing but the written bytes and the epoch. -/
theorem State.readMsg_congr {s t : State} (h : t.msg = s.msg) (he : t.bufEpoch = s.bufEpoch) (a : Nat) :
    t.readMsg a = s.readMsg a := by
  simp only [State.readMsg, h, he]

theorem State.writeStr_wf {s : State} (a : Nat) (b : Byte) (h : Memory.wf s.strCap.toNat s.str = true) :
    Memory.wf (s.writeStr a b).strCap.toNat (s.writeStr a b).str = true := by
  simp only [State.writeStr_str, State.writeStr_strCap]
  split
  · exact Memory.wf_store b h ‹_›
  · exact h

theorem State.writeMsg_wf {s : State} (a : Nat) (b : Byte) (h : Memory.wf s.msgCap.toNat s.msg = true) :
    Memory.wf (s.writeMsg a b).msgCap.toNat (s.writeMsg a b).msg = true := by
  simp only [State.writeMsg_msg, State.writeMsg_msgCap]
  split
  · exact Memory.wf_store b h ‹_›
  · exact h

/-! ### The byte primitives -/

/-- Everything PutByte can do. -/
theorem putByte_cases (b : Byte) (s : State) :
    (s.wp = 0 ∧ putByte b s = .raised s .io) ∨
      (s.wp ≠ 0 ∧ putByte b s = .ok ((s.setWp (s.wp - 1)).writeStr (s.wp - 1).toNat b) ()) := by
  unfold putByte
  split
  · exact .inl ⟨‹_›, rfl⟩
  · exact .inr ⟨‹_›, rfl⟩

/-- Everything GetByte can do. -/
theorem getByte_cases (s : State) :
    (s.window = 0 ∧ getByte s = .raised s .truncatedInput) ∨
      (0 < s.window ∧ getByte s = .ok (s.setRp (s.rp + 1)) (s.readStr s.rp.toNat)) := by
  have h : (s.rend ≤ s.rp ∨ s.strCap ≤ s.rp) ↔ s.window = 0 := by
    simp only [BitVec.le_def, State.window]
    omega
  unfold getByte
  split
  · exact .inl ⟨h.mp ‹_›, rfl⟩
  · exact .inr ⟨Nat.pos_of_ne_zero fun h0 => ‹¬ _› (h.mpr h0), rfl⟩

/-! ### Admission and the end of a command -/

theorem issue_faulted {i : Instr} {body : State → Res Unit} {s : State} {k : FaultKind} (h : s.fault = some k) :
    issue i body s = .next s := by
  simp [issue, State.faulted, h]

theorem issue_admitted {i : Instr} {body : State → Res Unit} {s : State} (h : s.fault = none) (ha : admits i s = true) :
    issue i body s = finish (encode i) (body s) := by
  simp [issue, State.faulted, h, ha]

theorem issue_refused {i : Instr} {body : State → Res Unit} {s : State} (h : s.fault = none) (ha : admits i s = false) :
    issue i body s = .next (s.latch .illegalCommand (encode i)) := by
  simp [issue, State.faulted, h, ha]

/-- Every way a command can end. -/
theorem issue_cases {i : Instr} {body : State → Res Unit} {s t : State} (h : issue i body s = .next t) :
    (s.fault ≠ none ∧ t = s) ∨
      (s.fault = none ∧ admits i s = false ∧ t = s.latch .illegalCommand (encode i)) ∨
      (s.fault = none ∧ admits i s = true ∧
        ((∃ u, body s = .ok u () ∧ t = u.bumpCc) ∨ ∃ u k, body s = .raised u k ∧ t = u.latch k (encode i))) := by
  rcases hf : s.fault with _ | k
  · rcases ha : admits i s
    · rw [issue_refused hf ha] at h
      exact .inr (.inl ⟨rfl, rfl, (Host.Outcome.next.inj h).symm⟩)
    · rw [issue_admitted hf ha] at h
      refine .inr (.inr ⟨rfl, rfl, ?_⟩)
      rcases hb : body s with ⟨u, ⟨⟩⟩ | ⟨u, k⟩ <;> rw [hb] at h
      · exact .inl ⟨u, rfl, (Host.Outcome.next.inj h).symm⟩
      · exact .inr ⟨u, k, rfl, (Host.Outcome.next.inj h).symm⟩
  · rw [issue_faulted hf] at h
    exact .inl ⟨by simp, (Host.Outcome.next.inj h).symm⟩

/-- A command always answers a next state. -/
theorem issue_next (i : Instr) (body : State → Res Unit) (s : State) : ∃ t, issue i body s = .next t := by
  unfold issue
  split
  · exact ⟨s, rfl⟩
  · split
    · cases body s
      · exact ⟨_, rfl⟩
      · exact ⟨_, rfl⟩
    · exact ⟨_, rfl⟩

end Sys2Proof.Machine
end

