-- ==== Sys2Proof/Laws/Admission.lean ====
section
/-! SUPPORT. The admission check the model runs is the admission table of the spec. -/

namespace Sys2Proof.Machine

theorem Interleave.ofField_isSome (f : Nibble) : (Interleave.ofField f).isSome = true ↔ f = 1 ∨ f = 2 ∨ f = 4 := by
  revert f
  decide

theorem Scale.ofField_isSome (f : Byte) : (Scale.ofField f).isSome = true ↔ 8 ≤ f.toNat ∧ f.toNat ≤ 16 := by
  revert f
  decide

/-- The admission check is the admission table. -/
theorem admits_iff (i : Instr) (s : State) : admits i s = true ↔ AdmittedBySpec i s := by
  have hms : s.ms ≠ .raw ↔ s.ms = .valid ∨ s.ms = .empty := by
    cases s.ms <;> decide
  have hlen : (s.len = 0) ↔ s.len.toNat = 0 := by
    rw [BitVec.toNat_eq]
    rfl
  cases i <;>
    simp only [admits, AdmittedBySpec, streamLegal, StreamInUse, State.codable, State.lenFits, Bool.and_eq_true,
      Bool.or_eq_true, decide_eq_true_eq, Interleave.ofField_isSome, Scale.ofField_isSome, hms, hlen, BitVec.le_def]

end Sys2Proof.Machine
end

