-- ==== Sys2Proof/Laws/PerInstr.lean ====
section
/-! SUPPORT. A fact of every command as syntax: its word spells its own row of the opcode map (30_encoding.md R71,
R73), one lemma per constructor. -/

namespace Sys2Proof.Laws.MatchesRow

open Sys2Proof Sys2Proof.Machine

/-- Some row of the opcode map has the command's mnemonic and is spelled by the command's word. -/
def Statement (i : Instr) : Prop :=
  ∃ row ∈ specRows, row.mnemonic = mnemonicOf i ∧ encode i &&& row.mask = row.pattern

/-- The row of a command, shown by its place in the map and the equation of bits. -/
theorem of_row {i : Instr} (n : Nat) (row : SpecRow) (hrow : specRows[n]? = some row)
    (hname : row.mnemonic = mnemonicOf i) (hbits : encode i &&& row.mask = row.pattern) : Statement i :=
  ⟨row, List.mem_of_getElem? hrow, hname, hbits⟩

/-- A word with both operand fields masked off. -/
theorem assemble_and_mask (op : Byte) (a : Nibble) (imm : Byte) :
    assemble op a imm &&& 0xFFF0FF00 = op ++ (0#4 : Nibble) ++ (0#4 : Nibble) ++ (0#8 : Byte) ++ (0#8 : Byte) := by
  have hop : op &&& 0xFF#8 = op := BitVec.and_allOnes
  have h : (op ++ (0#4 : Nibble) ++ a ++ (0#8 : Byte) ++ imm) &&&
      ((0xFF#8 : Byte) ++ (0xF#4 : Nibble) ++ (0#4 : Nibble) ++ (0xFF#8 : Byte) ++ (0#8 : Byte)) =
      op ++ (0#4 : Nibble) ++ (0#4 : Nibble) ++ (0#8 : Byte) ++ (0#8 : Byte) := by
    simp only [BitVec.and_append, hop, BitVec.and_zero]
    rfl
  exact h

theorem nop : Statement .nop := of_row 0 _ rfl rfl (by decide)

theorem cfg (k : Nibble) (p : Byte) : Statement (.cfg k p) :=
  of_row 1 _ rfl rfl (assemble_and_mask _ _ _)

theorem srst : Statement .srst := of_row 2 _ rfl rfl (by decide)

theorem fclr : Statement .fclr := of_row 3 _ rfl rfl (by decide)

theorem fcnt (b : Byte) : Statement (.fcnt b) :=
  of_row 4 _ rfl rfl (by revert b; decide)

theorem fscan : Statement .fscan := of_row 5 _ rfl rfl (by decide)

theorem fnorm : Statement .fnorm := of_row 6 _ rfl rfl (by decide)

theorem fld : Statement .fld := of_row 7 _ rfl rfl (by decide)

theorem fst : Statement .fst := of_row 8 _ rfl rfl (by decide)

theorem abld : Statement .abld := of_row 9 _ rfl rfl (by decide)

theorem einit (j : Nibble) : Statement (.einit j) :=
  of_row 10 _ rfl rfl (by revert j; decide)

theorem eput (j : Nibble) (sym : Byte) : Statement (.eput j sym) :=
  of_row 11 _ rfl rfl (assemble_and_mask _ _ _)

theorem eflush (j : Nibble) : Statement (.eflush j) :=
  of_row 12 _ rfl rfl (by revert j; decide)

theorem enc : Statement .enc := of_row 13 _ rfl rfl (by decide)

theorem dinit (j : Nibble) : Statement (.dinit j) :=
  of_row 14 _ rfl rfl (by revert j; decide)

theorem dget (j : Nibble) : Statement (.dget j) :=
  of_row 15 _ rfl rfl (by revert j; decide)

theorem drenorm (j : Nibble) : Statement (.drenorm j) :=
  of_row 16 _ rfl rfl (by revert j; decide)

theorem dec : Statement .dec := of_row 17 _ rfl rfl (by decide)

theorem sclr : Statement .sclr := of_row 18 _ rfl rfl (by decide)

theorem rewind : Statement .rewind := of_row 19 _ rfl rfl (by decide)

theorem lst : Statement .lst := of_row 20 _ rfl rfl (by decide)

theorem lld : Statement .lld := of_row 21 _ rfl rfl (by decide)

end Sys2Proof.Laws.MatchesRow
end

