-- ==== Sys2Proof/Laws/Sequences.lean ====
section
/-! SUPPORT. Sequences of commands and of the host's actions as decode driver: one after another, and what a latched
fault makes of them. -/

namespace Sys2Proof.Machine

@[simp] theorem execAll_nil (s : State) : execAll [] s = .next s := rfl

theorem execAll_cons {i : Instr} {s t : State} (is : List Instr) (h : exec i s = .next t) :
    execAll (i :: is) s = execAll is t := by
  simp [execAll, h]

theorem execAll_append {is : List Instr} {s t : State} (js : List Instr) (h : execAll is s = .next t) :
    execAll (is ++ js) s = execAll js t := by
  induction is generalizing s with
  | nil =>
    obtain rfl := Host.Outcome.next.inj h
    rfl
  | cons i is ih =>
    rw [List.cons_append]
    simp only [execAll] at h ⊢
    split at h
    · exact ih h
    · exact absurd h (by simp)
    · exact absurd h (by simp)

/-- While a fault is latched every command but SRST is discarded. -/
theorem exec_faulted {i : Instr} {s : State} {k : FaultKind} (hi : i ≠ .srst) (h : s.fault = some k) :
    exec i s = .next s := by
  cases i
  case srst => exact absurd rfl hi
  all_goals
    simp only [exec, execNop, execCfg, execFclr, execFcnt, execFscan, execFnorm, execFld, execFst, execAbld, execEinit,
      execEput, execEflush, execEnc, execDinit, execDget, execDrenorm, execDec, execSclr, execRewind, execLst, execLld]
    exact issue_faulted h

theorem execAll_faulted {is : List Instr} {s : State} {k : FaultKind} (hi : ∀ i ∈ is, i ≠ .srst)
    (h : s.fault = some k) : execAll is s = .next s := by
  induction is with
  | nil => rfl
  | cons i is ih =>
    rw [execAll_cons is (exec_faulted (hi i (by simp)) h)]
    exact ih fun i hi' => hi i (by simp [hi'])

@[simp] theorem driveAll_nil (s : State) : driveAll [] s = .next s := rfl

theorem driveAll_issue {i : Instr} {s t : State} (acts : List DriverAct) (h : exec i s = .next t) :
    driveAll (.issue i :: acts) s = driveAll acts t := by
  simp [driveAll, driverAct, h]

/-- The host's copy of SYMO, where the message has such a byte and no fault is latched. -/
theorem driveAll_copySymo {i : Nat} {s : State} (acts : List DriverAct) (hf : s.fault = none)
    (hi : i < s.msgCap.toNat) : driveAll (.copySymo i :: acts) s = driveAll acts (s.writeMsg i s.symo) := by
  simp [driveAll, driverAct, hf, perform, portWriteMsg, hi]

theorem driveAll_append {acts : List DriverAct} {s t : State} (more : List DriverAct)
    (h : driveAll acts s = .next t) : driveAll (acts ++ more) s = driveAll more t := by
  induction acts generalizing s with
  | nil =>
    obtain rfl := Host.Outcome.next.inj h
    rfl
  | cons a acts ih =>
    rw [List.cons_append]
    simp only [driveAll] at h ⊢
    split at h
    · exact ih h
    · exact absurd h (by simp)
    · exact absurd h (by simp)

/-- While a fault is latched the rest of the decode driver's actions change nothing. -/
theorem driveAll_faulted {acts : List DriverAct} {s : State} {k : FaultKind} (hi : .issue .srst ∉ acts)
    (h : s.fault = some k) : driveAll acts s = .next s := by
  induction acts with
  | nil => rfl
  | cons a acts ih =>
    simp only [List.mem_cons, not_or] at hi
    cases a with
    | issue i =>
      rw [driveAll_issue acts (exec_faulted (fun hs => hi.1 (by rw [hs])) h)]
      exact ih hi.2
    | copySymo i =>
      have : driveAll (.copySymo i :: acts) s = driveAll acts s := by simp [driveAll, driverAct, h]
      rw [this]
      exact ih hi.2

end Sys2Proof.Machine
end

