-- ==== Sys2Proof/Laws/Streams.lean ====
section
/-! SUPPORT. What a run of PutByte or GetByte does, said once: pushing and pulling several bytes, EPUT's loop and
DRENORM's loop, each with the case in which the stream ends first. -/

namespace Sys2Proof.Machine

theorem Table.set_set {α : Type} : ∀ {n : Nat} (t : Table α n) (i : Nat) (v w : α), (t.set i v).set i w = t.set i w
  | _, .leaf _, _, _, _ => rfl
  | _, .node (n := n) lo hi, i, v, w => by
    by_cases h : i < 2 ^ n <;> simp only [Table.set, h, if_true, if_false]
    · rw [Table.set_set lo]
    · rw [Table.set_set hi]

theorem Interleave.count_le (k : Interleave) : 1 ≤ k.count ∧ k.count ≤ 4 := by
  cases k <;> decide

theorem Scale.exponent_range (p : Scale) : 8 ≤ p.exponent ∧ p.exponent ≤ 16 := by
  cases p <;> decide

/-! ### The sink -/

/-- `s` with WP lowered by `n` and other written bytes in STR. -/
def State.sunk (s : State) (n : Nat) (cells : List Host.Cell) : State :=
  (s.setWp (s.wp - BitVec.ofNat 64 n)).setStr cells

/-- STR of `t` is STR of `s` with the byte `b i` at `wp - 1 - i`, for `i < n`. -/
def Pushed (s t : State) (n : Nat) (b : Nat → Byte) : Prop :=
  (∀ i, i < n → t.readStr (s.wp.toNat - 1 - i) = b i) ∧
    ∀ a, a < s.wp.toNat - n ∨ s.wp.toNat ≤ a → t.readStr a = s.readStr a

theorem toNat_sub_ofNat {w : DWord} {n : Nat} (h : n ≤ w.toNat) : (w - BitVec.ofNat 64 n).toNat = w.toNat - n := by
  have := w.isLt
  rw [BitVec.toNat_sub, BitVec.toNat_ofNat, Nat.mod_eq_of_lt (show n < 2 ^ 64 by omega)]
  omega

theorem toNat_add_ofNat {w : DWord} {n : Nat} (h : w.toNat + n < 2 ^ 64) :
    (w + BitVec.ofNat 64 n).toNat = w.toNat + n := by
  rw [BitVec.toNat_add, BitVec.toNat_ofNat, Nat.mod_eq_of_lt (show n < 2 ^ 64 by omega), Nat.mod_eq_of_lt h]

theorem sunk_zero (s : State) : s.sunk 0 s.str = s := by
  simp [State.sunk, State.setWp, State.setStr]

theorem sunk_sunk (s : State) (m n : Nat) (c c' : List Host.Cell) : (s.sunk m c).sunk n c' = s.sunk (m + n) c' := by
  have h : s.wp - BitVec.ofNat 64 m - BitVec.ofNat 64 n = s.wp - BitVec.ofNat 64 (m + n) := by
    rw [BitVec.ofNat_add]
    simp only [BitVec.sub_eq_add_neg, BitVec.neg_add]
    ac_rfl
  simp [State.sunk, State.setWp, State.setStr, h]

/-- PutByte on a sink with room, WP inside STR. -/
theorem putByte_ok {s : State} (b : Byte) (hw : 1 ≤ s.wp.toNat) (hc : s.wp.toNat ≤ s.strCap.toNat) :
    ∃ cells, putByte b s = .ok (s.sunk 1 cells) () ∧ Pushed s (s.sunk 1 cells) 1 fun _ => b := by
  have hsub : (s.wp - 1).toNat = s.wp.toNat - 1 := toNat_sub_ofNat hw
  have hlt : (s.wp - 1).toNat < (s.setWp (s.wp - 1)).strCap.toNat := by
    show (s.wp - 1).toNat < s.strCap.toNat
    omega
  have hne : s.wp ≠ 0 := by
    intro h
    simp [h] at hw
  refine ⟨Mem.store s.str (s.wp.toNat - 1) b, ?_, ?_, ?_⟩
  · rw [putByte, if_neg hne, State.writeStr, if_pos hlt, hsub]
    rfl
  · intro i hi
    simp [State.readStr, State.sunk, Mem.lookup_store, show i = 0 by omega]
  · intro a ha
    simp [State.readStr, State.sunk, Mem.lookup_store, show a ≠ s.wp.toNat - 1 by omega]

/-- Bytes pushed after other bytes lie below them. -/
theorem Pushed.append {s t u : State} {m n : Nat} {b c d : Nat → Byte} (h : Pushed s t m b) (h' : Pushed t u n c)
    (hw : t.wp.toNat = s.wp.toNat - m) (hm : m + n ≤ s.wp.toNat) (hb : ∀ i, i < m → d i = b i)
    (hc : ∀ i, i < n → d (m + i) = c i) : Pushed s u (m + n) d := by
  refine ⟨fun i hi => ?_, fun a ha => ?_⟩
  · by_cases him : i < m
    · rw [h'.2 _ (by omega), h.1 i him, hb i him]
    · have := h'.1 (i - m) (by omega)
      rw [hw, show s.wp.toNat - m - 1 - (i - m) = s.wp.toNat - 1 - i by omega] at this
      rw [this, ← hc (i - m) (by omega), show m + (i - m) = i by omega]
  · rw [h'.2 a (by omega), h.2 a (by omega)]

/-- Pushing `n` bytes, WP inside STR: all of them where there is room, else as many as there is room for and Io. -/
theorem pushBytes_spec (n v : Nat) (s : State) (hc : s.wp.toNat ≤ s.strCap.toNat) :
    ∃ cells,
      pushBytes n v s = (if n ≤ s.wp.toNat then .ok (s.sunk n cells) () else .raised (s.sunk s.wp.toNat cells) .io) ∧
        Pushed s (s.sunk (min n s.wp.toNat) cells) (min n s.wp.toNat) fun i => byteOf v (n - 1 - i) := by
  induction n generalizing s with
  | zero => exact ⟨s.str, by simp [pushBytes, sunk_zero], by simp [Pushed, sunk_zero]⟩
  | succ n ih =>
    by_cases hw : 1 ≤ s.wp.toNat
    · obtain ⟨c, hp, hP⟩ := putByte_ok (byteOf v n) hw hc
      have hwp : (s.sunk 1 c).wp.toNat = s.wp.toNat - 1 := toNat_sub_ofNat hw
      obtain ⟨c', hq, hQ⟩ := ih (s.sunk 1 c) (by rw [hwp]; show _ ≤ s.strCap.toNat; omega)
      rw [hwp] at hq hQ
      refine ⟨c', ?_, ?_⟩
      · have h1 : pushBytes (n + 1) v s = pushBytes n v (s.sunk 1 c) := by
          simp only [pushBytes, forDown_succ, hp, Res.bind_ok]
        rw [h1, hq]
        simp only [sunk_sunk, show 1 + (s.wp.toNat - 1) = s.wp.toNat by omega, show 1 + n = n + 1 by omega,
          show n ≤ s.wp.toNat - 1 ↔ n + 1 ≤ s.wp.toNat by omega]
      · rw [sunk_sunk] at hQ
        have := hP.append hQ hwp (d := fun i => byteOf v (n + 1 - 1 - i)) (by omega) (fun i hi => by
          simp [show i = 0 by omega]) (fun i hi => by congr 1; omega)
        rwa [show 1 + min n (s.wp.toNat - 1) = min (n + 1) s.wp.toNat by omega] at this
    · have h0 : s.wp = 0 := BitVec.eq_of_toNat_eq (by simpa using hw)
      refine ⟨s.str, ?_, ?_⟩
      · simp [pushBytes, forDown_succ, putByte, h0, sunk_zero]
      · simp [Pushed, h0, sunk_zero]

/-- FST's loop, WP inside STR: the words `n-1` down to 0, high byte first, all of them where there is room, else as many
bytes as there is room for and Io. -/
theorem storeFreqs_spec (n : Nat) (s : State) (hc : s.wp.toNat ≤ s.strCap.toNat) :
    ∃ cells,
      forDown n storeFreq s =
          (if 2 * n ≤ s.wp.toNat then .ok (s.sunk (2 * n) cells) () else .raised (s.sunk s.wp.toNat cells) .io) ∧
        Pushed s (s.sunk (min (2 * n) s.wp.toNat) cells) (min (2 * n) s.wp.toNat) fun i =>
          byteOf (s.freq.get (n - 1 - i / 2)).toNat (1 - i % 2) := by
  induction n generalizing s with
  | zero => exact ⟨s.str, by simp [sunk_zero], by simp [Pushed, sunk_zero]⟩
  | succ n ih =>
    obtain ⟨c, hp, hP⟩ := pushBytes_spec 2 (s.freq.get n).toNat s hc
    by_cases hw : 2 ≤ s.wp.toNat
    · rw [if_pos hw] at hp
      rw [show min 2 s.wp.toNat = 2 by omega] at hP
      have hwp : (s.sunk 2 c).wp.toNat = s.wp.toNat - 2 := toNat_sub_ofNat hw
      obtain ⟨c', hq, hQ⟩ := ih (s.sunk 2 c) (by rw [hwp]; show _ ≤ s.strCap.toNat; omega)
      rw [hwp] at hq hQ
      refine ⟨c', ?_, ?_⟩
      · have h1 : forDown (n + 1) storeFreq s = forDown n storeFreq (s.sunk 2 c) := by
          simp only [forDown_succ, storeFreq, hp, Res.bind_ok]
        rw [h1, hq]
        simp only [sunk_sunk, show 2 + (s.wp.toNat - 2) = s.wp.toNat by omega, show 2 + 2 * n = 2 * (n + 1) by omega,
          show 2 * n ≤ s.wp.toNat - 2 ↔ 2 * (n + 1) ≤ s.wp.toNat by omega]
      · rw [sunk_sunk] at hQ
        have := hP.append hQ hwp (d := fun i => byteOf (s.freq.get (n + 1 - 1 - i / 2)).toNat (1 - i % 2)) (by omega)
          (fun i hi => by
            rw [show i / 2 = 0 by omega, show i % 2 = i by omega]
            rfl)
          (fun i hi => by
            rw [show n + 1 - 1 - (2 + i) / 2 = n - 1 - i / 2 by omega, show (2 + i) % 2 = i % 2 by omega]
            rfl)
        rwa [show 2 + min (2 * n) (s.wp.toNat - 2) = min (2 * (n + 1)) s.wp.toNat by omega] at this
    · rw [if_neg hw] at hp
      refine ⟨c, ?_, ?_⟩
      · simp only [forDown_succ, storeFreq, hp, Res.bind_raised]
        rw [if_neg (by omega)]
      · rw [show min (2 * (n + 1)) s.wp.toNat = min 2 s.wp.toNat by omega]
        refine ⟨fun i hi => ?_, hP.2⟩
        have h2 : i / 2 = 0 ∧ i % 2 = i ∧ 2 - 1 - i = 1 - i := by omega
        simp only [hP.1 i hi, h2, Nat.add_sub_cancel, Nat.sub_zero]

/-! ### The source -/

/-- GetByte inside the window. -/
theorem getByte_ok {s : State} (h : 0 < s.window) : getByte s = .ok (s.setRp (s.rp + 1)) (s.readStr s.rp.toNat) := by
  rcases getByte_cases s with ⟨h0, -⟩ | ⟨-, h1⟩
  · omega
  · exact h1

/-- GetByte at the end of the window. -/
theorem getByte_end {s : State} (h : s.window = 0) : getByte s = .raised s .truncatedInput := by
  rcases getByte_cases s with ⟨-, h1⟩ | ⟨h0, -⟩
  · exact h1
  · omega

theorem rp_add_lt {s : State} {n : Nat} (h : n ≤ s.window) : s.rp.toNat + n < 2 ^ 64 := by
  have h1 := s.rp.isLt
  have h2 := s.rend.isLt
  have h3 := s.strCap.isLt
  simp only [State.window] at h
  omega

/-- Moving RP up by `n` bytes of the window. -/
theorem window_setRp {s : State} {n : Nat} (h : n ≤ s.window) :
    (s.setRp (s.rp + BitVec.ofNat 64 n)).window = s.window - n := by
  have h' := rp_add_lt h
  simp only [State.window, State.setRp_rend, State.setRp_strCap, State.setRp_rp, toNat_add_ofNat h'] at *
  omega

/-- Pulling `n` bytes: their little-endian value where the window holds them, else TruncatedInput at its end. -/
theorem pullBytes_spec (n : Nat) (s : State) :
    pullBytes n s =
      if n ≤ s.window then .ok (s.setRp (s.rp + BitVec.ofNat 64 n)) (s.littleEndian s.rp.toNat n)
      else .raised (s.setRp (s.rp + BitVec.ofNat 64 s.window)) .truncatedInput := by
  induction n with
  | zero => simp [pullBytes, State.littleEndian, State.setRp]
  | succ n ih =>
    rw [pullBytes, ih]
    by_cases hn : n ≤ s.window
    · rw [if_pos hn, Res.bind_ok]
      have hwin := window_setRp hn
      by_cases hn1 : n + 1 ≤ s.window
      · rw [if_pos hn1, getByte_ok (by omega)]
        have h' := rp_add_lt hn
        have hadd : s.rp + BitVec.ofNat 64 n + 1 = s.rp + BitVec.ofNat 64 (n + 1) := by
          rw [BitVec.ofNat_add, BitVec.add_assoc]
          rfl
        simp only [Res.bind_ok, State.setRp_rp, hadd, State.littleEndian, toNat_add_ofNat h']
        rfl
      · rw [if_neg hn1, getByte_end (by omega)]
        simp only [Res.bind_raised, show s.window = n by omega]
    · rw [if_neg hn, if_neg (by omega), Res.bind_raised]

/-! ### EPUT's loop -/

/-- EPUT's loop ends after `c` bytes when `c` is the first count at which the state is below the limit. -/
theorem putLoop_ok {limit j : Nat} (hj : j < 4) (c fuel : Nat) (s : State) (hc : s.wp.toNat ≤ s.strCap.toNat)
    (hf : c ≤ fuel) (hge : ∀ i, i < c → limit ≤ (s.r.get j).toNat / 256 ^ i) (hlt : (s.r.get j).toNat / 256 ^ c < limit)
    (hw : c ≤ s.wp.toNat) :
    ∃ cells, putLoop limit j fuel s =
        .ok ((s.sunk c cells).setR j (BitVec.ofNat 32 ((s.r.get j).toNat / 256 ^ c))) () ∧
      Pushed s (s.sunk c cells) c fun i => byteOf (s.r.get j).toNat i := by
  induction c generalizing s fuel with
  | zero =>
    refine ⟨s.str, ?_, by simp [Pushed, sunk_zero]⟩
    have : s.setR j (s.r.get j) = s := by simp [State.setR, Table.set_get s.r j hj]
    cases fuel <;> simp_all [putLoop, sunk_zero]
  | succ c ih =>
    obtain ⟨fuel, rfl⟩ : ∃ g, fuel = g + 1 := ⟨fuel - 1, by omega⟩
    obtain ⟨cells, hp, hP⟩ := putByte_ok (byteOf (s.r.get j).toNat 0) (s := s) (by omega) hc
    have hwp : (s.sunk 1 cells).wp.toNat = s.wp.toNat - 1 := toNat_sub_ofNat (by omega)
    have hr : ((s.sunk 1 cells).setR j (s.r.get j >>> 8)).r.get j = s.r.get j >>> 8 := Table.get_set_self _ _ _
    have hx : (s.r.get j >>> 8).toNat = (s.r.get j).toNat / 256 := by
      rw [BitVec.toNat_ushiftRight, Nat.shiftRight_eq_div_pow]
    have hdiv : ∀ i, (s.r.get j).toNat / 256 / 256 ^ i = (s.r.get j).toNat / 256 ^ (i + 1) := by
      intro i
      rw [Nat.div_div_eq_div_mul, Nat.pow_succ, Nat.mul_comm]
    obtain ⟨cells', hq, hQ⟩ := ih fuel ((s.sunk 1 cells).setR j (s.r.get j >>> 8))
      (by show (s.sunk 1 cells).wp.toNat ≤ s.strCap.toNat; omega) (by omega)
      (fun i hi => by rw [hr, hx, hdiv]; exact hge (i + 1) (by omega)) (by rw [hr, hx, hdiv]; exact hlt)
      (by show c ≤ (s.sunk 1 cells).wp.toNat; omega)
    rw [hr, hx, hdiv] at hq
    refine ⟨cells', ?_, ?_⟩
    · have h0 : limit ≤ (s.r.get j).toNat := by simpa using hge 0 (by omega)
      rw [putLoop, if_pos h0, hp, Res.bind_ok]
      show putLoop limit j fuel ((s.sunk 1 cells).setR j (s.r.get j >>> 8)) = _
      rw [hq, Nat.add_comm c 1, ← sunk_sunk s 1 c cells cells']
      simp only [State.sunk, State.setR, State.setWp, State.setStr, Table.set_set]
    · rw [hr, hx] at hQ
      have hQ' : Pushed (s.sunk 1 cells) (s.sunk (c + 1) cells') c fun i => byteOf ((s.r.get j).toNat / 256) i := by
        rw [Nat.add_comm c 1, ← sunk_sunk s 1 c cells cells']
        exact hQ
      have := hP.append hQ' hwp (d := fun i => byteOf (s.r.get j).toNat i) (by omega)
        (fun i hi => by simp [show i = 0 by omega]) (fun i hi => by
          simp only [byteOf, Nat.shiftRight_eq_div_pow, Nat.div_div_eq_div_mul]
          congr 2
          rw [Nat.mul_add, Nat.pow_add])
      rwa [Nat.add_comm 1 c] at this

/-- EPUT's loop with more bytes to shed than room: the room is used up, then Io. -/
theorem putLoop_full {limit j : Nat} (hj : j < 4) (w fuel : Nat) (s : State) (hc : s.wp.toNat ≤ s.strCap.toNat)
    (hw : s.wp.toNat = w) (hf : w < fuel) (hge : ∀ i, i ≤ w → limit ≤ (s.r.get j).toNat / 256 ^ i) :
    ∃ cells, putLoop limit j fuel s =
        .raised ((s.sunk w cells).setR j (BitVec.ofNat 32 ((s.r.get j).toNat / 256 ^ w))) .io ∧
      Pushed s (s.sunk w cells) w fun i => byteOf (s.r.get j).toNat i := by
  induction w generalizing s fuel with
  | zero =>
    obtain ⟨fuel, rfl⟩ : ∃ g, fuel = g + 1 := ⟨fuel - 1, by omega⟩
    have h0 : limit ≤ (s.r.get j).toNat := by simpa using hge 0 (by omega)
    have hw0 : s.wp = 0 := BitVec.eq_of_toNat_eq (by simpa using hw)
    refine ⟨s.str, ?_, by simp [Pushed, sunk_zero]⟩
    have : s.setR j (s.r.get j) = s := by simp [State.setR, Table.set_get s.r j hj]
    simp [putLoop, h0, putByte, hw0, sunk_zero, this]
  | succ w ih =>
    obtain ⟨fuel, rfl⟩ : ∃ g, fuel = g + 1 := ⟨fuel - 1, by omega⟩
    obtain ⟨cells, hp, hP⟩ := putByte_ok (byteOf (s.r.get j).toNat 0) (s := s) (by omega) hc
    have hwp : (s.sunk 1 cells).wp.toNat = s.wp.toNat - 1 := toNat_sub_ofNat (by omega)
    have hr : ((s.sunk 1 cells).setR j (s.r.get j >>> 8)).r.get j = s.r.get j >>> 8 := Table.get_set_self _ _ _
    have hx : (s.r.get j >>> 8).toNat = (s.r.get j).toNat / 256 := by
      rw [BitVec.toNat_ushiftRight, Nat.shiftRight_eq_div_pow]
    have hdiv : ∀ i, (s.r.get j).toNat / 256 / 256 ^ i = (s.r.get j).toNat / 256 ^ (i + 1) := by
      intro i
      rw [Nat.div_div_eq_div_mul, Nat.pow_succ, Nat.mul_comm]
    obtain ⟨cells', hq, hQ⟩ := ih fuel ((s.sunk 1 cells).setR j (s.r.get j >>> 8))
      (by show (s.sunk 1 cells).wp.toNat ≤ s.strCap.toNat; omega)
      (by show (s.sunk 1 cells).wp.toNat = w; omega) (by omega)
      (fun i hi => by rw [hr, hx, hdiv]; exact hge (i + 1) (by omega))
    rw [hr, hx, hdiv] at hq
    refine ⟨cells', ?_, ?_⟩
    · have h0 : limit ≤ (s.r.get j).toNat := by simpa using hge 0 (by omega)
      rw [putLoop, if_pos h0, hp, Res.bind_ok]
      show putLoop limit j fuel ((s.sunk 1 cells).setR j (s.r.get j >>> 8)) = _
      rw [hq, Nat.add_comm w 1, ← sunk_sunk s 1 w cells cells']
      simp only [State.sunk, State.setR, State.setWp, State.setStr, Table.set_set]
    · rw [hr, hx] at hQ
      have hQ' : Pushed (s.sunk 1 cells) (s.sunk (w + 1) cells') w fun i => byteOf ((s.r.get j).toNat / 256) i := by
        rw [Nat.add_comm w 1, ← sunk_sunk s 1 w cells cells']
        exact hQ
      have := hP.append hQ' hwp (d := fun i => byteOf (s.r.get j).toNat i) (by omega)
        (fun i hi => by simp [show i = 0 by omega]) (fun i hi => by
          simp only [byteOf, Nat.shiftRight_eq_div_pow, Nat.div_div_eq_div_mul]
          congr 2
          rw [Nat.mul_add, Nat.pow_add])
      rwa [Nat.add_comm 1 w] at this

/-- `emitCount` is the first count of shed bytes at which the state is below a limit that is not 0. -/
theorem emitCount_spec (limit : Nat) (x : Word) (h : 0 < limit) :
    emitCount limit x.toNat ≤ 4 ∧ (∀ i, i < emitCount limit x.toNat → limit ≤ x.toNat / 256 ^ i) ∧
      x.toNat / 256 ^ emitCount limit x.toNat < limit := by
  have hx := x.isLt
  unfold emitCount
  split
  · exact ⟨by omega, fun i hi => absurd hi (by omega), by simpa⟩
  split
  · exact ⟨by omega, fun i hi => by rw [show i = 0 by omega]; simp; omega, by simpa⟩
  split
  · refine ⟨by omega, fun i hi => ?_, by simpa⟩
    rcases show i = 0 ∨ i = 1 by omega with rfl | rfl <;> simp <;> omega
  split
  · refine ⟨by omega, fun i hi => ?_, by simpa⟩
    rcases show i = 0 ∨ i = 1 ∨ i = 2 by omega with rfl | rfl | rfl <;> simp <;> omega
  · refine ⟨by omega, fun i hi => ?_, ?_⟩
    · rcases show i = 0 ∨ i = 1 ∨ i = 2 ∨ i = 3 by omega with rfl | rfl | rfl | rfl <;> simp <;> omega
    · omega

/-! ### DRENORM's loop -/

theorem shiftedIn_congr {s t : State} (hstr : ∀ a, t.readStr a = s.readStr a) (x a n : Nat) :
    t.shiftedIn x a n = s.shiftedIn x a n := by
  induction n with
  | zero => rfl
  | succ n ih => simp only [State.shiftedIn, ih, hstr]

/-- Shifting one byte in first, then the others. -/
theorem shiftedIn_succ' (s : State) (x a n : Nat) :
    s.shiftedIn x a (n + 1) = s.shiftedIn (x * 256 + (s.readStr a).toNat) (a + 1) n := by
  induction n with
  | zero => simp [State.shiftedIn]
  | succ n ih =>
    rw [State.shiftedIn, ih, State.shiftedIn]
    congr 3
    omega

theorem shift_in_toNat (x : Word) (b : Byte) (h : x.toNat < lowerBound) :
    ((x <<< 8) ||| b.setWidth 32).toNat = x.toNat * 256 + b.toNat := by
  have hb := b.isLt
  have h' : x.toNat < 2 ^ 23 := h
  rw [BitVec.toNat_or, BitVec.toNat_shiftLeft, BitVec.toNat_setWidth, Nat.mod_eq_of_lt (show b.toNat < 2 ^ 32 by omega),
    Nat.shiftLeft_eq, Nat.mod_eq_of_lt (by omega), ← Nat.shiftLeft_eq, Nat.shiftLeft_add_eq_or_of_lt hb]

/-- DRENORM's loop, as far as `m` bytes go: while the state is below `L` the next byte is shifted in. -/
theorem renormLoop_steps {j : Nat} (hj : j < 4) (m fuel : Nat) (s : State) (hm : m ≤ s.window)
    (hlt : ∀ i, i < m → s.shiftedIn (s.r.get j).toNat s.rp.toNat i < lowerBound) :
    renormLoop j (m + fuel) s =
      renormLoop j fuel ((s.setRp (s.rp + BitVec.ofNat 64 m)).setR j
        (BitVec.ofNat 32 (s.shiftedIn (s.r.get j).toNat s.rp.toNat m))) := by
  induction m generalizing s with
  | zero =>
    have : (s.setRp s.rp).setR j (s.r.get j) = s := by simp [State.setR, State.setRp, Table.set_get s.r j hj]
    simp [State.shiftedIn, this]
  | succ m ih =>
    have h0 : (s.r.get j).toNat < lowerBound := hlt 0 (by omega)
    set t := (s.setRp (s.rp + 1)).setR j ((s.r.get j <<< 8) ||| (s.readStr s.rp.toNat).setWidth 32) with ht
    have hr : (t.r.get j).toNat = (s.r.get j).toNat * 256 + (s.readStr s.rp.toNat).toNat := by
      rw [ht, State.setR_r, State.setRp_r, Table.get_set_self, shift_in_toNat _ _ h0]
    have hrp : t.rp.toNat = s.rp.toNat + 1 := toNat_add_ofNat (n := 1) (by have := rp_add_lt hm; omega)
    have hwin : t.window = s.window - 1 := window_setRp (s := s) (n := 1) (by omega)
    have hsh : ∀ i, t.shiftedIn (t.r.get j).toNat t.rp.toNat i = s.shiftedIn (s.r.get j).toNat s.rp.toNat (i + 1) := by
      intro i
      rw [hr, hrp, shiftedIn_succ']
      exact shiftedIn_congr (s := s) (t := t) (fun _ => rfl) _ _ _
    rw [show m + 1 + fuel = m + fuel + 1 by omega, renormLoop, if_pos h0, getByte_ok (by omega), Res.bind_ok]
    show renormLoop j (m + fuel) t = _
    rw [ih t (by omega) (fun i hi => by rw [hsh]; exact hlt (i + 1) (by omega)), hsh]
    congr 1
    have hadd : s.rp + 1 + BitVec.ofNat 64 m = s.rp + BitVec.ofNat 64 (m + 1) := by
      rw [Nat.add_comm m 1, BitVec.ofNat_add, BitVec.add_assoc]
      rfl
    simp only [ht, State.setR, State.setRp, Table.set_set, hadd]

end Sys2Proof.Machine
end

