-- ==== Sys2Proof/Laws/Sweep.lean ====
section
/-! SUPPORT. The Vose sweep ends within its bound (log 10): each turn raises `large` or `next_small`. -/

namespace Sys2Proof.Machine

theorem scanFrom_ge (skip : Nat → Bool) (n i : Nat) : i ≤ scanFrom skip n i := by
  induction n generalizing i with
  | zero => exact Nat.le_refl i
  | succ n ih =>
    rw [scanFrom]
    split
    · exact Nat.le_of_succ_le (ih (i + 1))
    · exact Nat.le_refl i

theorem scanFrom_le (skip : Nat → Bool) (n i : Nat) : scanFrom skip n i ≤ i + n := by
  induction n generalizing i with
  | zero => exact Nat.le_refl i
  | succ n ih =>
    rw [scanFrom]
    split
    · have := ih (i + 1)
      omega
    · omega

/-- A scan whose first entry is to be skipped goes past it. -/
theorem scanFrom_gt {skip : Nat → Bool} {n i : Nat} (h : skip i = true) (hn : 0 < n) : i < scanFrom skip n i := by
  obtain ⟨n, rfl⟩ : ∃ m, n = m + 1 := ⟨n - 1, by omega⟩
  rw [scanFrom, if_pos h]
  exact scanFrom_ge skip n (i + 1)

/-- How many turns the sweep can still take. -/
def Sweep.left (v : Sweep) : Nat := (256 - v.large) + (257 - v.nextSmall)

/-- The sweep is over, or its forward cursor is inside the table. -/
def Sweep.sound (v : Sweep) : Prop := v.large < 256 → v.small < 256 → v.nextSmall ≤ 256

theorem sweepStep_sound {height : Nat} {v : Sweep} (hs : v.sound) (hl : v.large < 256) (hm : v.small < 256) :
    (sweepStep height v).sound ∧ (sweepStep height v).left < v.left := by
  have hn := hs hl hm
  simp only [sweepStep]
  set remaining := v.remaining.set v.large (v.remaining.get v.large - (height - v.remaining.get v.small)) with hrem
  have hf : v.nextSmall ≤ scanSmall height remaining v.nextSmall := scanFrom_ge _ _ _
  have hge : v.large ≤ scanLarge height remaining v.large := scanFrom_ge _ _ _
  by_cases ho : (decide (height ≤ v.remaining.get v.large - (height - v.remaining.get v.small)) ||
      decide (v.nextSmall ≤ v.large)) = true
  · refine ⟨fun _ h => ?_, ?_⟩
    · simp only [ho, if_true] at h ⊢
      omega
    · simp only [Sweep.left, ho, if_true]
      omega
  · refine ⟨fun _ _ => ?_, ?_⟩
    · simpa [ho] using hn
    · have hlt : v.large < scanLarge height remaining v.large := by
        refine scanFrom_gt ?_ (by omega)
        have ho' := ho
        simp only [Bool.or_eq_true, decide_eq_true_eq, not_or] at ho'
        simp only [hrem, Table.get_set_self, decide_eq_true_eq]
        omega
      simp only [Sweep.left, if_neg ho]
      omega

theorem sweepLoop_ended {height n : Nat} {v : Sweep} (hs : v.sound) (hn : v.left ≤ n) :
    256 ≤ (sweepLoop height n v).large ∨ 256 ≤ (sweepLoop height n v).small := by
  induction n generalizing v with
  | zero =>
    simp only [sweepLoop]
    simp only [Sweep.left] at hn
    omega
  | succ n ih =>
    rw [sweepLoop]
    split
    · obtain ⟨h, hlt⟩ := sweepStep_sound (height := height) hs ‹_ ∧ _›.1 ‹_ ∧ _›.2
      exact ih h (by omega)
    · omega

/-- `while large < 256 and small < 256` has ended. -/
theorem sweep_ended (height : Nat) (freq : Table Word 8) :
    256 ≤ (sweep height freq).large ∨ 256 ≤ (sweep height freq).small := by
  refine sweepLoop_ended (fun _ h => ?_) ?_
  · simp only [sweepStart] at h ⊢
    omega
  · simp only [Sweep.left, sweepStart, sweepBound]
    omega

end Sys2Proof.Machine
end

