-- ==== Sys2Proof/Tests/Slice0.lean ====
section
/-! SUPPORT. Tests: the smoke test of WellFormed, decoding of words written out from the spec, single commands
against the derived vectors of 95_test_vectors.md, and for every statement with hypotheses a state that meets them. -/

namespace Sys2Proof.Tests

set_option Elab.async false

open Sys2Proof Sys2Proof.Machine

/-! ### States the tests start from -/

/-- The state a command leads to. -/
def after (i : Instr) (s : State) : State :=
  match exec i s with
  | .next t => t
  | _ => s

/-- The bytes of a buffer from address `a` on. -/
def cellsFrom (a : Nat) (bytes : List Byte) : List Host.Cell :=
  match bytes with
  | [] => []
  | b :: rest => (a, b) :: cellsFrom (a + 1) rest

/-- Reset with the source on the given bytes, which end STR. -/
def sourceOf (bytes : List Byte) : State :=
  { State.reset with str := cellsFrom (1024 - bytes.length) bytes, rp := BitVec.ofNat 64 (1024 - bytes.length) }

/-- The finished model and table of one symbol, 0, at `P = 8` (41_alias_table.md R101, R103 worked by hand: bucket 0
is unsplit, every other bucket belongs to its alias 0). -/
def single : State :=
  { State.reset with
    p := .p8
    ms := .valid
    tv := true
    freq := (Table.fill 0 8).set 0 256
    cum := ⟨(Table.fill 256 8).set 0 0, 256⟩
    divider := (Table.tabulate 8 fun i => BitVec.ofNat 32 i).set 0 1
    symId := .tabulate 9 fun k => if k % 2 = 0 then 0 else BitVec.ofNat 8 (k / 2)
    slotFreqs := (Table.tabulate 9 fun k => if k % 2 = 0 then 256 else 0).set 1 256
    slotAdjust := (Table.tabulate 9 fun k => if k % 2 = 0 then 0 else BitVec.ofNat 32 (k / 2)).set 0 1 |>.set 1 0
    aliasRemap := .tabulate 16 fun y => BitVec.ofNat 32 y }

/-- The parts of the table of file 95, section 4.3, `P = 8`, `freq` 0:254, 1:1, 2:1, that the vectors of section 5.2
name. -/
def skewed : State :=
  { State.reset with
    p := .p8
    ms := .valid
    tv := true
    freq := (((Table.fill 0 8).set 0 254).set 1 1).set 2 1
    cum := ⟨(((Table.fill 256 8).set 0 0).set 1 254).set 2 255, 256⟩
    divider := (Table.fill 0 8).set 1 2
    symId := (Table.fill 0 9).set 3 1
    slotFreqs := (Table.fill 0 9).set 3 1
    slotAdjust := (Table.fill 0 9).set 3 1
    aliasRemap := (((Table.fill 0 16).set 4 6).set 254 1).set 255 2 }

theorem single_model : ModelOk single where
  first := by decide +kernel
  step := by decide +kernel
  total := by decide +kernel

theorem single_table : TableOk single where
  remapThenDecode := by decide +kernel
  decodeThenRemap := by decide +kernel
  slotFreq := by decide +kernel

/-! ### WellFormed refuses an ill-formed command for each check (30_encoding.md R72) -/

theorem test_wellFormed_accepts :
    wellFormed (.cfg 4 16) && wellFormed (.cfg 1 8) && wellFormed (.eput 3 0xFF) && wellFormed .lld = true := by
  decide

theorem test_wellFormed_interleave :
    (wellFormed (.cfg 0 14), wellFormed (.cfg 3 16), wellFormed (.cfg 8 14)) = (false, false, false) := by
  decide

theorem test_wellFormed_scale : (wellFormed (.cfg 1 7), wellFormed (.cfg 1 17)) = (false, false) := by decide

theorem test_wellFormed_stream :
    (wellFormed (.einit 4), wellFormed (.eput 4 0), wellFormed (.eflush 15)) = (false, false, false) ∧
      (wellFormed (.dinit 4), wellFormed (.dget 4), wellFormed (.drenorm 4)) = (false, false, false) := by
  decide

/-! ### Words written out from 30_encoding.md R71 and R73: `op z1 a z2 imm` (the words of file 95, section 2) -/

theorem test_decode_system :
    decode 0b00000000_0000_0000_00000000_00000000 = .ok .nop ∧
      decode 0b00000001_0000_0010_00000000_00010000 = .ok (.cfg 2 16) ∧
      decode 0b00000010_0000_0000_00000000_00000000 = .ok .srst := by
  decide

theorem test_decode_model :
    decode 0b00010000_0000_0000_00000000_00000000 = .ok .fclr ∧
      decode 0b00010001_0000_0000_00000000_11111111 = .ok (.fcnt 0xFF) ∧
      decode 0b00010010_0000_0000_00000000_00000000 = .ok .fscan ∧
      decode 0b00010011_0000_0000_00000000_00000000 = .ok .fnorm ∧
      decode 0b00010100_0000_0000_00000000_00000000 = .ok .fld ∧
      decode 0b00010101_0000_0000_00000000_00000000 = .ok .fst ∧
      decode 0b00100000_0000_0000_00000000_00000000 = .ok .abld := by
  decide

theorem test_decode_encode_side :
    decode 0b00110000_0000_0000_00000000_00000000 = .ok (.einit 0) ∧
      decode 0b00110001_0000_0011_00000000_11111111 = .ok (.eput 3 0xFF) ∧
      decode 0b00110010_0000_0011_00000000_00000000 = .ok (.eflush 3) ∧
      decode 0b00111000_0000_0000_00000000_00000000 = .ok .enc := by
  decide

theorem test_decode_decode_side :
    decode 0b01000000_0000_0001_00000000_00000000 = .ok (.dinit 1) ∧
      decode 0b01000001_0000_0000_00000000_00000000 = .ok (.dget 0) ∧
      decode 0b01000010_0000_0011_00000000_00000000 = .ok (.drenorm 3) ∧
      decode 0b01001000_0000_0000_00000000_00000000 = .ok .dec := by
  decide

theorem test_decode_stream :
    decode 0b01010000_0000_0000_00000000_00000000 = .ok .sclr ∧
      decode 0b01010001_0000_0000_00000000_00000000 = .ok .rewind ∧
      decode 0b01010010_0000_0000_00000000_00000000 = .ok .lst ∧
      decode 0b01010011_0000_0000_00000000_00000000 = .ok .lld := by
  decide

/-- The illegal words of file 95, section 2. -/
theorem test_decode_illegal :
    decode 0xFF000000 = .error .unlistedOpcode ∧ decode 0x03000000 = .error .unlistedOpcode ∧
      decode 0x00000001 = .error .immNotZero ∧ decode 0x00100000 = .error .z1NotZero ∧
      decode 0x38000001 = .error .immNotZero ∧ decode 0x0101010E = .error .z2NotZero ∧
      decode 0x11010000 = .error .aNotZero := by
  decide

/-- A word whose operands are illegal decodes; executing it as the first word after reset is IllegalCommand (file 95,
section 2). -/
theorem test_illegal_operands :
    [(0x01030010 : Word), 0x0100000E, 0x0108000E, 0x01010007, 0x01010011, 0x31010041, 0x41040000, 0x31000042].all
      (fun w =>
        match step { State.reset with inputs := [.command w] } with
        | .next t => decide (t.fault = some .illegalCommand ∧ t.fcmd = w ∧ t.cc = 0)
        | _ => false) = true := by
  decide +kernel

/-! ### Single commands against file 95 -/

/-- Section 7, NOP. -/
theorem test_nop : after .nop { State.reset with cc := 7 } = { State.reset with cc := 8 } := by decide +kernel

/-- Section 7, CFG. -/
theorem test_cfg :
    let t := after (.cfg 1 12)
      { single with k := .four, p := .p12, r := (Table.fill 0x00800000 2).set 3 0x01234567, len := 5 }
    (t.cfgWord, t.ms, t.tv, t.r.get 3, t.len, t.cc) = (0x0001000C, .raw, false, 0x01234567, 5, 1) ∧
      t.freq.get 0 = 0 ∧ t.cum.entry 256 = 0 := by
  decide +kernel

/-- Section 9, program P4: SRST in the faulted state keeps the buffers. -/
theorem test_srst :
    let t := after .srst { single with fault := some .truncatedInput, fcmd := 0x48000000, cc := 14, str := [(498, 0x0B)] }
    (t.fault, t.fcmd, t.cc, t.cfgWord, t.ms, t.tv) = (none, 0, 0, 0x0001000E, .raw, false) ∧ t.readStr 498 = 0x0B := by
  decide +kernel

/-- R90. -/
theorem test_fclr :
    let t := after .fclr single
    (t.ms, t.tv, t.freq.get 0, t.cum.entry 256, t.cc) = (.raw, false, 0, 0, 1) := by
  decide +kernel

/-- Section 3, FCNT with halving. -/
theorem test_fcnt_halves :
    let t := after (.fcnt 7)
      { State.reset with freq := (((Table.fill 0 8).set 7 0x00FFFFFF).set 3 5).set 4 1 }
    (t.freq.get 7, t.freq.get 3, t.freq.get 4, t.freq.get 9) = (0x00800000, 3, 1, 0) := by
  decide +kernel

/-- Section 3, FCNT without halving. -/
theorem test_fcnt_counts :
    let t := after (.fcnt 7) { State.reset with freq := ((Table.fill 0 8).set 7 0x00FFFFFE).set 3 5 }
    (t.freq.get 7, t.freq.get 3) = (0x00FFFFFF, 5) := by
  decide +kernel

/-- Section 3, FSCAN of `BANANAS`. -/
theorem test_fscan :
    let t := after .fscan
      { State.reset with len := 7, msg := cellsFrom 0 [0x42, 0x41, 0x4E, 0x41, 0x4E, 0x41, 0x53] }
    (t.freq.get 0x41, t.freq.get 0x42, t.freq.get 0x4E, t.freq.get 0x53, t.freq.get 0) = (3, 1, 2, 1, 0) := by
  decide +kernel

/-- Section 3, FNORM vector V1: one repair, from a donor below the receiver. -/
theorem test_fnorm_repairs_upward :
    let t := after .fnorm
      { State.reset with p := .p8, freq := (((Table.fill 0 8).set 0 1000).set 1 1).set 2 1 }
    (t.freq.get 0, t.freq.get 1, t.freq.get 2, t.ms, t.cum.entry 1, t.cum.entry 2, t.cum.entry 256) =
      (254, 1, 1, .valid, 254, 255, 256) := by
  decide +kernel

/-- Section 3, FNORM vector V3: two repairs, from a donor above the receivers. -/
theorem test_fnorm_repairs_downward :
    let t := after .fnorm
      { State.reset with p := .p8, freq := (((Table.fill 0 8).set 0 1).set 1 1).set 255 5000 }
    (t.freq.get 0, t.freq.get 1, t.freq.get 255, t.ms) = (1, 1, 254, .valid) := by
  decide +kernel

/-- Section 3, FLD on a window of five bytes. -/
theorem test_fld_truncated :
    let t := after .fld (sourceOf [1, 2, 3, 4, 5])
    (t.fault, t.freq.get 0, t.freq.get 1, t.freq.get 2, t.rp, t.cc) =
      (some .truncatedInput, 0x0201, 0x0403, 0, 1024, 0) := by
  decide +kernel

/-- Section 3, FST: `P = 16`, `freq[7] = 65536` faults before any byte. -/
theorem test_fst_faults :
    let t := after .fst { State.reset with p := .p16, ms := .valid, freq := (Table.fill 0 8).set 7 65536 }
    (t.fault, t.fcmd, t.wp, t.str) = (some .invariantViolation, 0x15000000, 1024, []) := by
  decide +kernel

/-- R97: with room for three bytes, words 255 and 254 go high byte first. -/
theorem test_fst_pushes :
    let t := after .fst
      { State.reset with ms := .valid, wp := 3, freq := ((Table.fill 0 8).set 255 0x1234).set 254 0x5678 }
    (t.fault, t.wp, t.readStr 2, t.readStr 1, t.readStr 0) = (some .io, 0, 0x12, 0x34, 0x56) := by
  decide +kernel

/-- R100: on an EMPTY model. -/
theorem test_abld_empty : (after .abld { State.reset with ms := .empty, tv := true }).tv = false := by decide +kernel

/-- R110. -/
theorem test_einit :
    let t := after (.einit 3) { State.reset with k := .four, r := .fill 5 2 }
    (t.r.get 3, t.r.get 2) = (0x00800000, 5) := by
  decide +kernel

/-- Section 5.2, `P = 8`, `EPUT 0, 1`: one byte emitted. -/
theorem test_eput_emits :
    let t := after (.eput 0 1) skewed
    (t.r.get 0, t.wp, t.readStr 1023) = (0x00800001, 1023, 0x00) := by
  decide +kernel

/-- Section 5.2, `P = 8`, `EPUT 0, 0`: no byte emitted. -/
theorem test_eput_stays :
    let t := after (.eput 0 0) skewed
    (t.r.get 0, t.wp) = (0x00810206, 1024) := by
  decide +kernel

/-- Section 5.2, EFLUSH. -/
theorem test_eflush :
    let t := after (.eflush 0) { State.reset with r := .fill 0x2B8934A8 2 }
    (t.readStr 1020, t.readStr 1021, t.readStr 1022, t.readStr 1023) = (0xA8, 0x34, 0x89, 0x2B) := by
  decide +kernel

/-- Vector F6: the second EFLUSH finds room for two bytes. -/
theorem test_eflush_full :
    let t := after (.eflush 0) { State.reset with strCap := 6, wp := 2, cc := 1 }
    (t.fault, t.fcmd, t.cc, t.wp, t.readStr 0, t.readStr 1) = (some .io, 0x32000000, 1, 0, 0x80, 0x00) := by
  decide +kernel

/-- Section 6, `LEN = 0`: ENC pushes one flush of `L` per state. -/
theorem test_enc_empty :
    let t := after .enc { State.reset with k := .two }
    (t.wp, t.readStr 1016, t.readStr 1017, t.readStr 1018, t.readStr 1019) = (1016, 0x00, 0x00, 0x80, 0x00) := by
  decide +kernel

/-- Section 1.1, case 2, at `P = 8`: a symbol with `f = M` leaves the state at `L`. -/
theorem test_enc_single :
    let t := after .enc { single with len := 1, msg := [(0, 0)] }
    (t.fault, t.wp, t.r.get 0, t.readStr 1022) = (none, 1020, 0x00800000, 0x80) := by
  decide +kernel

/-- Section 5.2, DINIT. -/
theorem test_dinit : (after (.dinit 0) (sourceOf [0xA8, 0x34, 0x89, 0x2B])).r.get 0 = 0x2B8934A8 := by decide +kernel

/-- R113 and R152: three bytes are read before the fault, `r[0]` is not written. -/
theorem test_dinit_truncated :
    let t := after (.dinit 0) (sourceOf [1, 2, 3])
    (t.fault, t.rp, t.r.get 0) = (some .truncatedInput, 1024, 0x00800000) := by
  decide +kernel

/-- Section 5.2, `P = 8`, `DGET 0`: the primary slot of bucket 1. -/
theorem test_dget :
    let t := after (.dget 0) { skewed with r := .fill 0x00800001 2 }
    (t.r.get 0, t.symo) = (0x00008000, 1) := by
  decide +kernel

/-- Section 5.2, DRENORM: leading zero bytes do not count. -/
theorem test_drenorm :
    let t := after (.drenorm 0) { sourceOf [0, 0, 1, 2, 3, 4] with r := .fill 0 2 }
    (t.r.get 0, t.rp, t.cc) = (0x01020304, 1024, 1) := by
  decide +kernel

/-- Section 5.2, DRENORM on a source that runs out. -/
theorem test_drenorm_truncated :
    let t := after (.drenorm 0) { sourceOf [0, 0] with r := .fill 1 2 }
    (t.fault, t.r.get 0, t.rp) = (some .truncatedInput, 0x00010000, 1024) := by
  decide +kernel

/-- Section 6, `LEN = 0`: DEC reads `4 * K` bytes and leaves SYMO. -/
theorem test_dec_empty :
    let t := after .dec { sourceOf [1, 0, 0, 0, 2, 0, 0, 0] with k := .two, symo := 9 }
    (t.fault, t.rp, t.r.get 0, t.r.get 1, t.symo) = (none, 1024, 1, 2, 9) := by
  decide +kernel

/-- Section 1.1, case 2, at `P = 8`. -/
theorem test_dec_single :
    let t := after .dec { single with len := 1, symo := 9, rp := 1020, str := cellsFrom 1020 [0x00, 0x00, 0x80, 0x00] }
    (t.fault, t.rp, t.r.get 0, t.symo, t.readMsg 0) = (none, 1024, 0x00800000, 0, 0) := by
  decide +kernel

/-- Section 7, SCLR. -/
theorem test_sclr :
    let t := after .sclr { State.reset with wp := 498, rp := 3, rend := 4 }
    (t.wp, t.rp, t.rend) = (1024, 3, 4) := by
  decide +kernel

/-- Section 7, REWIND. -/
theorem test_rewind :
    let t := after .rewind { State.reset with wp := 498, rp := 3, rend := 4 }
    (t.wp, t.rp, t.rend) = (498, 498, 1024) := by
  decide +kernel

/-- Section 7, LST with the length `0x0102030405060708`, `STR_CAP = 64`. -/
theorem test_lst :
    let t := after .lst { State.reset with strCap := 64, wp := 64, len := 0x0102030405060708 }
    (t.wp, t.readStr 56, t.readStr 57, t.readStr 62, t.readStr 63) = (56, 0x08, 0x07, 0x02, 0x01) := by
  decide +kernel

/-- Section 7, LLD at `MSG_CAP = 64`: 64 is accepted. -/
theorem test_lld_accepts :
    let t := after .lld (sourceOf [0x40, 0, 0, 0, 0, 0, 0, 0])
    (t.fault, t.len, t.rp) = (none, 64, 1024) := by
  decide +kernel

/-- Section 7, LLD at `MSG_CAP = 64`: 65 is BadHeader, LEN unchanged, RP past the eight bytes. -/
theorem test_lld_rejects :
    let t := after .lld { sourceOf [0x41, 0, 0, 0, 0, 0, 0, 0] with len := 9 }
    (t.fault, t.fcmd, t.len, t.rp) = (some .badHeader, 0x53000000, 9, 1024) := by
  decide +kernel

/-- Vector F9: in the faulted state a command and an illegal word are discarded. -/
theorem test_discarded :
    let s := { State.reset with fault := some .io, fcmd := 0x32000000 }
    after .fclr s = s ∧ rejectWord 0x02000001 s = s := by
  decide +kernel

/-! ### For every statement with hypotheses, what meets them -/

/-- Every command answers a next state. -/
theorem exec_after (i : Instr) (s : State) : exec i s = .next (after i s) := by
  have h : ∃ t, exec i s = .next t := by
    cases i
    case srst => exact ⟨_, rfl⟩
    all_goals
      simp only [exec, execNop, execCfg, execFclr, execFcnt, execFscan, execFnorm, execFld, execFst, execAbld, execEinit,
        execEput, execEflush, execEnc, execDinit, execDget, execDrenorm, execDec, execSclr, execRewind, execLst, execLld]
      exact issue_next _ _ s
  obtain ⟨t, ht⟩ := h
  simp [after, ht]

/-- A VALID state with the pointers and buffers in range and no fault is a state a run can reach. -/
theorem stateOk_valid {s : State} (hm : s.msgCap = 64) (hs : s.strCap = 1024) (hmsg : Memory.wf 64 s.msg = true)
    (hstr : Memory.wf 1024 s.str = true) (hw : s.wp.toNat ≤ 1024) (hv : s.ms = .valid) (hf : s.fcmd = 0) : StateOk s where
  msgCapInRange := by rw [hm]; decide
  strCapInRange := by rw [hs]; decide
  msgWf := by rw [hm]; exact hmsg
  strWf := by rw [hs]; exact hstr
  wpInside := by rw [hs]; exact hw
  tvValid := fun _ => hv
  emptyZero := fun h => by simp [hv] at h
  rawBounded := fun h => by simp [hv] at h
  fcmdClear := fun _ => hf

/-- `single` with the message `00`, the sink at `wp`, the source at `rp` and `r[0]` given. -/
def ready (len wp rp : Nat) (r : Word) (str : List Host.Cell) : State :=
  { single with
    len := BitVec.ofNat 64 len
    wp := BitVec.ofNat 64 wp
    rp := BitVec.ofNat 64 rp
    r := .fill r 2
    msg := [(0, 0)]
    str := str }

theorem ready_model (len wp rp : Nat) (r : Word) (str : List Host.Cell) : ModelOk (ready len wp rp r str) :=
  ⟨single_model.first, single_model.step, single_model.total⟩

theorem ready_table (len wp rp : Nat) (r : Word) (str : List Host.Cell) : TableOk (ready len wp rp r str) :=
  ⟨single_table.remapThenDecode, single_table.decodeThenRemap, single_table.slotFreq⟩

/-- EncodeOfDecode. -/
theorem witness_EncodeOfDecode : decode 0x310300FF = .ok (.eput 3 0xFF) := by decide

/-- WordSpellsRowByMask: a word with every operand bit set spells a row; a word one bit away spells none. -/
theorem witness_WordSpellsRowByMask :
    (∃ row ∈ specRows, (0x310F00FF : Word) &&& row.mask = row.pattern) ∧
      ∀ row ∈ specRows, (0x310F01FF : Word) &&& row.mask ≠ row.pattern := by
  decide

theorem witness_StepRunsDecodedCommand :
    let s := { State.reset with inputs := [.command 0x11000041, .command 0] }
    s.inputs = .command 0x11000041 :: [.command 0] ∧ decode 0x11000041 = .ok (.fcnt 0x41) ∧ State.reset.inputs = [] := by
  decide +kernel

theorem witness_IllegalWordRaises :
    let s := { State.reset with inputs := [.command 0x02000001] }
    s.inputs = .command 0x02000001 :: [] ∧ s.fault = none ∧ decode 0x02000001 = .error .immNotZero := by
  decide +kernel

/-- FaultedState: one state for each clause, a legal and an illegal word, each write, each way out. -/
theorem witness_FaultedState :
    let f := { State.reset with fault := some .io, fcmd := 0x32000000 }
    f.fault ≠ none ∧ (0x00000000 : Word) ≠ 0x02000000 ∧ (0x02000001 : Word) ≠ 0x02000000 ∧
      step { f with inputs := [.writeReg 5 1] } = .next { f with len := 1 } ∧
        step { f with inputs := [.writeMsg 63 1] } = .next { f with msg := [(63, 1)] } ∧
          step { f with inputs := [.writeStr 1023 1] } = .next { f with str := [(1023, 1)] } ∧
            step { f with inputs := [.command 0x02000000] } = .next { State.reset with aliasEpoch := 1 } ∧
              step { f with inputs := [.resetInput false] } = .next { State.reset with aliasEpoch := 1 } ∧
                step { f with inputs := [.resetInput true] } =
                  .next { State.reset with aliasEpoch := 1, bufEpoch := 1 } ∧
                  step { f with inputs := [.powerOn] } = .next { State.reset with aliasEpoch := 1, bufEpoch := 1 } :=
  ⟨by decide, by decide, by decide, rfl, rfl, rfl, rfl, rfl, rfl, rfl⟩

/-- InadmissibleCommandRaises, at `j = K`, at `LEN = MSG_CAP + 1`, and in the wrong model status. -/
theorem witness_InadmissibleCommandRaises :
    State.reset.fault = none ∧ ¬ AdmittedBySpec (.einit 1) State.reset ∧
      ¬ AdmittedBySpec .fscan { State.reset with len := 65 } ∧ ¬ AdmittedBySpec .fst State.reset ∧
        ¬ AdmittedBySpec (.cfg 3 16) State.reset := by
  simp only [AdmittedBySpec, StreamInUse]
  decide

/-- EveryCommandEnds: a command for each of the four ends. -/
theorem witness_EveryCommandEnds :
    (Instr.nop ≠ .srst ∧ Instr.dinit 0 ≠ .srst) ∧ ¬ AdmittedBySpec .abld State.reset ∧
      (AdmittedBySpec .nop State.reset ∧ (after .nop State.reset).fault = none) ∧
        (AdmittedBySpec (.dinit 0) State.reset ∧ (after (.dinit 0) State.reset).fault ≠ none) := by
  simp only [AdmittedBySpec, StreamInUse]
  decide +kernel

theorem witness_ResetInputResets :
    ({ State.reset with inputs := [.resetInput false] }).inputs = .resetInput false :: [] ∧
      ({ State.reset with inputs := [.resetInput true] }).inputs = Input.resetInput true :: [] ∧
        ({ State.reset with inputs := [.powerOn] }).inputs = Input.powerOn :: [] :=
  ⟨rfl, rfl, rfl⟩

/-- HostReadsTablesAndBuffers: `TV = 1`, the last index of `alias_remap[0..M)`, and a read of the last `sym_id` entry at
`TV = 0`. -/
theorem witness_HostReadsTablesAndBuffers :
    (single.tv = true ∧ 255 < 2 ^ single.p.exponent) ∧ State.reset.tv = false ∧
      ∃ v, portReadTable State.reset (.derived .symId) 511 = some v :=
  ⟨by decide, rfl, _, rfl⟩

theorem witness_HostWritesRegisters :
    ({ State.reset with inputs := [.writeReg 12 7] }).inputs = .writeReg 12 7 :: [] := rfl

/-- HostWritesBuffers: the last byte of each buffer and the first address past it. -/
theorem witness_HostWritesBuffers :
    63 < State.reset.msgCap.toNat ∧ 1023 < State.reset.strCap.toNat ∧ State.reset.msgCap.toNat ≤ 64 ∧
      State.reset.strCap.toNat ≤ 1024 ∧
        ({ State.reset with inputs := [.writeMsg 64 1] }).inputs = .writeMsg 64 1 :: [] ∧
          ({ State.reset with inputs := [.writeStr 1023 1] }).inputs = .writeStr 1023 1 :: [] := by
  decide

/-- StepKeepsStateOk and StepKeepsModelAndTable: a reachable state with a valid table and a pending command. -/
theorem witness_StepKeeps :
    RunOk { ready 1 1024 1024 0x00800000 [] with inputs := [.command 0x38000000] } ∧
      step { ready 1 1024 1024 0x00800000 [] with inputs := [.command 0x38000000] } =
        .next (after .enc (ready 1 1024 1024 0x00800000 [])) :=
  ⟨⟨stateOk_valid rfl rfl rfl rfl (by decide) rfl rfl, fun _ => ⟨single_model.first, single_model.step, single_model.total⟩,
    fun _ => ⟨single_table.remapThenDecode, single_table.decodeThenRemap, single_table.slotFreq⟩⟩, by
    have hw : decode 0x38000000 = .ok .enc := by decide
    simp only [step, perform, present, hw]
    exact exec_after .enc (ready 1 1024 1024 0x00800000 [])⟩

/-- ResetIsOk: the ends of both ranges. -/
theorem witness_ResetIsOk :
    (1 ≤ (1 : DWord).toNat ∧ (0xFFFFFFFF : DWord).toNat < 2 ^ 32) ∧ (0x7FFFFFFFFFFFFFFF : DWord).toNat < 2 ^ 63 := by
  decide

/-- NopOnlyCounts, FclrClears, SclrAndRewindSetPointers, InvariantViolationBeforeAnyByte, EmptyModelCommands and
SourceRunsOut share their first hypothesis. -/
theorem witness_noFault :
    State.reset.fault = none ∧ ({ State.reset with fault := some FaultKind.io }).fault ≠ none := by
  decide

/-- CfgSetsAndClears: the ends of both ranges, and just outside them. -/
theorem witness_CfgSetsAndClears :
    ((4 : Nibble).toNat = Interleave.four.count ∧ (16 : Byte).toNat = Scale.p16.exponent) ∧
      ((1 : Nibble).toNat = Interleave.one.count ∧ (8 : Byte).toNat = Scale.p8.exponent) ∧
        ((3 : Nibble) ≠ 1 ∧ (3 : Nibble) ≠ 2 ∧ (3 : Nibble) ≠ 4) ∧ (7 : Byte).toNat < 8 ∧ 16 < (17 : Byte).toNat := by
  decide

/-- FcntCounts: the count that becomes `2^24` and the one below it. -/
theorem witness_FcntCounts :
    State.reset.fault = none ∧ State.reset.ms = .raw ∧
      ((((Table.fill 0 8).set 7 0x00FFFFFE : Table Word 8).get 7 + 1).toNat ≠ 2 ^ 24) ∧
        ((((Table.fill 0 8).set 7 0x00FFFFFF : Table Word 8).get 7 + 1).toNat = 2 ^ 24) := by
  decide +kernel

/-- FscanAddsOccurrences: a count that ends just below the limit. -/
theorem witness_FscanAddsOccurrences :
    let s := { State.reset with len := 2, msg := [(0, 7), (1, 7)], freq := (Table.fill 0 8).set 7 0x00FFFFFD }
    s.fault = none ∧ s.ms = .raw ∧ s.len.toNat ≤ s.msgCap.toNat ∧
      ∀ b : Byte, (s.freq.get b.toNat).toNat + s.occurrences b s.len.toNat < 2 ^ 24 := by
  decide +kernel

/-- FscanIsFcntPerByte, at `LEN = MSG_CAP`. -/
theorem witness_FscanIsFcntPerByte :
    let s := { State.reset with len := 64 }
    s.fault = none ∧ s.ms = .raw ∧ s.len.toNat ≤ s.msgCap.toNat := by
  decide

/-- EmptyModelCommands. -/
theorem witness_EmptyModelCommands :
    (State.reset.ms = .raw ∧ ∀ i, i < 256 → State.reset.freq.get i = 0) ∧
      ({ State.reset with ms := ModelStatus.empty }).ms = .empty := by
  decide +kernel

/-- FnormGuarantee: one count, the largest. -/
theorem witness_FnormGuarantee :
    let s := { State.reset with freq := (Table.fill 0 8).set 7 0x00FFFFFF }
    s.fault = none ∧ s.ms = .raw ∧ (∀ i, i < 256 → (s.freq.get i).toNat < 2 ^ 24) ∧ ∃ i, i < 256 ∧ s.freq.get i ≠ 0 :=
  ⟨rfl, rfl, by decide +kernel, 7, by decide, by decide +kernel⟩

/-- FnormRescales: vector V2 of file 95. -/
theorem witness_FnormRescales :
    let s := { State.reset with freq := ((Table.fill 0 8).set 65 1).set 66 1 }
    s.fault = none ∧ s.ms = .raw ∧ (∀ i, i < 256 → (s.freq.get i).toNat < 2 ^ 24) ∧ 0 < s.freqSum 256 ∧
      ∀ i, i < 256 → s.freq.get i ≠ 0 →
        2 ^ s.p.exponent * s.freqSum i / s.freqSum 256 < 2 ^ s.p.exponent * s.freqSum (i + 1) / s.freqSum 256 := by
  decide +kernel

/-- FnormRescales, vector V1 of file 95: a counted symbol has an empty gap, and symbol 0 is the donor. -/
theorem witness_FnormRescales_repair :
    let s := { State.reset with p := .p8, freq := (((Table.fill 0 8).set 0 1000).set 1 1).set 2 1 }
    (s.fault = none ∧ s.ms = .raw ∧ (∀ i, i < 256 → (s.freq.get i).toNat < 2 ^ 24) ∧ s.freqSum 256 = 1002) ∧
      s.freq.get 1 ≠ 0 ∧ 2 ^ 8 * s.freqSum 2 / 1002 - 2 ^ 8 * s.freqSum 1 / 1002 = 0 ∧
        1 < 2 ^ 8 * s.freqSum 1 / 1002 - 2 ^ 8 * s.freqSum 0 / 1002 := by
  decide +kernel

/-- TransferMovesOneUnit, upward and downward. -/
theorem witness_TransferMovesOneUnit :
    let c : CumTable := ⟨(Table.fill 2 8).set 0 0, 4⟩
    (∀ i, i < 256 → (c.entry i).toNat ≤ (c.entry (i + 1)).toNat) ∧ (c.entry 256).toNat ≤ 2 ^ 16 ∧ 1 < c.gap 0 ∧
      1 < c.gap 255 := by
  decide +kernel

theorem lookup_zeros (n a x : Nat) :
    Mem.lookup (cellsFrom a (List.replicate n 0)) x = if a ≤ x ∧ x < a + n then some 0 else none := by
  induction n generalizing a with
  | zero => rw [if_neg (by omega)]; rfl
  | succ n ih =>
    rw [List.replicate_succ, cellsFrom, Mem.lookup, ih]
    repeat' split
    all_goals first | rfl | omega

/-- The source on 512 zero bytes. -/
def zeros (len : DWord) : State :=
  { State.reset with len := len, rp := 512, str := cellsFrom 512 (List.replicate 512 0) }

/-- The source on the table words `40 00` and 255 times `00 00`, high byte second. -/
def mass : State :=
  { State.reset with rp := 512, str := (512, 0) :: (513, 0x40) :: cellsFrom 514 (List.replicate 510 0) }

theorem zeros_sum (len : DWord) (n : Nat) (h : n ≤ 256) : (zeros len).loadedSum n = 0 := by
  have hb : ∀ x, 512 ≤ x → x < 1024 → (zeros len).readStr x = 0 := by
    intro x h1 h2
    simp only [State.readStr, zeros, lookup_zeros, if_pos (show 512 ≤ x ∧ x < 512 + 512 by omega), Option.getD_some]
  induction n with
  | zero => rfl
  | succ n ih =>
    rw [State.loadedSum, ih (by omega)]
    show 0 + (0 + ((zeros len).readStr (512 + 2 * n + 0)).toNat * 256 ^ 0 + ((zeros len).readStr (512 + 2 * n + 1)).toNat * 256 ^ 1) = 0
    rw [hb _ (by omega) (by omega), hb _ (by omega) (by omega)]
    rfl

theorem mass_sum (n : Nat) (h1 : 1 ≤ n) (h : n ≤ 256) : mass.loadedSum n = 2 ^ 14 := by
  have hb : ∀ x, 514 ≤ x → x < 1024 → mass.readStr x = 0 := by
    intro x h1 h2
    simp only [State.readStr, mass, Mem.lookup, lookup_zeros, if_neg (show ¬ x = 512 by omega),
      if_neg (show ¬ x < 512 by omega), if_neg (show ¬ x = 513 by omega), if_neg (show ¬ x < 513 by omega),
      if_pos (show 514 ≤ x ∧ x < 514 + 510 by omega), Option.getD_some]
  induction n, h1 using Nat.le_induction with
  | base => rfl
  | succ n h1 ih =>
    rw [State.loadedSum, ih (by omega)]
    show 2 ^ 14 +
      (0 + (mass.readStr (512 + 2 * n + 0)).toNat * 256 ^ 0 + (mass.readStr (512 + 2 * n + 1)).toNat * 256 ^ 1) = 2 ^ 14
    rw [hb _ (by omega) (by omega), hb _ (by omega) (by omega)]
    rfl

/-- FldLoads: a window of exactly 512 bytes, with the total `M`, with zeros and `LEN = 0`, with zeros and `LEN = 1`. -/
theorem witness_FldLoads :
    ((zeros 0).fault = none ∧ (zeros 0).ms = .raw ∧ (zeros 0).rp.toNat + 512 ≤ (zeros 0).rend.toNat ∧
      (zeros 0).rp.toNat + 512 ≤ (zeros 0).strCap.toNat) ∧
      ((zeros 0).loadedSum 256 = 0 ∧ (zeros 0).len = 0) ∧
        ((zeros 1).loadedSum 256 ≠ 2 ^ (zeros 1).p.exponent ∧ (zeros 1).len ≠ 0) ∧
          mass.loadedSum 256 = 2 ^ mass.p.exponent := by
  refine ⟨⟨rfl, rfl, by decide, by decide⟩, ⟨zeros_sum 0 256 (by omega), rfl⟩, ⟨?_, by decide⟩,
    mass_sum 256 (by omega) (by omega)⟩
  rw [zeros_sum 1 256 (by omega)]
  decide

/-- FldTruncated: one byte short, and no byte at all. -/
theorem witness_FldTruncated :
    let s := { State.reset with rp := 513 }
    s.fault = none ∧ s.ms = .raw ∧ s.window < 512 ∧ State.reset.window < 512 := by
  decide

/-- FstStores and FstThenFldRestores, with exactly 512 bytes of room. -/
theorem witness_FstStores :
    let s := ready 1 512 1024 0x00800000 []
    s.fault = none ∧ s.ms = .valid ∧ ModelOk s ∧ (∀ i, i < 256 → (s.freq.get i).toNat ≤ 0xFFFF) ∧ 512 ≤ s.wp.toNat ∧
      s.wp.toNat ≤ s.strCap.toNat :=
  ⟨rfl, rfl, ready_model _ _ _ _ _, by decide +kernel, by decide, by decide⟩

/-- AbldBuildsTable and AbldPrimariesAndDividers. -/
theorem witness_Abld :
    single.fault = none ∧ single.ms = .valid ∧ ModelOk single ∧ exec .abld single = .next (after .abld single) :=
  ⟨rfl, rfl, single_model, exec_after _ _⟩

/-- AbldBuildsTable and AbldPrimariesAndDividers: two offsets of one symbol, the last of them; two symbols below the
bucket height, 1 the first of them; and the first symbol not below it. -/
theorem witness_Abld_clauses :
    254 < (255 : Nat) ∧ 255 < (single.freq.get 0).toNat ∧
      (let height := 2 ^ (single.p.exponent - 8)
       (single.freq.get 1).toNat < height ∧ (single.freq.get 255).toNat < height ∧
         (∀ x, x < 1 → height ≤ (single.freq.get x).toNat) ∧ height ≤ (single.freq.get 0).toNat ∧
           ∀ x, x < 0 → (single.freq.get x).toNat < height) := by
  decide +kernel

/-- EinitWritesLowerBound and DgetDecodes: the last stream in use, the first not in use, no table. -/
theorem witness_streams :
    State.reset.fault = none ∧ StreamInUse 0 State.reset ∧ ¬ StreamInUse 1 State.reset ∧ State.reset.tv = false ∧
      StreamInUse 0 single ∧ single.tv = true := by
  simp only [StreamInUse]
  decide

/-- EputEncodes: one byte to shed, room for exactly one. -/
theorem witness_EputEncodes :
    let s := ready 1 1 1024 0x80000000 []
    s.fault = none ∧ StreamInUse 0 s ∧ s.tv = true ∧ s.freq.get 0 ≠ 0 ∧
      (s.cum.entry 0).toNat + (s.freq.get 0).toNat ≤ 2 ^ s.p.exponent ∧ s.wp.toNat ≤ s.strCap.toNat ∧
        emitCount (2 ^ (31 - s.p.exponent) * (s.freq.get 0).toNat) (s.r.get 0).toNat = s.wp.toNat := by
  simp only [StreamInUse]
  decide +kernel

/-- EputFullSinkRaises: one byte to shed, no room. -/
theorem witness_EputFullSinkRaises :
    let s := ready 1 0 1024 0x80000000 []
    s.fault = none ∧ StreamInUse 0 s ∧ s.tv = true ∧ s.freq.get 0 ≠ 0 ∧ s.wp.toNat ≤ s.strCap.toNat ∧
      s.wp.toNat < emitCount (2 ^ (31 - s.p.exponent) * (s.freq.get 0).toNat) (s.r.get 0).toNat := by
  simp only [StreamInUse]
  decide +kernel

/-- InvariantViolationBeforeAnyByte: a symbol of frequency 0; an entry of `0x10000`. -/
theorem witness_InvariantViolationBeforeAnyByte :
    (single.fault = none ∧ StreamInUse 0 single ∧ single.tv = true ∧ single.freq.get 1 = 0) ∧
      (let s := { State.reset with ms := .valid, freq := (Table.fill 0 8).set 7 0x10000 }
       s.fault = none ∧ s.ms = .valid ∧ 0xFFFF < (s.freq.get 7).toNat) := by
  simp only [StreamInUse]
  decide +kernel

/-- EflushPushesState, FlushThenInitRestores and LstPushesLength, with exactly the room they take. -/
theorem witness_sink_room :
    let s := { State.reset with wp := 4 }
    let t := { State.reset with wp := 8 }
    s.fault = none ∧ StreamInUse 0 s ∧ 4 ≤ s.wp.toNat ∧ s.wp.toNat ≤ s.strCap.toNat ∧ s.strCap.toNat < 2 ^ 63 ∧ 8 ≤ t.wp.toNat ∧
      t.wp.toNat ≤ t.strCap.toNat := by
  simp only [StreamInUse]
  decide

/-- FullSinkRaises: one byte of room too few for each command. -/
theorem witness_FullSinkRaises :
    let s := { State.reset with ms := ModelStatus.empty, wp := 511 }
    s.fault = none ∧ StreamInUse 0 s ∧ s.wp.toNat ≤ s.strCap.toNat ∧ ({ s with wp := 3 }).wp.toNat < 4 ∧ ({ s with wp := 7 }).wp.toNat < 8 ∧
      s.ms = .empty ∧ (∀ i, i < 256 → (s.freq.get i).toNat ≤ 0xFFFF) ∧ s.wp.toNat < 512 := by
  simp only [StreamInUse]
  decide +kernel

/-- DinitReadsState and DecEmptyMessage: exactly four bytes of window. -/
theorem witness_source_room :
    let s := { State.reset with rp := 1020 }
    s.fault = none ∧ StreamInUse 0 s ∧ s.len = 0 ∧ s.rp.toNat + 4 ≤ s.rend.toNat ∧ s.rp.toNat + 4 ≤ s.strCap.toNat ∧
      4 * s.k.count ≤ s.window := by
  simp only [StreamInUse]
  decide

/-- SourceRunsOut: one byte too few for DINIT and for LLD; a byte that leaves the state below `L`. -/
theorem witness_SourceRunsOut :
    StreamInUse 0 { State.reset with rp := 1021 } ∧ ({ State.reset with rp := 1021 }).window < 4 ∧ ({ State.reset with rp := 1017 }).window < 8 ∧
      (let s := { sourceOf [0xFF] with r := .fill 0x00007FFF 2 }
       StreamInUse 0 s ∧ ∀ i, i ≤ s.window → s.shiftedIn (s.r.get 0).toNat s.rp.toNat i < 0x00800000) := by
  simp only [StreamInUse]
  decide +kernel

/-- DrenormReads: no byte to read, and the last byte of the window. -/
theorem witness_DrenormReads :
    (let s := State.reset
     s.fault = none ∧ StreamInUse 0 s ∧ 0 ≤ s.window ∧ 0x00800000 ≤ s.shiftedIn (s.r.get 0).toNat s.rp.toNat 0) ∧
      (let s := { sourceOf [0x00] with r := .fill 0x00008000 2 }
       s.fault = none ∧ StreamInUse 0 s ∧ 1 ≤ s.window ∧ (∀ i, i < 1 → s.shiftedIn (s.r.get 0).toNat s.rp.toNat i < 0x00800000) ∧
         0x00800000 ≤ s.shiftedIn (s.r.get 0).toNat s.rp.toNat 1) := by
  simp only [StreamInUse]
  decide +kernel

/-- PutThenGetRestores: the top of the interval, two bytes of room. -/
theorem witness_PutThenGetRestores :
    let s := ready 1 2 1024 0x7FFFFFFF []
    s.fault = none ∧ StreamInUse 0 s ∧ s.tv = true ∧ StateOk s ∧ ModelOk s ∧ TableOk s ∧ s.freq.get 0 ≠ 0 ∧
      InInterval (s.r.get 0) ∧ 2 ≤ s.wp.toNat :=
  ⟨rfl, by unfold StreamInUse; decide, rfl, stateOk_valid rfl rfl rfl rfl (by decide) rfl rfl, ready_model _ _ _ _ _,
    ready_table _ _ _ _ _, by decide +kernel, ⟨by decide +kernel, by decide +kernel⟩, by decide⟩

/-- EncCompletes: a message of one byte with exactly the room asked for, and the empty message without a table. -/
theorem witness_EncCompletes :
    (let s := ready 1 7 1024 0 []
     s.fault = none ∧ s.len.toNat ≤ s.msgCap.toNat ∧ s.tv = true ∧
       (∀ i, i < s.len.toNat → s.freq.get (s.readMsg i).toNat ≠ 0) ∧ 4 * s.k.count + 3 * s.len.toNat ≤ s.wp.toNat ∧
         s.wp.toNat ≤ s.strCap.toNat) ∧
      (let s := { State.reset with wp := 4 }
       s.len.toNat = 0 ∧ s.tv = false ∧ 4 * s.k.count + 3 * s.len.toNat ≤ s.wp.toNat) := by
  decide +kernel

/-- EncIsItsPrimitives: an ENC that completes, and one that runs out of room. -/
theorem witness_EncIsItsPrimitives :
    (let s := ready 1 1024 1024 0 []
     s.fault = none ∧ s.len.toNat ≤ s.msgCap.toNat ∧ s.tv = true ∧ exec .enc s = .next (after .enc s) ∧
       (after .enc s).fault = none) ∧
      (let s := ready 1 3 1024 0 []
       s.len.toNat ≤ s.msgCap.toNat ∧ exec .enc s = .next (after .enc s) ∧ (after .enc s).fault = some .io) :=
  ⟨⟨rfl, by decide, rfl, exec_after _ _, by decide +kernel⟩, by decide, exec_after _ _, by decide +kernel⟩

/-- DecCompletes, second part: a DEC that completes, one that runs out of bytes, and the empty message with no table. -/
theorem witness_DecCompletes_primitives :
    (let s := ready 1 1024 1020 0 (cellsFrom 1020 [0x00, 0x00, 0x80, 0x00])
     s.fault = none ∧ s.len.toNat ≤ s.msgCap.toNat ∧ s.tv = true ∧ exec .dec s = .next (after .dec s) ∧
       (after .dec s).fault = none) ∧
      (let s := ready 1 1024 1021 0 []
       exec .dec s = .next (after .dec s) ∧ (after .dec s).fault = some .truncatedInput) ∧
        State.reset.len.toNat = 0 ∧ State.reset.tv = false :=
  ⟨⟨rfl, by decide, rfl, exec_after _ _, by decide +kernel⟩, ⟨exec_after _ _, by decide +kernel⟩, by decide, rfl⟩

/-- DecCompletes: a message of one byte, exactly the window asked for, a start state at `L`. -/
theorem witness_DecCompletes :
    let s := ready 1 1024 1018 0 (cellsFrom 1018 [0x00, 0x00, 0x80, 0x00])
    s.fault = none ∧ s.len.toNat ≤ s.msgCap.toNat ∧ s.tv = true ∧ ModelOk s ∧ TableOk s ∧
      4 * s.k.count + 2 * s.len.toNat ≤ s.window ∧
        ∀ j, j < s.k.count → 0x00800000 ≤ s.littleEndian (s.rp.toNat + 4 * j) 4 :=
  ⟨rfl, by decide, rfl, ready_model _ _ _ _ _, ready_table _ _ _ _ _, by decide, by decide +kernel⟩

/-- DecodeOfEncodedMessage: a message of one byte, and the empty message with no table. -/
theorem witness_DecodeOfEncodedMessage :
    (let s := ready 1 6 1024 0 []
     s.fault = none ∧ s.len.toNat ≤ s.msgCap.toNat ∧ StateOk s ∧ (s.tv = true ∧ ModelOk s ∧ TableOk s) ∧
       (∀ i, i < s.len.toNat → s.freq.get (s.readMsg i).toNat ≠ 0) ∧
         4 * s.k.count + 2 * s.len.toNat ≤ s.wp.toNat) ∧
      (let s := { ready 0 4 1024 0 [] with tv := false }
       StateOk s ∧ s.len.toNat = 0 ∧ 4 * s.k.count + 2 * s.len.toNat ≤ s.wp.toNat) :=
  ⟨⟨rfl, by decide, stateOk_valid rfl rfl rfl rfl (by decide) rfl rfl,
    ⟨rfl, ready_model _ _ _ _ _, ready_table _ _ _ _ _⟩, by decide +kernel, by decide⟩,
    stateOk_valid rfl rfl rfl rfl (by decide) rfl rfl, by decide, by decide⟩

/-- LldLoadsLength: the largest length accepted and the smallest refused. -/
theorem witness_LldLoadsLength :
    (let s := sourceOf [64, 0, 0, 0, 0, 0, 0, 0]
     s.fault = none ∧ s.rp.toNat + 8 ≤ s.rend.toNat ∧ s.rp.toNat + 8 ≤ s.strCap.toNat ∧
       s.littleEndian s.rp.toNat 8 ≤ s.msgCap.toNat) ∧
      (let s := sourceOf [65, 0, 0, 0, 0, 0, 0, 0]
       s.msgCap.toNat < s.littleEndian s.rp.toNat 8) := by
  decide +kernel

/-- SinkCommandFrame, EncodeCommandFrame, SourceCommandFrame and ModelCommandFrame: the commands named, and a state
each leads to from any state. -/
theorem witness_frames (s : State) :
    (∀ i ∈ [Instr.fst, .eflush 0, .lst, .eput 0 0, .enc, .dinit 0, .drenorm 0, .lld, .dec, .fcnt 0, .fscan, .fnorm, .fld,
      .abld], ∃ t, exec i s = .next t) :=
  fun i _ => ⟨_, exec_after i s⟩

end Sys2Proof.Tests
end

/-! ### Every command but SRST is one body under the checks of `issue` -/

section
namespace Sys2Proof.Machine

/-- The pseudocode of a command, as `issue` runs it once its checks have passed (30_encoding.md R79). SRST has no such
checks; its entry is what it does to any state (45_system_commands.md R142). -/
def commandBody : Instr → State → Res Unit
  | .nop => fun t => .ok t ()
  | .cfg k p => fun t =>
    match Interleave.ofField k, Scale.ofField p with
    | some k', some p' => cfgBody k' p' t
    | _, _ => .raised t .illegalCommand
  | .srst => fun t => .ok t.resetKeepingBuffers ()
  | .fclr => fun t => .ok t.clearModel ()
  | .fcnt b => fun t => .ok (t.setFreq (countByte b t.freq)) ()
  | .fscan => fun t => .ok (t.setFreq (countMessage t t.len.toNat)) ()
  | .fnorm => fnormBody
  | .fld => fldBody
  | .fst => fstBody
  | .abld => abldBody
  | .einit j => einitBody j.toNat
  | .eput j sym => eputBody j.toNat sym.toNat
  | .eflush j => eflushBody j.toNat
  | .enc => encBody
  | .dinit j => dinitBody j.toNat
  | .dget j => dgetBody j.toNat
  | .drenorm j => drenormBody j.toNat
  | .dec => decBody
  | .sclr => fun t => .ok (t.setWp t.strCap) ()
  | .rewind => fun t => .ok ((t.setRp t.wp).setRend t.strCap) ()
  | .lst => fun t => pushBytes 8 t.len.toNat t
  | .lld => lldBody

theorem exec_srst (s : State) : exec .srst s = .next s.resetKeepingBuffers := rfl

theorem exec_eq_issue {i : Instr} (hi : i ≠ .srst) (s : State) : exec i s = issue i (commandBody i) s := by
  cases i
  case srst => exact absurd rfl hi
  all_goals rfl

/-! ### From every command's body to every step -/

/-- `P` survives everything a step is made of: taking the host's action, the end of a command, the host's writes, the
resets, and the body of every admitted command. -/
structure StepClosed (P : State → Prop) : Prop where
  withInputs : ∀ s inputs, P s → P (s.withInputs inputs)
  bumpCc : ∀ s, P s → P s.bumpCc
  latch : ∀ s f word, P s → P (s.latch f word)
  setLen : ∀ s v, P s → P (s.setLen v)
  setRp : ∀ s v, P s → P (s.setRp v)
  setRend : ∀ s v, P s → P (s.setRend v)
  writeMsg : ∀ s a b, P s → P (s.writeMsg a b)
  writeStr : ∀ s a b, P s → P (s.writeStr a b)
  resetKeepingBuffers : ∀ s, P s → P s.resetKeepingBuffers
  resetLosingBuffers : ∀ s, P s → P s.resetLosingBuffers
  body : ∀ i s, i ≠ .srst → s.fault = none → admits i s = true → P s → P (commandBody i s).state

section
variable {P : State → Prop} (hP : StepClosed P)
include hP

theorem StepClosed.exec_keeps {i : Instr} {s t : State} (hs : P s) (h : exec i s = .next t) : P t := by
  by_cases hi : i = .srst
  · rw [hi, exec_srst] at h
    obtain rfl := Host.Outcome.next.inj h
    exact hP.resetKeepingBuffers s hs
  · rw [exec_eq_issue hi] at h
    rcases issue_cases h with ⟨-, rfl⟩ | ⟨-, -, rfl⟩ | ⟨hf, ha, ⟨u, hu, rfl⟩ | ⟨u, k, hu, rfl⟩⟩
    · exact hs
    · exact hP.latch s _ _ hs
    · have hb := hP.body i s hi hf ha hs
      rw [hu] at hb
      exact hP.bumpCc u hb
    · have hb := hP.body i s hi hf ha hs
      rw [hu] at hb
      exact hP.latch u k _ hb

theorem StepClosed.rejectWord_keeps (w : Word) {s : State} (hs : P s) : P (rejectWord w s) := by
  unfold rejectWord
  split
  · exact hs
  · exact hP.latch s _ _ hs

theorem StepClosed.present_keeps {w : Word} {s t : State} (hs : P s) (h : present w s = .next t) : P t := by
  unfold present at h
  split at h
  · exact hP.exec_keeps hs h
  · obtain rfl := Host.Outcome.next.inj h
    exact hP.rejectWord_keeps w hs

theorem StepClosed.portWriteReg_keeps (n : Nat) (v : Word) {s : State} (hs : P s) : P (portWriteReg s n v) := by
  unfold portWriteReg
  split
  · exact hP.setLen s _ hs
  · exact hP.setLen s _ hs
  · exact hP.setRp s _ hs
  · exact hP.setRp s _ hs
  · exact hP.setRend s _ hs
  · exact hP.setRend s _ hs
  · exact hs

theorem StepClosed.portWriteMsg_keeps {i : Nat} {b : Byte} {s t : State} (hs : P s)
    (h : portWriteMsg s i b = .next t) : P t := by
  unfold portWriteMsg at h
  split at h
  · obtain rfl := Host.Outcome.next.inj h
    exact hP.writeMsg s i b hs
  · cases h

theorem StepClosed.portWriteStr_keeps {a : Nat} {b : Byte} {s t : State} (hs : P s)
    (h : portWriteStr s a b = .next t) : P t := by
  unfold portWriteStr at h
  split at h
  · obtain rfl := Host.Outcome.next.inj h
    exact hP.writeStr s a b hs
  · cases h

theorem StepClosed.resetInput_keeps (midCommand : Bool) {s : State} (hs : P s) : P (resetInput midCommand s) := by
  cases midCommand
  · exact hP.resetKeepingBuffers s hs
  · exact hP.resetLosingBuffers s hs

theorem StepClosed.perform_keeps {a : Input} {s t : State} (hs : P s) (h : perform a s = .next t) : P t := by
  cases a with
  | command w => exact hP.present_keeps hs h
  | writeReg n v =>
    obtain rfl := Host.Outcome.next.inj h
    exact hP.portWriteReg_keeps n v hs
  | writeMsg i b => exact hP.portWriteMsg_keeps hs h
  | writeStr a b => exact hP.portWriteStr_keeps hs h
  | resetInput midCommand =>
    obtain rfl := Host.Outcome.next.inj h
    exact hP.resetInput_keeps midCommand hs
  | powerOn =>
    obtain rfl := Host.Outcome.next.inj h
    exact hP.resetLosingBuffers s hs

theorem StepClosed.step_keeps {s t : State} (hs : P s) (h : step s = .next t) : P t := by
  unfold step at h
  split at h
  · obtain rfl := Host.Outcome.next.inj h
    exact hs
  · exact hP.perform_keeps (hP.withInputs s _ hs) h

end
end Sys2Proof.Machine
end

/-! ### What the byte and coder operations keep -/

section
namespace Sys2Proof.Machine

/-! A property of states that survives the writes an operation is made of survives the operation, whether it runs
through or raises a fault in the middle (60_exceptions.md R152). -/

variable {P : State → Prop}
  (hsink : ∀ s b, s.wp ≠ 0 → P s → P ((s.setWp (s.wp - 1)).writeStr (s.wp - 1).toNat b))
  (hsource : ∀ s v, P s → P (s.setRp v))
  (hr : ∀ s j v, P s → P (s.setR j v))
  (hsymo : ∀ s b, P s → P (s.setSymo b))
  (hmsg : ∀ s i b, P s → P (s.writeMsg i b))

section
include hr

theorem einitBody_keeps (j : Nat) {s : State} (hs : P s) : P (einitBody j s).state := hr s j _ hs

end

section
include hsink

theorem putByte_keeps (b : Byte) {s : State} (hs : P s) : P (putByte b s).state := by
  rcases putByte_cases b s with ⟨-, h⟩ | ⟨hw, h⟩ <;> rw [h]
  · exact hs
  · exact hsink s b hw hs

theorem pushBytes_keeps (n v : Nat) {s : State} (hs : P s) : P (pushBytes n v s).state :=
  forDown_keeps n (fun _ _ _ ht => putByte_keeps hsink _ ht) hs

theorem eflushBody_keeps (j : Nat) {s : State} (hs : P s) : P (eflushBody j s).state :=
  pushBytes_keeps hsink 4 _ hs

theorem fstBody_keeps {s : State} (hs : P s) : P (fstBody s).state := by
  unfold fstBody
  split
  · exact forDown_keeps 256 (fun i _ t ht => pushBytes_keeps hsink 2 (t.freq.get i).toNat ht) hs
  · exact hs

include hr

theorem putLoop_keeps (limit j n : Nat) {s : State} (hs : P s) : P (putLoop limit j n s).state := by
  induction n generalizing s with
  | zero => exact hs
  | succ n ih =>
    rw [putLoop]
    split
    · exact Res.bind_keeps (putByte_keeps hsink _ hs) fun t _ ht => ih (hr t j _ ht)
    · exact hs

theorem eputBody_keeps (j sym : Nat) {s : State} (hs : P s) : P (eputBody j sym s).state := by
  unfold eputBody
  split
  · exact hs
  · exact Res.bind_keeps (putLoop_keeps hsink hr _ j _ hs) fun t _ ht => hr t j _ ht

theorem encBody_keeps {s : State} (hs : P s) : P (encBody s).state :=
  Res.bind_keeps (forUp_keeps _ (fun j _ _ ht => einitBody_keeps hr j ht) hs) fun _ _ h1 =>
    Res.bind_keeps (forDown_keeps _ (fun _ _ _ ht => eputBody_keeps hsink hr _ _ ht) h1) fun _ _ h2 =>
      Res.bind_keeps
        (forDown_keeps _ (fun _ _ _ ht => forDown_keeps _ (fun _ _ _ hu => eputBody_keeps hsink hr _ _ hu) ht) h2)
        fun _ _ h3 => forDown_keeps _ (fun j _ _ ht => eflushBody_keeps hsink j ht) h3

end

section
include hsource

theorem getByte_keeps {s : State} (hs : P s) : P (getByte s).state := by
  rcases getByte_cases s with ⟨-, h⟩ | ⟨-, h⟩ <;> rw [h]
  · exact hs
  · exact hsource s _ hs

theorem pullBytes_keeps (n : Nat) {s : State} (hs : P s) : P (pullBytes n s).state := by
  induction n with
  | zero => exact hs
  | succ n ih =>
    exact Res.bind_keeps ih fun _ _ ht => Res.bind_keeps (getByte_keeps hsource ht) fun _ _ hu => hu

include hr

theorem dinitBody_keeps (j : Nat) {s : State} (hs : P s) : P (dinitBody j s).state :=
  Res.bind_keeps (pullBytes_keeps hsource 4 hs) fun t _ ht => hr t j _ ht

theorem renormLoop_keeps (j n : Nat) {s : State} (hs : P s) : P (renormLoop j n s).state := by
  induction n generalizing s with
  | zero => exact hs
  | succ n ih =>
    rw [renormLoop]
    split
    · exact Res.bind_keeps (getByte_keeps hsource hs) fun t _ ht => ih (hr t j _ ht)
    · exact hs

theorem drenormBody_keeps (j : Nat) {s : State} (hs : P s) : P (drenormBody j s).state :=
  renormLoop_keeps hsource hr j _ hs

end

section
include hr hsymo

theorem dgetBody_keeps (j : Nat) {s : State} (hs : P s) : P (dgetBody j s).state :=
  hsymo _ _ (hr s j _ hs)

include hmsg

theorem getMessageByte_keeps (j i : Nat) {s : State} (hs : P s) : P (getMessageByte j i s).state :=
  Res.bind_keeps (dgetBody_keeps hr hsymo j hs) fun t _ ht => hmsg t i _ ht

include hsource

theorem decBody_keeps {s : State} (hs : P s) : P (decBody s).state := by
  have hget : ∀ j i t, P t → P (getMessageByte j i t).state := fun j i _ => getMessageByte_keeps hr hsymo hmsg j i
  have hrenorm : ∀ j t, P t → P (drenormBody j t).state := fun j _ => drenormBody_keeps hsource hr j
  have hgroup : ∀ k g t, P t → P (getGroup k g t).state := fun k g t ht =>
    Res.bind_keeps (forUp_keeps k (fun j _ => hget j _) ht) fun _ _ hu => forUp_keeps k (fun j _ => hrenorm j) hu
  have htail : ∀ i j t, P t → P (getTailByte i j t).state := fun i j t ht =>
    Res.bind_keeps (hget j _ t ht) fun u _ hu => hrenorm j u hu
  exact Res.bind_keeps (forUp_keeps _ (fun j _ _ ht => dinitBody_keeps hsource hr j ht) hs) fun _ _ h1 =>
    Res.bind_keeps (forUp_keeps _ (fun g _ => hgroup _ g) h1) fun _ _ h2 => forUp_keeps _ (fun j _ => htail _ j) h2

end
end Sys2Proof.Machine
end

/-! ### Counts and their running sums -/

section
namespace Sys2Proof.Machine

theorem halved_lt {f : Word} (h : f.toNat ≤ 2 ^ 24) : (halved f).toNat < 2 ^ 24 := by
  rw [halved, BitVec.toNat_ofNat]
  omega

theorem littleEndian_lt (s : State) (a n : Nat) : s.littleEndian a n < 256 ^ n := by
  induction n with
  | zero => exact Nat.one_pos
  | succ n ih =>
    have hbyte : (s.readStr (a + n)).toNat * 256 ^ n ≤ 255 * 256 ^ n :=
      Nat.mul_le_mul_right _ (Nat.le_of_lt_succ (s.readStr (a + n)).isLt)
    rw [State.littleEndian, Nat.pow_succ]
    omega

/-- Counting one byte keeps every count below the limit (40_frequency_model.md R92). -/
theorem countByte_lt (b : Byte) {freq : Table Word 8} (h : ∀ i, i < 256 → (freq.get i).toNat < 2 ^ 24) :
    ∀ i, i < 256 → ((countByte b freq).get i).toNat < 2 ^ 24 := by
  intro i hi
  have hget : (freq.set b.toNat (freq.get b.toNat + 1)).get i =
      if i = b.toNat then freq.get b.toNat + 1 else freq.get i := Table.get_set freq b.toNat i _ b.isLt hi
  have hinc : (freq.get b.toNat + 1).toNat = (freq.get b.toNat).toNat + 1 := by
    have := h b.toNat b.isLt
    rw [BitVec.toNat_add]
    exact Nat.mod_eq_of_lt (by simp; omega)
  have hb := h b.toNat b.isLt
  have hi' := h i hi
  have hle : ((freq.set b.toNat (freq.get b.toNat + 1)).get i).toNat ≤ 2 ^ 24 := by
    rw [hget]
    split <;> omega
  simp only [countByte, Table.get_set_self]
  split
  next hfull =>
    rw [Table.get_map]
    exact halved_lt hle
  next hroom =>
    rw [hget]
    simp only [countLimit] at hroom
    split <;> omega

theorem countMessage_lt (n : Nat) {s : State} (h : ∀ i, i < 256 → (s.freq.get i).toNat < 2 ^ 24) :
    ∀ i, i < 256 → ((countMessage s n).get i).toNat < 2 ^ 24 :=
  countUp_induct (P := fun _ (freq : Table Word 8) => ∀ i, i < 256 → (freq.get i).toNat < 2 ^ 24) n h fun i _ _ hy =>
    countByte_lt (s.readMsg i) hy

/-- The running sums of the pseudocode are the exact sums, stored modulo `2^32` (40_frequency_model.md R93, R96). -/
theorem prefixSums_entry (s : State) (c : CumTable) {n : Nat} (hn : n ≤ 256) :
    ∀ i, i ≤ n → (prefixSums s.freq n c).entry i = BitVec.ofNat 32 (s.freqSum i) := by
  induction n with
  | zero =>
    intro i hi
    obtain rfl : i = 0 := by omega
    exact CumTable.entry_put c 0 0 0 (by omega) (by omega)
  | succ n ih =>
    intro i hi
    have hput : (prefixSums s.freq (n + 1) c).entry i = if i = n + 1 then
        (prefixSums s.freq n c).entry n + s.freq.get n else (prefixSums s.freq n c).entry i :=
      CumTable.entry_put _ (n + 1) i _ hn (by omega)
    rw [hput]
    split
    next hi' => rw [hi', ih (by omega) n (Nat.le_refl n), State.freqSum, BitVec.ofNat_add, BitVec.ofNat_toNat,
        BitVec.setWidth_eq]
    next hi' => exact ih (by omega) i (by omega)

theorem freqSum_mono (s : State) : Monotone s.freqSum :=
  monotone_nat_of_le_succ fun _ => Nat.le_add_right _ _

theorem freq_le_freqSum (s : State) {i n : Nat} (h : i < n) : (s.freq.get i).toNat ≤ s.freqSum n :=
  calc (s.freq.get i).toNat ≤ s.freqSum (i + 1) := Nat.le_add_left _ _
    _ ≤ s.freqSum n := freqSum_mono s h

theorem freqSum_le (s : State) {bound n : Nat} (h : ∀ i, i < n → (s.freq.get i).toNat ≤ bound) :
    s.freqSum n ≤ n * bound := by
  induction n with
  | zero => simp [State.freqSum]
  | succ n ih =>
    have hn := h n (by omega)
    have := ih fun i hi => h i (by omega)
    rw [State.freqSum, Nat.succ_mul]
    omega

/-- Counts below `2^24` add up to less than `2^32`, so a stored total of 0 means that every count is 0
(40_frequency_model.md R92, R93). -/
theorem freqSum_eq_zero_of_stored_total {s : State} {c : CumTable}
    (hb : ∀ i, i < 256 → (s.freq.get i).toNat < 2 ^ 24) (h : (prefixSums s.freq 256 c).entry 256 = 0) :
    s.freqSum 256 = 0 := by
  have hle := freqSum_le s (n := 256) (bound := 2 ^ 24 - 1) fun i hi => Nat.le_sub_one_of_lt (hb i hi)
  rw [prefixSums_entry s c (Nat.le_refl 256) 256 (Nat.le_refl 256)] at h
  have hmod := congrArg BitVec.toNat h
  rw [BitVec.toNat_ofNat, Nat.mod_eq_of_lt (by omega)] at hmod
  exact hmod

theorem freq_eq_zero_of_freqSum {s : State} (h : s.freqSum 256 = 0) : ∀ i, i < 256 → s.freq.get i = 0 := by
  intro i hi
  have := freq_le_freqSum s hi
  exact BitVec.eq_of_toNat_eq (by simp; omega)

theorem prefixSums_eq_zero_of_freqSum {s : State} (c : CumTable) (h : s.freqSum 256 = 0) :
    ∀ i, i ≤ 256 → (prefixSums s.freq 256 c).entry i = 0 := by
  intro i hi
  have hle : s.freqSum i ≤ s.freqSum 256 := freqSum_mono s hi
  rw [prefixSums_entry s c (Nat.le_refl 256) i hi, show s.freqSum i = 0 by omega]
  rfl

end Sys2Proof.Machine
end

/-! ### What keeps `StateOk` -/

section
namespace Sys2Proof.Machine

section
variable {s : State} (h : StateOk s)
include h

/-! #### The named updates -/

theorem StateOk.withInputs (inputs : List Input) : StateOk (s.withInputs inputs) := { h with }
theorem StateOk.setR (j : Nat) (v : Word) : StateOk (s.setR j v) := { h with }
theorem StateOk.setCfg (k : Interleave) (p : Scale) : StateOk (s.setCfg k p) := { h with }
theorem StateOk.setSymo (b : Byte) : StateOk (s.setSymo b) := { h with }
theorem StateOk.setLen (v : DWord) : StateOk (s.setLen v) := { h with }
theorem StateOk.setRp (v : DWord) : StateOk (s.setRp v) := { h with }
theorem StateOk.setRend (v : DWord) : StateOk (s.setRend v) := { h with }
theorem StateOk.bumpCc : StateOk s.bumpCc := { h with }

theorem StateOk.setAlias (divider : Table Word 8) (symId : Table Byte 9) (slotFreqs slotAdjust : Table Word 9)
    (aliasRemap : Table Word 16) : StateOk (s.setAlias divider symId slotFreqs slotAdjust aliasRemap) := { h with }

theorem StateOk.latch (f : FaultKind) (word : Word) : StateOk (s.latch f word) :=
  { h with fcmdClear := fun hf => absurd hf (Option.some_ne_none f) }

theorem StateOk.setWp {v : DWord} (hv : v.toNat ≤ s.strCap.toNat) : StateOk (s.setWp v) := { h with wpInside := hv }

theorem StateOk.writeMsg (i : Nat) (b : Byte) : StateOk (s.writeMsg i b) := by
  unfold State.writeMsg
  split
  · exact { h with msgWf := Memory.wf_store b h.msgWf ‹_› }
  · exact h

theorem StateOk.writeStr (a : Nat) (b : Byte) : StateOk (s.writeStr a b) := by
  unfold State.writeStr
  split
  · exact { h with strWf := Memory.wf_store b h.strWf ‹_› }
  · exact h

/-- PutByte's write: WP goes down by one and stays inside STR (44_stream_and_container.md R131). -/
theorem StateOk.sink (b : Byte) (hw : s.wp ≠ 0) :
    StateOk ((s.setWp (s.wp - 1)).writeStr (s.wp - 1).toNat b) := by
  have hpos : 1 ≤ s.wp.toNat := Nat.pos_of_ne_zero fun h0 => hw (BitVec.eq_of_toNat_eq h0)
  have hsub : (s.wp - 1).toNat = s.wp.toNat - 1 := toNat_sub_ofNat hpos
  have hin := h.wpInside
  exact (h.setWp (by omega)).writeStr _ b

/-! #### The model: `freq[]`, `cum[]`, MS and TV -/

/-- A VALID model holds anything, with a table or without. -/
theorem StateOk.setFlags_valid (tv : Bool) : StateOk (s.setFlags .valid tv) :=
  { h with
    tvValid := fun _ => rfl
    emptyZero := nofun
    rawBounded := nofun }

theorem StateOk.setFreq_valid (freq : Table Word 8) (tv : Bool) : StateOk ((s.setFreq freq).setFlags .valid tv) :=
  { h.setFlags_valid tv with
    emptyZero := nofun
    rawBounded := nofun }

theorem StateOk.setCum_empty {cum : CumTable} (hfreq : ∀ i, i < 256 → s.freq.get i = 0)
    (hcum : ∀ i, i ≤ 256 → cum.entry i = 0) : StateOk ((s.setCum cum).setFlags .empty false) :=
  { h with
    tvValid := nofun
    emptyZero := fun _ => ⟨hfreq, hcum⟩
    rawBounded := nofun }

/-- On a RAW model `cum[]` holds anything. -/
theorem StateOk.setCum_raw (hms : s.ms = .raw) (cum : CumTable) : StateOk (s.setCum cum) :=
  { h with emptyZero := fun he => absurd (hms.symm.trans he) nofun }

/-- On a RAW model the counts are free below their limit (40_frequency_model.md R92). -/
theorem StateOk.setFreq_raw (hms : s.ms = .raw) {freq : Table Word 8}
    (hfreq : ∀ i, i < 256 → (freq.get i).toNat < 2 ^ 24) : StateOk (s.setFreq freq) :=
  { h with
    emptyZero := fun he => absurd (hms.symm.trans he) nofun
    rawBounded := fun _ => hfreq }

theorem StateOk.clearTv : StateOk (s.setFlags s.ms false) := { h with tvValid := nofun }

theorem StateOk.clearModel : StateOk s.clearModel :=
  { h with
    tvValid := nofun
    emptyZero := nofun
    rawBounded := fun _ i _ => by simp }

/-! #### The resets -/

theorem StateOk.resetKeepingBuffers : StateOk s.resetKeepingBuffers where
  msgCapInRange := h.msgCapInRange
  strCapInRange := h.strCapInRange
  msgWf := h.msgWf
  strWf := h.strWf
  wpInside := Nat.le_refl _
  tvValid := nofun
  emptyZero := nofun
  rawBounded := fun _ i _ => by simp
  fcmdClear := fun _ => rfl

theorem StateOk.resetLosingBuffers : StateOk s.resetLosingBuffers :=
  { h.resetKeepingBuffers with
    msgWf := Memory.wf_nil _
    strWf := Memory.wf_nil _ }

/-! #### The bodies of the model commands -/

theorem StateOk.cfgBody_keeps (k : Interleave) (p : Scale) : StateOk (cfgBody k p s).state :=
  (h.setCfg k p).clearModel

theorem StateOk.fcntBody_keeps (b : Byte) (hms : s.ms = .raw) : StateOk (s.setFreq (countByte b s.freq)) :=
  h.setFreq_raw hms (countByte_lt b (h.rawBounded hms))

theorem StateOk.fscanBody_keeps (n : Nat) (hms : s.ms = .raw) : StateOk (s.setFreq (countMessage s n)) :=
  h.setFreq_raw hms (countMessage_lt n (h.rawBounded hms))

/-- FNORM: a total of 0 comes from counts that are all 0; else the model is VALID, or RAW with the counts it had. -/
theorem StateOk.fnormBody_keeps (hms : s.ms = .raw) : StateOk (fnormBody s).state := by
  simp only [fnormBody]
  split
  next htotal =>
    have hsum := freqSum_eq_zero_of_stored_total (h.rawBounded hms) htotal
    exact h.setCum_empty (freq_eq_zero_of_freqSum hsum) fun i _ => CumTable.entry_zero i
  next =>
    split
    · exact (h.setCum_raw hms _).setFreq_valid _ false
    · exact h.setCum_raw hms _

/-- FLD writes words of 16 bits, which are below the limit of a count (40_frequency_model.md R96). -/
theorem StateOk.loadFreq_keeps {i : Nat} (hi : i < 256) (hms : s.ms = .raw) :
    StateOk (loadFreq i s).state ∧ (loadFreq i s).state.ms = .raw := by
  rw [loadFreq, pullBytes_spec]
  split
  · refine ⟨(h.setRp (s.rp + BitVec.ofNat 64 2)).setFreq_raw hms fun j hj => ?_, hms⟩
    have hword := littleEndian_lt s s.rp.toNat 2
    have hold := h.rawBounded hms j hj
    rw [State.setRp_freq, Table.get_set _ i j _ hi hj]
    split
    · rw [BitVec.toNat_ofNat]
      omega
    · exact hold
  · exact ⟨h.setRp _, hms⟩

theorem StateOk.checkLoaded_keeps (hms : s.ms = .raw) : StateOk (checkLoaded s).state := by
  simp only [checkLoaded]
  split
  · exact (h.setCum_raw hms _).setFlags_valid false
  · split
    next htotal =>
      have hsum := freqSum_eq_zero_of_stored_total (h.rawBounded hms) htotal.1
      exact h.setCum_empty (freq_eq_zero_of_freqSum hsum) (prefixSums_eq_zero_of_freqSum s.cum hsum)
    next => exact (h.setCum_raw hms _).clearTv

theorem StateOk.fldBody_keeps (hms : s.ms = .raw) : StateOk (fldBody s).state := by
  have hload : StateOk (forUp 256 loadFreq s).state ∧ (forUp 256 loadFreq s).state.ms = .raw :=
    forUp_keeps (P := fun t => StateOk t ∧ t.ms = .raw) 256 (fun _ hi _ ht => ht.1.loadFreq_keeps hi ht.2) ⟨h, hms⟩
  unfold fldBody
  cases hres : forUp 256 loadFreq s with
  | ok t a =>
    rw [hres] at hload
    exact hload.1.checkLoaded_keeps hload.2
  | raised t k =>
    rw [hres] at hload
    exact hload.1

/-- ABLD builds a table on a VALID model only, so `TV = 1` is right after it (41_alias_table.md R100). -/
theorem StateOk.abldBody_keeps (hms : s.ms ≠ .raw) : StateOk (abldBody s).state := by
  unfold abldBody
  split
  next => exact h.clearTv
  next hne =>
    have hvalid : s.ms = .valid := by
      cases hm : s.ms
      · exact absurd hm hms
      · exact absurd hm hne
      · rfl
    simp only [buildTable, State.setAlias_ms, hvalid]
    split
    · exact (h.setAlias _ _ _ _ _).setFlags_valid true
    · exact h.setAlias _ _ _ _ _

theorem StateOk.lldBody_keeps : StateOk (lldBody s).state := by
  refine Res.bind_keeps (pullBytes_keeps (fun _ v ht => ht.setRp v) 8 h) fun t v ht => ?_
  split
  · exact ht
  · exact ht.setLen _

end

/-! #### Every body, every step -/

theorem StateOk.commandBody_keeps {i : Instr} {s : State} (ha : admits i s = true) (h : StateOk s) :
    StateOk (commandBody i s).state := by
  have hsink : ∀ s b, s.wp ≠ 0 → StateOk s → StateOk ((s.setWp (s.wp - 1)).writeStr (s.wp - 1).toNat b) :=
    fun _ b hw ht => ht.sink b hw
  have hsource : ∀ s v, StateOk s → StateOk (s.setRp v) := fun _ v ht => ht.setRp v
  have hr : ∀ s j v, StateOk s → StateOk (s.setR j v) := fun _ j v ht => ht.setR j v
  have hsymo : ∀ s b, StateOk s → StateOk (s.setSymo b) := fun _ b ht => ht.setSymo b
  have hmsg : ∀ s i b, StateOk s → StateOk (s.writeMsg i b) := fun _ i b ht => ht.writeMsg i b
  rw [admits_iff] at ha
  cases i with
  | nop => exact h
  | cfg k p =>
    simp only [commandBody]
    split
    · exact h.cfgBody_keeps _ _
    · exact h
  | srst => exact h.resetKeepingBuffers
  | fclr => exact h.clearModel
  | fcnt b => exact h.fcntBody_keeps b ha
  | fscan => exact h.fscanBody_keeps _ ha.1
  | fnorm => exact h.fnormBody_keeps ha
  | fld => exact h.fldBody_keeps ha
  | fst => exact fstBody_keeps hsink h
  | abld => exact h.abldBody_keeps (by rcases ha with hm | hm <;> rw [hm] <;> nofun)
  | einit j => exact einitBody_keeps hr j.toNat h
  | eput j sym => exact eputBody_keeps hsink hr j.toNat sym.toNat h
  | eflush j => exact eflushBody_keeps hsink j.toNat h
  | enc => exact encBody_keeps hsink hr h
  | dinit j => exact dinitBody_keeps hsource hr j.toNat h
  | dget j => exact dgetBody_keeps hr hsymo j.toNat h
  | drenorm j => exact drenormBody_keeps hsource hr j.toNat h
  | dec => exact decBody_keeps hsource hr hsymo hmsg h
  | sclr => exact h.setWp (Nat.le_refl _)
  | rewind => exact (h.setRp _).setRend _
  | lst => exact pushBytes_keeps hsink 8 _ h
  | lld => exact h.lldBody_keeps

theorem stateOk_stepClosed : StepClosed StateOk where
  withInputs _ inputs h := h.withInputs inputs
  bumpCc _ h := h.bumpCc
  latch _ f word h := h.latch f word
  setLen _ v h := h.setLen v
  setRp _ v h := h.setRp v
  setRend _ v h := h.setRend v
  writeMsg _ a b h := h.writeMsg a b
  writeStr _ a b h := h.writeStr a b
  resetKeepingBuffers _ h := h.resetKeepingBuffers
  resetLosingBuffers _ h := h.resetLosingBuffers
  body _ _ _ _ ha h := h.commandBody_keeps ha

/-! #### Power-on -/

theorem stateOk_powerOn {msgCap strCap : DWord} (hmsg : 1 ≤ msgCap.toNat ∧ msgCap.toNat < 2 ^ 32)
    (hstr : 1 ≤ strCap.toNat ∧ strCap.toNat < 2 ^ 63) : StateOk (State.powerOn msgCap strCap) where
  msgCapInRange := hmsg
  strCapInRange := hstr
  msgWf := Memory.wf_nil _
  strWf := Memory.wf_nil _
  wpInside := Nat.le_refl _
  tvValid := nofun
  emptyZero := nofun
  rawBounded := fun _ i _ => by simp [State.powerOn]
  fcmdClear := fun _ => rfl

/-- After power-on the model is RAW and no table is valid, so `StateOk` is all there is to show. -/
theorem runOk_powerOn {msgCap strCap : DWord} (hmsg : 1 ≤ msgCap.toNat ∧ msgCap.toNat < 2 ^ 32)
    (hstr : 1 ≤ strCap.toNat ∧ strCap.toNat < 2 ^ 63) : RunOk (State.powerOn msgCap strCap) where
  state := stateOk_powerOn hmsg hstr
  model := nofun
  table := nofun

/-- Settles O18: `StateOk` survives everything a step is made of, the body of every admitted command included. -/
theorem stepKeepsStateOk : Obligations.StepKeepsStateOk :=
  fun _ _ hs h => stateOk_stepClosed.step_keeps hs h

/-- Settles O17: the model is RAW after power-on; the two capacities of Config are in range. -/
theorem resetIsOk : Obligations.ResetIsOk :=
  ⟨fun _ _ hm hm' hs hs' => runOk_powerOn ⟨hm, hm'⟩ ⟨hs, hs'⟩, runOk_powerOn (by decide) (by decide)⟩

end Sys2Proof.Machine
end

/-! ### The Vose sweep: what every turn keeps -/

section
namespace Sys2Proof.Machine

/-! #### Scans -/

theorem scanFrom_skipped {skip : Nat → Bool} {n i x : Nat} (hi : i ≤ x) (hx : x < scanFrom skip n i) :
    skip x = true := by
  induction n generalizing i with
  | zero =>
    rw [scanFrom] at hx
    omega
  | succ n ih =>
    rw [scanFrom] at hx
    split at hx
    next hs =>
      rcases Nat.eq_or_lt_of_le hi with rfl | hlt
      · exact hs
      · exact ih hlt hx
    next => omega

theorem scanFrom_stopped {skip : Nat → Bool} {n i : Nat} (h : scanFrom skip n i < i + n) :
    skip (scanFrom skip n i) = false := by
  induction n generalizing i with
  | zero =>
    rw [scanFrom] at h
    omega
  | succ n ih =>
    rw [scanFrom] at h ⊢
    split at h
    next hs =>
      rw [if_pos hs]
      exact ih (by omega)
    next hs =>
      rw [if_neg hs]
      exact Bool.eq_false_of_not_eq_true hs

section
variable {height i x : Nat} {remaining : Table Nat 8}

theorem scanLarge_ge : i ≤ scanLarge height remaining i := scanFrom_ge _ _ i

theorem scanSmall_ge : i ≤ scanSmall height remaining i := scanFrom_ge _ _ i

theorem lt_of_lt_scanLarge (hi : i ≤ x) (hx : x < scanLarge height remaining i) : remaining.get x < height :=
  of_decide_eq_true (scanFrom_skipped hi hx)

theorem le_of_lt_scanSmall (hi : i ≤ x) (hx : x < scanSmall height remaining i) : height ≤ remaining.get x :=
  of_decide_eq_true (scanFrom_skipped hi hx)

theorem le_of_scanLarge_eq (hx : scanLarge height remaining i = x) (h : x < 256) : height ≤ remaining.get x := by
  have hge : i ≤ scanLarge height remaining i := scanLarge_ge
  have hstop : decide (remaining.get (scanLarge height remaining i) < height) = false :=
    scanFrom_stopped (show scanLarge height remaining i < i + (256 - i) by omega)
  rw [hx] at hstop
  exact Nat.le_of_not_lt (of_decide_eq_false hstop)

theorem lt_of_scanSmall_eq (hx : scanSmall height remaining i = x) (h : x < 256) : remaining.get x < height := by
  have hge : i ≤ scanSmall height remaining i := scanSmall_ge
  have hstop : decide (height ≤ remaining.get (scanSmall height remaining i)) = false :=
    scanFrom_stopped (show scanSmall height remaining i < i + (256 - i) by omega)
  rw [hx] at hstop
  exact Nat.lt_of_not_le (of_decide_eq_false hstop)

end

/-! #### The buckets of a sweep -/

/-- The part of bucket `i` its own symbol keeps (41_alias_table.md R101). -/
def Sweep.kept (v : Sweep) (i : Nat) : Nat := (v.divider.get i).toNat

/-- The symbol that fills the rest of bucket `i`. -/
def Sweep.donor (v : Sweep) (i : Nat) : Nat := (v.symId.get (2 * i)).toNat

/-- What `sym` fills in the buckets whose donor it is. -/
def Sweep.lent (height : Nat) (v : Sweep) (sym : Nat) : Nat :=
  ∑ i ∈ Finset.range 256, if v.donor i = sym then height - v.kept i else 0

theorem Sweep.donor_lt (v : Sweep) (i : Nat) : v.donor i < 256 := (v.symId.get (2 * i)).isLt

/-- Between two turns: a bucket is finished when it is split below `height`, and open until then. Every open bucket that
holds less than `height` is at one of the two cursors `small` and `next_small` or still ahead; and every symbol's
frequency is what its own bucket holds and what it filled elsewhere. -/
structure SweepOk (height : Nat) (freq : Table Word 8) (v : Sweep) : Prop where
  primary : ∀ i, i < 256 → (v.symId.get (2 * i + 1)).toNat = i
  kept_le : ∀ i, i < 256 → v.kept i ≤ height
  own : ∀ i, i < 256 → v.kept i = height → v.donor i = i
  finished : ∀ i, i < 256 → v.kept i < height →
    v.remaining.get i = v.kept i ∧ v.donor i ≠ i ∧ height ≤ (freq.get (v.donor i)).toNat
  accounted : ∀ i, i < 256 → (freq.get i).toNat = v.remaining.get i + v.lent height i
  large_full : v.large < 256 → height ≤ v.remaining.get v.large
  below_large : ∀ i, i < 256 → i < v.large → v.remaining.get i < height
  small_open : v.small < 256 → v.remaining.get v.small < height ∧ v.kept v.small = height ∧ v.small < v.nextSmall
  passed : ∀ i, i < 256 → i < v.nextSmall → i ≠ v.small → v.remaining.get i < height → v.kept i < height
  finished_behind : ∀ i, i < 256 → v.kept i < height → i < v.nextSmall
  small_end : 256 ≤ v.small → 257 ≤ v.nextSmall

/-! #### The start -/

section
variable {height : Nat} (hh : height ≤ 256) (freq : Table Word 8)

theorem sweepStart_symId {k : Nat} (hk : k < 512) : ((sweepStart height freq).symId.get k).toNat = k / 2 := by
  rw [sweepStart, Table.get_tabulate 9 _ k hk, BitVec.toNat_ofNat]
  omega

include hh

theorem sweepStart_kept (i : Nat) : (sweepStart height freq).kept i = height := by
  simp only [Sweep.kept, sweepStart, Table.get_fill, BitVec.toNat_ofNat]
  omega

theorem sweepStart_ok : SweepOk height freq (sweepStart height freq) where
  primary i hi := by
    rw [sweepStart_symId freq (by omega)]
    omega
  kept_le i _ := (sweepStart_kept hh freq i).le
  own i hi _ := by
    rw [Sweep.donor, sweepStart_symId freq (by omega)]
    omega
  finished i _ hlt := absurd (sweepStart_kept hh freq i) hlt.ne
  accounted i _ := by
    have hlent : (sweepStart height freq).lent height i = 0 := by simp [Sweep.lent, sweepStart_kept hh freq]
    rw [hlent]
    exact (Table.get_map _ freq i).symm
  large_full hlt := le_of_scanLarge_eq rfl hlt
  below_large i _ hlt := lt_of_lt_scanLarge (Nat.zero_le i) hlt
  small_open hlt := ⟨lt_of_scanSmall_eq rfl hlt, sweepStart_kept hh freq _, Nat.lt_succ_self _⟩
  passed i _ hlt hne hrem := by
    have hlt' : i < scanSmall height (freq.map fun f => f.toNat) 0 := lt_of_le_of_ne (Nat.le_of_lt_succ hlt) hne
    exact absurd (le_of_lt_scanSmall (Nat.zero_le i) hlt') (Nat.not_le_of_lt hrem)
  finished_behind i _ hlt := absurd (sweepStart_kept hh freq i) hlt.ne
  small_end hge := Nat.succ_le_succ hge

end

/-! #### A turn -/

/-- The forward scan goes on after this turn; else the bucket of `large`, now open and behind `next_small`, is next. -/
def Sweep.onward (height : Nat) (v : Sweep) : Prop :=
  height ≤ v.remaining.get v.large - (height - v.remaining.get v.small) ∨ v.nextSmall ≤ v.large

section
variable {height : Nat} {v : Sweep}

theorem sweepStep_large :
    (sweepStep height v).large = scanLarge height (sweepStep height v).remaining v.large := rfl

theorem sweepStep_onward (h : v.onward height) :
    (sweepStep height v).small = scanSmall height (sweepStep height v).remaining v.nextSmall ∧
      (sweepStep height v).nextSmall = (sweepStep height v).small + 1 := by
  have hb : (decide (height ≤ v.remaining.get v.large - (height - v.remaining.get v.small)) ||
      decide (v.nextSmall ≤ v.large)) = true := by simpa [Sweep.onward] using h
  simp only [sweepStep, hb, if_true, and_self]

theorem sweepStep_not_onward (h : ¬ v.onward height) :
    (sweepStep height v).small = v.large ∧ (sweepStep height v).nextSmall = v.nextSmall := by
  have hb : ¬ (decide (height ≤ v.remaining.get v.large - (height - v.remaining.get v.small)) ||
      decide (v.nextSmall ≤ v.large)) = true := by simpa [Sweep.onward] using h
  simp only [sweepStep, if_neg hb, and_self]

variable {freq : Table Word 8} (hh : height ≤ 256) (ok : SweepOk height freq v) (hl : v.large < 256)
  (hm : v.small < 256)
include hl

theorem sweepStep_remaining {i : Nat} (hi : i < 256) :
    (sweepStep height v).remaining.get i =
      if i = v.large then v.remaining.get v.large - (height - v.remaining.get v.small) else v.remaining.get i :=
  Table.get_set v.remaining v.large i _ hl hi

include hm

theorem sweepStep_donor {i : Nat} (hi : i < 256) :
    (sweepStep height v).donor i = if i = v.small then v.large else v.donor i := by
  simp only [Sweep.donor, sweepStep]
  rw [Table.get_set v.symId (2 * v.small) (2 * i) _ (by omega) (by omega)]
  by_cases h : i = v.small
  · rw [if_pos (by omega), if_pos h, BitVec.toNat_ofNat]
    omega
  · rw [if_neg (by omega), if_neg h]

omit hl in
theorem sweepStep_primary {i : Nat} (hi : i < 256) :
    (sweepStep height v).symId.get (2 * i + 1) = v.symId.get (2 * i + 1) :=
  Table.get_set_ne v.symId (2 * v.small) (2 * i + 1) _ (by omega) (by omega) (by omega)

include hh ok

omit hl in
theorem sweepStep_kept {i : Nat} (hi : i < 256) :
    (sweepStep height v).kept i = if i = v.small then v.remaining.get v.small else v.kept i := by
  obtain ⟨hrem, -, -⟩ := ok.small_open hm
  simp only [Sweep.kept, sweepStep]
  rw [Table.get_set v.divider v.small i _ hm hi]
  split
  · rw [BitVec.toNat_ofNat]
    omega
  · rfl

omit hh in
/-- The bucket that is finished is not the donor's. -/
theorem SweepOk.small_ne_large : v.small ≠ v.large := by
  intro h
  have hfull := ok.large_full hl
  obtain ⟨hrem, -, -⟩ := ok.small_open hm
  rw [h] at hrem
  omega

/-- The donor fills the rest of the finished bucket, and no other symbol fills more than before. -/
theorem sweepStep_lent (i : Nat) :
    (sweepStep height v).lent height i =
      v.lent height i + if v.large = i then height - v.remaining.get v.small else 0 := by
  obtain ⟨-, hopen, -⟩ := ok.small_open hm
  have hterm : ∀ b ∈ Finset.range 256,
      (if (sweepStep height v).donor b = i then height - (sweepStep height v).kept b else 0) =
        (if v.donor b = i then height - v.kept b else 0) +
          if b = v.small then (if v.large = i then height - v.remaining.get v.small else 0) else 0 := by
    intro b hb
    have hb : b < 256 := Finset.mem_range.mp hb
    rw [sweepStep_donor hl hm hb, sweepStep_kept hh ok hm hb]
    by_cases h : b = v.small
    · subst h
      simp [hopen]
    · simp [h]
  rw [Sweep.lent, Finset.sum_congr rfl hterm, Finset.sum_add_distrib, Finset.sum_ite_eq' (Finset.range 256) v.small,
    if_pos (Finset.mem_range.mpr hm), Sweep.lent]

/-- The cursors after a turn: what the clauses of `SweepOk` about `small` and `next_small` say. -/
theorem sweepStep_cursors :
    (∀ i, i < 256 → i < (sweepStep height v).nextSmall → i ≠ (sweepStep height v).small →
      (sweepStep height v).remaining.get i < height → (sweepStep height v).kept i < height) ∧
    ((sweepStep height v).small < 256 →
      (sweepStep height v).remaining.get (sweepStep height v).small < height ∧
        (sweepStep height v).kept (sweepStep height v).small = height ∧
          (sweepStep height v).small < (sweepStep height v).nextSmall) ∧
    v.nextSmall ≤ (sweepStep height v).nextSmall ∧
    (256 ≤ (sweepStep height v).small → 257 ≤ (sweepStep height v).nextSmall) := by
  have hrem := @sweepStep_remaining height v hl
  have hkept := @sweepStep_kept height v freq hh ok hm
  obtain ⟨hsmall, hopen, hbehind⟩ := ok.small_open hm
  have hfull := ok.large_full hl
  by_cases ho : v.onward height
  · obtain ⟨hs, hn⟩ := sweepStep_onward ho
    have hge : v.nextSmall ≤ (sweepStep height v).small := hs ▸ scanSmall_ge
    refine ⟨fun i hi hlt hne hlow => ?_, fun hlt => ⟨lt_of_scanSmall_eq hs.symm hlt, ?_, by omega⟩, by omega, by omega⟩
    · have hpast : i < v.nextSmall := by
        by_contra hcon
        have := le_of_lt_scanSmall (Nat.le_of_not_lt hcon) (show i < scanSmall height _ _ by rw [← hs]; omega)
        omega
      rw [hkept hi]
      rw [hrem hi] at hlow
      by_cases his : i = v.small
      · rw [if_pos his]
        exact hsmall
      · rw [if_neg his]
        have hil : i ≠ v.large := by
          rintro rfl
          rw [if_pos rfl] at hlow
          rcases ho with ho | ho <;> omega
        rw [if_neg hil] at hlow
        exact ok.passed i hi hpast his hlow
    · rw [hkept hlt, if_neg (by omega)]
      have hle := ok.kept_le _ hlt
      have hnot := ok.finished_behind _ hlt
      omega
  · obtain ⟨hs, hn⟩ := sweepStep_not_onward ho
    have hne := ok.small_ne_large hl hm
    simp only [Sweep.onward, not_or] at ho
    rw [hs, hn]
    refine ⟨fun i hi hlt hil hlow => ?_, fun _ => ⟨?_, ?_, by omega⟩, Nat.le_refl _, by omega⟩
    · rw [hkept hi]
      rw [hrem hi, if_neg hil] at hlow
      by_cases his : i = v.small
      · rw [if_pos his]
        exact hsmall
      · rw [if_neg his]
        exact ok.passed i hi hlt his hlow
    · rw [hrem hl, if_pos rfl]
      omega
    · rw [hkept hl, if_neg hne.symm]
      have hle := ok.kept_le _ hl
      have hnot := ok.finished _ hl
      omega

theorem sweepStep_ok : SweepOk height freq (sweepStep height v) := by
  have hrem := @sweepStep_remaining height v hl
  have hkept := @sweepStep_kept height v freq hh ok hm
  have hdonor := @sweepStep_donor height v hl hm
  obtain ⟨hsmall, hopen, hbehind⟩ := ok.small_open hm
  have hfull := ok.large_full hl
  have hne := ok.small_ne_large hl hm
  obtain ⟨hpassed, hsmall_open, hnext, hsmall_end⟩ := sweepStep_cursors hh ok hl hm
  refine
    { primary := ?primary, kept_le := ?kept_le, own := ?own, finished := ?finished, accounted := ?accounted,
      large_full := fun hlt => le_of_scanLarge_eq sweepStep_large.symm hlt, below_large := ?below_large,
      small_open := hsmall_open, passed := hpassed, finished_behind := ?behind, small_end := hsmall_end }
  case primary =>
    intro i hi
    rw [sweepStep_primary hm hi]
    exact ok.primary i hi
  case kept_le =>
    intro i hi
    rw [hkept hi]
    split
    · exact hsmall.le
    · exact ok.kept_le i hi
  case own =>
    intro i hi h
    rw [hkept hi] at h
    split at h
    · omega
    next his =>
      rw [hdonor hi, if_neg his]
      exact ok.own i hi h
  case finished =>
    intro i hi h
    rw [hkept hi] at h ⊢
    rw [hrem hi, hdonor hi]
    by_cases his : i = v.small
    · subst his
      rw [if_neg hne, if_pos rfl, if_pos rfl]
      exact ⟨rfl, hne.symm, hfull.trans (by rw [ok.accounted _ hl]; omega)⟩
    · rw [if_neg his] at h ⊢
      obtain ⟨hr, hd, hf⟩ := ok.finished i hi h
      have hil : i ≠ v.large := by
        rintro rfl
        omega
      rw [if_neg hil, if_neg his]
      exact ⟨hr, hd, hf⟩
  case accounted =>
    intro i hi
    rw [hrem hi, sweepStep_lent hh ok hl hm i, ok.accounted i hi]
    by_cases hil : i = v.large
    · subst hil
      rw [if_pos rfl, if_pos rfl]
      omega
    · rw [if_neg hil, if_neg (Ne.symm hil)]
      omega
  case below_large =>
    intro i hi hlt
    by_cases hlt' : i < v.large
    · rw [hrem hi, if_neg hlt'.ne]
      exact ok.below_large i hi hlt'
    · exact lt_of_lt_scanLarge (Nat.le_of_not_lt hlt') (sweepStep_large ▸ hlt)
  case behind =>
    intro i hi h
    rw [hkept hi] at h
    split at h
    next his => omega
    next =>
      have := ok.finished_behind i hi h
      omega

end

/-! #### The whole sweep -/

theorem sweepLoop_keeps {P : Sweep → Prop} {height : Nat}
    (hstep : ∀ v, v.large < 256 → v.small < 256 → P v → P (sweepStep height v)) (n : Nat) {v : Sweep} (hv : P v) :
    P (sweepLoop height n v) := by
  induction n generalizing v with
  | zero => exact hv
  | succ n ih =>
    rw [sweepLoop]
    split
    next h => exact ih (hstep v h.1 h.2 hv)
    next => exact hv

theorem sweep_ok {height : Nat} (hh : height ≤ 256) (freq : Table Word 8) : SweepOk height freq (sweep height freq) :=
  sweepLoop_keeps (fun _ hl hm ok => sweepStep_ok hh ok hl hm) _ (sweepStart_ok hh freq)

/-- All that the symbols fill elsewhere is all that the buckets leave free. -/
theorem Sweep.sum_lent (height : Nat) (v : Sweep) :
    ∑ sym ∈ Finset.range 256, v.lent height sym = ∑ i ∈ Finset.range 256, (height - v.kept i) := by
  simp only [Sweep.lent]
  rw [Finset.sum_comm]
  refine Finset.sum_congr rfl fun i _ => ?_
  rw [Finset.sum_ite_eq (Finset.range 256) (v.donor i), if_pos (Finset.mem_range.mpr (v.donor_lt i))]

/-- When the frequencies sum to 256 heights, the sweep leaves in every bucket exactly what its own symbol keeps of it
(41_alias_table.md R101). -/
theorem SweepOk.remaining_eq_kept {height : Nat} {freq : Table Word 8} {v : Sweep} (ok : SweepOk height freq v)
    (hend : 256 ≤ v.large ∨ 256 ≤ v.small) (htotal : ∑ i ∈ Finset.range 256, (freq.get i).toNat = 256 * height) :
    ∀ i, i < 256 → v.remaining.get i = v.kept i := by
  have hsum : ∑ i ∈ Finset.range 256, v.remaining.get i = ∑ i ∈ Finset.range 256, v.kept i := by
    have hacc : ∑ i ∈ Finset.range 256, (freq.get i).toNat =
        ∑ i ∈ Finset.range 256, v.remaining.get i + ∑ i ∈ Finset.range 256, (height - v.kept i) := by
      rw [← v.sum_lent height, ← Finset.sum_add_distrib]
      exact Finset.sum_congr rfl fun i hi => ok.accounted i (Finset.mem_range.mp hi)
    have hfull : ∑ i ∈ Finset.range 256, (height - v.kept i) + ∑ i ∈ Finset.range 256, v.kept i = 256 * height := by
      rw [← Finset.sum_add_distrib, Finset.sum_congr rfl fun i hi =>
        Nat.sub_add_cancel (ok.kept_le i (Finset.mem_range.mp hi)), Finset.sum_const, Finset.card_range, smul_eq_mul]
    omega
  have hopen : ∀ i, i < 256 → v.kept i = height ∨ v.remaining.get i = v.kept i := fun i hi =>
    (ok.kept_le i hi).eq_or_lt.imp id fun h => (ok.finished i hi h).1
  intro i hi
  rcases hend with hend | hend
  · refine (Finset.sum_eq_sum_iff_of_le fun j hj => ?_).mp hsum i (Finset.mem_range.mpr hi)
    have hj : j < 256 := Finset.mem_range.mp hj
    have := ok.below_large j hj (by omega)
    rcases hopen j hj with h | h <;> omega
  · refine ((Finset.sum_eq_sum_iff_of_le fun j hj => ?_).mp hsum.symm i (Finset.mem_range.mpr hi)).symm
    have hj : j < 256 := Finset.mem_range.mp hj
    have hnext := ok.small_end hend
    have hpassed := ok.passed j hj (by omega) (by omega)
    rcases hopen j hj with h | h <;> omega

end Sys2Proof.Machine
end

/-! ### A normalized model: `cum[]` cuts the code points into one interval per symbol -/

section
namespace Sys2Proof.Machine

theorem Scale.height_range (p : Scale) : 1 ≤ p.height ∧ p.height ≤ 256 := by
  cases p <;> decide

theorem Scale.mass_eq (p : Scale) : 2 ^ p.exponent = 256 * p.height := by
  cases p <;> rfl

theorem Scale.mass_le (p : Scale) : 2 ^ p.exponent ≤ 65536 :=
  Nat.pow_le_pow_right (by omega) p.exponent_range.2

section
variable {s : State} (h : ModelOk s)
include h

theorem ModelOk.cum_eq_sum {n : Nat} (hn : n ≤ 256) :
    (s.cum.entry n).toNat = ∑ i ∈ Finset.range n, (s.freq.get i).toNat := by
  induction n with
  | zero => simp [h.first]
  | succ n ih => rw [h.step n (by omega), ih (by omega), Finset.sum_range_succ]

theorem ModelOk.sum_freq : ∑ i ∈ Finset.range 256, (s.freq.get i).toNat = 256 * s.p.height := by
  rw [← h.cum_eq_sum (Nat.le_refl 256), h.total, s.p.mass_eq]

theorem ModelOk.cum_mono {i j : Nat} (hij : i ≤ j) (hj : j ≤ 256) : (s.cum.entry i).toNat ≤ (s.cum.entry j).toNat := by
  induction j, hij using Nat.le_induction with
  | base => exact Nat.le_refl _
  | succ j hij ih =>
    have := ih (by omega)
    have := h.step j (by omega)
    omega

theorem ModelOk.cum_add_lt {sym d : Nat} (hs : sym < 256) (hd : d < (s.freq.get sym).toNat) :
    (s.cum.entry sym).toNat + d < 2 ^ s.p.exponent := by
  have hstep := h.step sym hs
  have hmono := h.cum_mono (show sym + 1 ≤ 256 by omega) (Nat.le_refl 256)
  have htotal := h.total
  omega

theorem ModelOk.freq_le {sym : Nat} (hs : sym < 256) : (s.freq.get sym).toNat ≤ 2 ^ s.p.exponent := by
  have hstep := h.step sym hs
  have hmono := h.cum_mono (show sym + 1 ≤ 256 by omega) (Nat.le_refl 256)
  have htotal := h.total
  omega

/-- No code point lies in the intervals of two symbols. -/
theorem ModelOk.cum_add_inj {a b d e : Nat} (ha : a < 256) (hb : b < 256) (hd : d < (s.freq.get a).toNat)
    (he : e < (s.freq.get b).toNat) (heq : (s.cum.entry a).toNat + d = (s.cum.entry b).toNat + e) : a = b := by
  have hsa := h.step a ha
  have hsb := h.step b hb
  rcases Nat.lt_trichotomy a b with hlt | rfl | hlt
  · have := h.cum_mono (show a + 1 ≤ b by omega) (by omega)
    omega
  · rfl
  · have := h.cum_mono (show b + 1 ≤ a by omega) (by omega)
    omega

/-- A code point of `sym` lies in a run of code points of `a` exactly when `sym` is `a` and its offset is in the run. -/
theorem ModelOk.in_run_iff {sym a d g len : Nat} (hs : sym < 256) (hd : d < (s.freq.get sym).toNat) (ha : a < 256)
    (hg : g + len ≤ (s.freq.get a).toNat) :
    ((s.cum.entry a).toNat + g ≤ (s.cum.entry sym).toNat + d ∧
      (s.cum.entry sym).toNat + d < (s.cum.entry a).toNat + g + len) ↔ sym = a ∧ g ≤ d ∧ d < g + len := by
  constructor
  · rintro ⟨hlo, hhi⟩
    obtain rfl : sym = a := h.cum_add_inj (e := (s.cum.entry sym).toNat + d - (s.cum.entry a).toNat) hs ha hd
      (by omega) (by omega)
    omega
  · rintro ⟨rfl, hlo, hhi⟩
    omega

end
end Sys2Proof.Machine
end

/-! ### Slot materialization: the code points the buckets give out -/

section
namespace Sys2Proof.Machine

/-- What the buckets below `n` give out to `sym`: its allocation counter before bucket `n` (41_alias_table.md R103). -/
def Sweep.given (height : Nat) (v : Sweep) (n sym : Nat) : Nat :=
  ∑ i ∈ Finset.range n, ((if i = sym then v.kept i else 0) + if v.donor i = sym then height - v.kept i else 0)

/-- The symbol that bucket `y / height` gives the code point `y` to. -/
def Sweep.symAt (height : Nat) (v : Sweep) (y : Nat) : Nat :=
  if y % height < v.kept (y / height) then y / height else v.donor (y / height)

/-- Which of its symbol's code points `y` is, counted as the buckets give them out. -/
def Sweep.offsetAt (height : Nat) (v : Sweep) (y : Nat) : Nat :=
  if y % height < v.kept (y / height) then v.given height (y / height) (y / height) + y % height
  else v.given height (y / height) (v.donor (y / height)) + (y % height - v.kept (y / height))

section
variable {height : Nat} {v : Sweep}

theorem Sweep.given_succ (n sym : Nat) : v.given height (n + 1) sym =
    v.given height n sym + ((if n = sym then v.kept n else 0) + if v.donor n = sym then height - v.kept n else 0) :=
  Finset.sum_range_succ _ n

theorem Sweep.given_mono (sym : Nat) : Monotone fun n => v.given height n sym :=
  monotone_nat_of_le_succ fun n => by
    rw [Sweep.given_succ]
    exact Nat.le_add_right _ _

theorem Sweep.symAt_lt {y : Nat} (hy : y / height < 256) : v.symAt height y < 256 := by
  unfold Sweep.symAt
  split
  · exact hy
  · exact v.donor_lt _

theorem Sweep.offsetAt_lt_given {n y : Nat} (hh : 0 < height) (hy : y / height < n) :
    v.offsetAt height y < v.given height n (v.symAt height y) := by
  have hmod := Nat.mod_lt y hh
  have hmono := v.given_mono (height := height) (v.symAt height y) (show y / height + 1 ≤ n from hy)
  refine Nat.lt_of_lt_of_le ?_ hmono
  simp only [Sweep.given_succ, Sweep.symAt, Sweep.offsetAt]
  split
  · rw [if_pos rfl]
    omega
  · rw [if_pos rfl]
    omega

variable {freq : Table Word 8} (ok : SweepOk height freq v)
include ok

theorem SweepOk.given_all {sym : Nat} (hs : sym < 256) (hrem : v.remaining.get sym = v.kept sym) :
    v.given height 256 sym = (freq.get sym).toNat := by
  rw [Sweep.given, Finset.sum_add_distrib, Finset.sum_ite_eq' (Finset.range 256) sym,
    if_pos (Finset.mem_range.mpr hs), ok.accounted sym hs, hrem, Sweep.lent]

/-- Every code point counted to a symbol is one that a bucket gave out. -/
theorem SweepOk.exists_code {n : Nat} (hn : n ≤ 256) {sym d : Nat} (hd : d < v.given height n sym) :
    ∃ y, y < n * height ∧ v.symAt height y = sym ∧ v.offsetAt height y = d := by
  induction n with
  | zero => simp [Sweep.given] at hd
  | succ n ih =>
    have hle := ok.kept_le n (by omega)
    rw [Nat.succ_mul]
    by_cases hold : d < v.given height n sym
    · obtain ⟨y, hy, hsym, hoff⟩ := ih (by omega) hold
      exact ⟨y, by omega, hsym, hoff⟩
    have hcode : ∀ x, x < height → (n * height + x) / height = n ∧ (n * height + x) % height = x := fun x hx =>
      ⟨by rw [Nat.mul_comm, Nat.mul_add_div (by omega), Nat.div_eq_of_lt hx, Nat.add_zero],
        by rw [Nat.mul_comm, Nat.mul_add_mod, Nat.mod_eq_of_lt hx]⟩
    rw [Sweep.given_succ] at hd
    by_cases hown : n = sym ∧ d < v.given height n sym + v.kept n
    · obtain ⟨rfl, hd'⟩ := hown
      obtain ⟨hdiv, hmod⟩ := hcode (d - v.given height n n) (by omega)
      refine ⟨n * height + (d - v.given height n n), by omega, ?_, ?_⟩
      · rw [Sweep.symAt, hdiv, hmod, if_pos (by omega)]
      · rw [Sweep.offsetAt, hdiv, hmod, if_pos (by omega)]
        omega
    · have hdonor : v.donor n = sym := by
        by_contra hne
        rw [if_neg hne] at hd
        split at hd <;> omega
      have hne : n ≠ sym := by
        rintro rfl
        rw [if_pos rfl, if_pos hdonor] at hd
        exact (ok.finished n (by omega) (by omega)).2.1 hdonor
      rw [if_neg hne, if_pos hdonor] at hd
      obtain ⟨hdiv, hmod⟩ := hcode (v.kept n + (d - v.given height n sym)) (by omega)
      refine ⟨n * height + (v.kept n + (d - v.given height n sym)), by omega, ?_, ?_⟩
      · rw [Sweep.symAt, hdiv, hmod, if_neg (by omega), hdonor]
      · rw [Sweep.offsetAt, hdiv, hmod, if_neg (by omega), hdonor]
        omega

end

/-! #### The arrays -/

theorem get_putRun (t : Table Word 16) (y v n : Nat) {x : Nat} (hx : x < 65536) :
    (putRun t y v n).get x = if y ≤ x ∧ x < y + n then BitVec.ofNat 32 (v + (x - y)) else t.get x := by
  induction n with
  | zero =>
    rw [if_neg (by omega)]
    rfl
  | succ n ih =>
    rw [putRun, countUp_succ, ← putRun]
    have hput : (putRemap (putRun t y v n) (y + n) (v + n)).get x =
        if x = y + n then BitVec.ofNat 32 (v + n) else (putRun t y v n).get x := by
      unfold putRemap
      split
      · exact Table.get_set _ (y + n) x _ ‹_› hx
      · rw [if_neg (by omega)]
    rw [hput, ih]
    by_cases hxn : x = y + n
    · rw [if_pos hxn, if_pos (by omega), hxn, Nat.add_sub_cancel_left]
    · rw [if_neg hxn]
      simp only [show (y ≤ x ∧ x < y + n) ↔ (y ≤ x ∧ x < y + (n + 1)) by omega]

/-- Before bucket `n`: the counters, the dividers and the slots of the buckets below it. -/
structure SlotsOk (s : State) (v : Sweep) (n : Nat) (z : Slots) : Prop where
  assigned : ∀ sym, sym < 256 → z.assigned.get sym = v.given s.p.height n sym
  split : ∀ i, i < n → (z.divider.get i).toNat = i * s.p.height + v.kept i
  unsplit : ∀ i, n ≤ i → i < 256 → z.divider.get i = v.divider.get i
  ownSlot : ∀ i, i < n → z.slotFreqs.get (2 * i + 1) = s.freq.get i ∧
    z.slotAdjust.get (2 * i + 1) = BitVec.ofNat 32 (i * s.p.height) - BitVec.ofNat 32 (v.given s.p.height i i)
  donorSlot : ∀ i, i < n → z.slotFreqs.get (2 * i) = s.freq.get (v.donor i) ∧
    z.slotAdjust.get (2 * i) = BitVec.ofNat 32 (i * s.p.height) -
      (BitVec.ofNat 32 (v.given s.p.height i (v.donor i)) - BitVec.ofNat 32 (v.kept i))

section
variable {s : State} {v : Sweep} {n : Nat} {z : Slots} (hn : n < 256) (ok : SlotsOk s v n z)
  (hkept : v.kept n ≤ s.p.height)
include hn ok hkept

theorem slotStep_ok : SlotsOk s v (n + 1) (slotStep s.p.height s.freq s.cum v.symId n z) := by
  have hdonor := v.donor_lt n
  have hh := s.p.height_range.2
  have hk : (z.divider.get n).toNat = v.kept n := congrArg BitVec.toNat (ok.unsplit n (Nat.le_refl n) hn)
  have hprod : n * s.p.height ≤ 255 * 256 := Nat.mul_le_mul (by omega) hh
  have hd : (v.symId.get (2 * n)).toNat = v.donor n := rfl
  have hcases : ∀ i, i < n + 1 → i < n ∨ i = n := fun i hi => Nat.lt_succ_iff_lt_or_eq.mp hi
  refine { assigned := ?assigned, split := ?split, unsplit := ?unsplit, ownSlot := ?ownSlot, donorSlot := ?donorSlot }
  case assigned =>
    intro sym hs
    simp only [slotStep, hk, hd, Sweep.given_succ]
    rw [Table.get_set _ (v.donor n) sym _ hdonor hs, Table.get_set _ n sym _ hn hs,
      Table.get_set _ n (v.donor n) _ hn hdonor, ok.assigned sym hs, ok.assigned _ hdonor, ok.assigned n hn]
    by_cases h1 : sym = v.donor n
    · subst h1
      by_cases h2 : v.donor n = n
      · simp only [h2, if_true, Nat.add_assoc]
      · simp only [h2, Ne.symm h2, if_true, if_false, Nat.zero_add]
    · by_cases h2 : sym = n
      · subst h2
        simp only [h1, Ne.symm h1, if_true, if_false, Nat.add_zero]
      · simp only [h1, h2, Ne.symm h1, Ne.symm h2, if_false, Nat.add_zero]
  case split =>
    intro i hi
    simp only [slotStep, hk]
    rw [Table.get_set _ n i _ hn (show i < 256 by omega)]
    rcases hcases i hi with hlt | rfl
    · rw [if_neg hlt.ne]
      exact ok.split i hlt
    · rw [if_pos rfl, BitVec.toNat_ofNat]
      omega
  case unsplit =>
    intro i hi hi'
    simp only [slotStep]
    rw [Table.get_set _ n i _ hn hi', if_neg (by omega)]
    exact ok.unsplit i (by omega) hi'
  case ownSlot =>
    intro i hi
    simp only [slotStep, ok.assigned n hn]
    rw [Table.get_set _ (2 * n) _ _ (by omega) (by omega), Table.get_set _ (2 * n) _ _ (by omega) (by omega),
      if_neg (by omega), if_neg (by omega), Table.get_set _ (2 * n + 1) _ _ (by omega) (by omega),
      Table.get_set _ (2 * n + 1) _ _ (by omega) (by omega)]
    rcases hcases i hi with hlt | rfl
    · rw [if_neg (by omega), if_neg (by omega)]
      exact ok.ownSlot i hlt
    · rw [if_pos rfl, if_pos rfl]
      exact ⟨rfl, rfl⟩
  case donorSlot =>
    intro i hi
    simp only [slotStep, hk, hd, ok.assigned _ hdonor]
    rw [Table.get_set _ (2 * n) _ _ (by omega) (by omega), Table.get_set _ (2 * n) _ _ (by omega) (by omega)]
    rcases hcases i hi with hlt | rfl
    · rw [if_neg (by omega), if_neg (by omega), Table.get_set_ne _ _ _ _ (by omega) (by omega) (by omega),
        Table.get_set_ne _ _ _ _ (by omega) (by omega) (by omega)]
      exact ok.donorSlot i hlt
    · rw [if_pos rfl, if_pos rfl]
      exact ⟨rfl, rfl⟩

omit hkept in
/-- The two runs of code points that bucket `n` writes into `alias_remap`, its own symbol's and its donor's. -/
theorem slotStep_remap (hm : ModelOk s) (hown : v.given s.p.height n n + v.kept n ≤ (s.freq.get n).toNat)
    (hdonor : v.given s.p.height n (v.donor n) + (s.p.height - v.kept n) ≤ (s.freq.get (v.donor n)).toNat)
    {sym d : Nat} (hs : sym < 256) (hd : d < (s.freq.get sym).toNat) :
    (slotStep s.p.height s.freq s.cum v.symId n z).aliasRemap.get ((s.cum.entry sym).toNat + d) =
      if sym = v.donor n ∧ v.given s.p.height n (v.donor n) ≤ d ∧
          d < v.given s.p.height n (v.donor n) + (s.p.height - v.kept n) then
        BitVec.ofNat 32 (n * s.p.height + v.kept n + ((s.cum.entry sym).toNat + d -
          ((s.cum.entry (v.donor n)).toNat + v.given s.p.height n (v.donor n))))
      else if sym = n ∧ v.given s.p.height n n ≤ d ∧ d < v.given s.p.height n n + v.kept n then
        BitVec.ofNat 32 (n * s.p.height + ((s.cum.entry sym).toNat + d -
          ((s.cum.entry n).toNat + v.given s.p.height n n)))
      else z.aliasRemap.get ((s.cum.entry sym).toNat + d) := by
  have hk : (z.divider.get n).toNat = v.kept n := congrArg BitVec.toNat (ok.unsplit n (Nat.le_refl n) hn)
  have hd' : (v.symId.get (2 * n)).toNat = v.donor n := rfl
  have hx : (s.cum.entry sym).toNat + d < 65536 := Nat.lt_of_lt_of_le (hm.cum_add_lt hs hd) s.p.mass_le
  simp only [slotStep, hk, hd', ok.assigned _ (v.donor_lt n), ok.assigned n hn]
  rw [get_putRun _ _ _ _ hx, get_putRun _ _ _ _ hx]
  simp only [hm.in_run_iff hs hd (v.donor_lt n) hdonor, hm.in_run_iff hs hd hn hown]

end

section
variable {s : State} {v : Sweep} (ok : SweepOk s.p.height s.freq v)
include ok

theorem slotsBelow_ok {n : Nat} (hn : n ≤ 256) : SlotsOk s v n (slotsBelow n s v) := by
  induction n with
  | zero =>
    exact
      { assigned := fun sym _ => Table.get_fill 0 8 sym
        split := fun _ hi => absurd hi (Nat.not_lt_zero _)
        unsplit := fun _ _ _ => rfl
        ownSlot := fun _ hi => absurd hi (Nat.not_lt_zero _)
        donorSlot := fun _ hi => absurd hi (Nat.not_lt_zero _) }
  | succ n ih => exact slotStep_ok hn (ih (by omega)) (ok.kept_le n hn)

variable (hm : ModelOk s) (hrem : ∀ i, i < 256 → v.remaining.get i = v.kept i)
include hm hrem

/-- The code points a bucket gives out are written where no other bucket's are, so each stays (41_alias_table.md
R103, R105). -/
theorem slotsBelow_remap {n : Nat} (hn : n ≤ 256) {y : Nat} (hy : y < n * s.p.height) :
    ((slotsBelow n s v).aliasRemap.get
      ((s.cum.entry (v.symAt s.p.height y)).toNat + v.offsetAt s.p.height y)).toNat = y := by
  induction n with
  | zero => omega
  | succ n ih =>
    have hh : 0 < s.p.height := s.p.height_range.1
    have hy256 : y / s.p.height < 256 := Nat.lt_of_lt_of_le (Nat.div_lt_of_lt_mul (Nat.mul_comm _ _ ▸ hy)) hn
    have hprod : (n + 1) * s.p.height ≤ 256 * 256 := Nat.mul_le_mul hn s.p.height_range.2
    have hsym := v.symAt_lt hy256
    have hall : ∀ sym, sym < 256 → v.given s.p.height (n + 1) sym ≤ (s.freq.get sym).toNat := fun sym hs =>
      ok.given_all hs (hrem sym hs) ▸ v.given_mono sym hn
    have hoff : v.offsetAt s.p.height y < (s.freq.get (v.symAt s.p.height y)).toNat :=
      ok.given_all hsym (hrem _ hsym) ▸ v.offsetAt_lt_given hh hy256
    have hdonor := v.donor_lt n
    have hkept := ok.kept_le n hn
    have halln := hall n hn
    have halld := hall _ hdonor
    rw [Sweep.given_succ, if_pos rfl] at halln halld
    change ((slotStep s.p.height s.freq s.cum v.symId n (slotsBelow n s v)).aliasRemap.get _).toNat = y
    rw [slotStep_remap hn (slotsBelow_ok ok (Nat.le_of_lt hn)) hm (by omega) (by omega) hsym hoff]
    by_cases hold : y < n * s.p.height
    · have hlt : v.offsetAt s.p.height y < v.given s.p.height n (v.symAt s.p.height y) :=
        v.offsetAt_lt_given hh (Nat.div_lt_of_lt_mul (Nat.mul_comm _ _ ▸ hold))
      rw [if_neg, if_neg]
      · exact ih (by omega) hold
      · rintro ⟨hs, hlo, -⟩
        rw [hs] at hlt
        omega
      · rintro ⟨hs, hlo, -⟩
        rw [hs] at hlt
        omega
    · have hdiv : y / s.p.height = n := Nat.div_eq_of_lt_le (by omega) hy
      have hmod : n * s.p.height + y % s.p.height = y := by
        rw [← hdiv, Nat.mul_comm]
        exact Nat.div_add_mod y s.p.height
      have hmodlt := Nat.mod_lt y hh
      by_cases hk : y % s.p.height < v.kept n
      · have hs : v.symAt s.p.height y = n := by rw [Sweep.symAt, hdiv, if_pos hk]
        have ho : v.offsetAt s.p.height y = v.given s.p.height n n + y % s.p.height := by
          rw [Sweep.offsetAt, hdiv, if_pos hk]
        rw [hs, ho, if_neg, if_pos ⟨rfl, by omega, by omega⟩, BitVec.toNat_ofNat]
        · omega
        · rintro ⟨hself, hlo, hhi⟩
          exact (ok.finished n hn (by omega)).2.1 hself.symm
      · have hs : v.symAt s.p.height y = v.donor n := by rw [Sweep.symAt, hdiv, if_neg hk]
        have ho : v.offsetAt s.p.height y = v.given s.p.height n (v.donor n) + (y % s.p.height - v.kept n) := by
          rw [Sweep.offsetAt, hdiv, if_neg hk]
        rw [hs, ho, if_pos ⟨rfl, by omega, by omega⟩, BitVec.toNat_ofNat]
        omega

end
end Sys2Proof.Machine
end

/-! ### ABLD on a normalized model builds a correct table -/

section
namespace Sys2Proof.Machine

/-- `s` with the five arrays as the two phases leave them, MS and TV as they were. -/
def State.withSlots (s : State) (v : Sweep) (z : Slots) : State :=
  s.setAlias z.divider v.symId z.slotFreqs z.slotAdjust z.aliasRemap

theorem buildTable_eq {s : State} {v : Sweep} {z : Slots} (hv : v = sweep s.p.height s.freq)
    (hz : z = slotsBelow 256 s v) :
    buildTable s =
      if allAccounted s.freq z.assigned then .ok ((s.withSlots v z).setFlags s.ms true) ()
      else .raised (s.withSlots v z) .invariantViolation := by
  rw [buildTable, ← hv, ← hz]
  rfl

/-- The slot a code point's bucket and divider lead to (42_coder_state.md R114). -/
def State.decodeSlot (s : State) (y : Nat) : Nat :=
  2 * (y / 2 ^ (s.p.exponent - 8)) + if y < (s.divider.get (y / 2 ^ (s.p.exponent - 8))).toNat then 1 else 0

theorem State.decodeSym_eq (s : State) (y : Nat) : s.decodeSym y = (s.symId.get (s.decodeSlot y)).toNat := rfl

theorem State.decodeDelta_eq (s : State) (y : Nat) :
    s.decodeDelta y = (BitVec.ofNat 32 y - s.slotAdjust.get (s.decodeSlot y)).toNat := rfl

theorem State.decodeFreq_eq (s : State) (y : Nat) : s.decodeFreq y = (s.slotFreqs.get (s.decodeSlot y)).toNat := rfl

/-- Taking the adjustment of a slot from a code point leaves the offset it stands for. -/
theorem sub_adjust_toNat {base offset counted : Nat} {adjust : Word}
    (h : adjust = BitVec.ofNat 32 base - (BitVec.ofNat 32 counted - BitVec.ofNat 32 offset)) {y : Nat}
    (hy : base + offset ≤ y) (hlt : counted + y < 2 ^ 32) :
    (BitVec.ofNat 32 y - adjust).toNat = counted + (y - (base + offset)) := by
  obtain ⟨e, rfl⟩ : ∃ e, y = base + offset + e := ⟨y - (base + offset), by omega⟩
  have heq : BitVec.ofNat 32 (base + offset + e) - adjust = BitVec.ofNat 32 (counted + e) := by
    rw [h]
    simp only [BitVec.ofNat_add]
    ring
  rw [heq, BitVec.toNat_ofNat]
  omega

section
variable {s : State} {v : Sweep} {z : Slots} (ok : SweepOk s.p.height s.freq v) (slots : SlotsOk s v 256 z)

section
variable {y : Nat} (hy : y < 2 ^ s.p.exponent)
include hy

theorem codePoint_bucket : y / s.p.height < 256 ∧ y / s.p.height * s.p.height + y % s.p.height = y ∧
    y % s.p.height < s.p.height :=
  ⟨Nat.div_lt_of_lt_mul (by rw [Nat.mul_comm, ← s.p.mass_eq]; exact hy),
    by rw [Nat.mul_comm]; exact Nat.div_add_mod _ _, Nat.mod_lt _ s.p.height_range.1⟩

include slots

theorem withSlots_decodeSlot : (s.withSlots v z).decodeSlot y =
    2 * (y / s.p.height) + if y % s.p.height < v.kept (y / s.p.height) then 1 else 0 := by
  obtain ⟨hb, hmod, -⟩ := codePoint_bucket hy
  have hiff : y < (z.divider.get (y / s.p.height)).toNat ↔ y % s.p.height < v.kept (y / s.p.height) := by
    rw [slots.split _ hb]
    omega
  change 2 * (y / s.p.height) + (if y < (z.divider.get (y / s.p.height)).toNat then 1 else 0) = _
  simp only [hiff]

theorem withSlots_decodeFreq :
    (s.withSlots v z).decodeFreq y = (s.freq.get (v.symAt s.p.height y)).toNat := by
  obtain ⟨hb, -, -⟩ := codePoint_bucket hy
  rw [State.decodeFreq_eq, withSlots_decodeSlot slots hy, Sweep.symAt]
  split
  · exact congrArg BitVec.toNat (slots.ownSlot _ hb).1
  · exact congrArg BitVec.toNat (slots.donorSlot _ hb).1

include ok

theorem withSlots_decodeSym : (s.withSlots v z).decodeSym y = v.symAt s.p.height y := by
  obtain ⟨hb, -, -⟩ := codePoint_bucket hy
  rw [State.decodeSym_eq, withSlots_decodeSlot slots hy, Sweep.symAt]
  split
  · exact ok.primary _ hb
  · rfl

theorem withSlots_decodeDelta (hm : ModelOk s) (hfull : ∀ i, i < 256 → v.remaining.get i = v.kept i) :
    (s.withSlots v z).decodeDelta y = v.offsetAt s.p.height y := by
  obtain ⟨hb, hmod, hlt⟩ := codePoint_bucket hy
  have hmass := s.p.mass_le
  have hgiven : ∀ sym, sym < 256 → v.given s.p.height (y / s.p.height) sym ≤ 65536 := fun sym hs =>
    calc v.given s.p.height (y / s.p.height) sym
        ≤ v.given s.p.height 256 sym := v.given_mono sym hb.le
      _ = (s.freq.get sym).toNat := ok.given_all hs (hfull sym hs)
      _ ≤ 2 ^ s.p.exponent := hm.freq_le hs
      _ ≤ 65536 := hmass
  rw [State.decodeDelta_eq, withSlots_decodeSlot slots hy, Sweep.offsetAt]
  split
  next hown =>
    have hadj := (slots.ownSlot _ hb).2
    have := hgiven _ hb
    rw [← BitVec.sub_zero (BitVec.ofNat 32 (v.given _ _ _))] at hadj
    refine (sub_adjust_toNat (offset := 0) hadj (by omega) (by omega)).trans ?_
    omega
  next hdonor =>
    have := hgiven _ (v.donor_lt (y / s.p.height))
    refine (sub_adjust_toNat (slots.donorSlot _ hb).2 (by omega) (by omega)).trans ?_
    omega

end

include ok slots

/-- The phases make a correct table of a normalized model when the sweep has filled every bucket and every code point
stands where it was given out. -/
theorem withSlots_tableOk (hm : ModelOk s) (hfull : ∀ i, i < 256 → v.remaining.get i = v.kept i)
    (hremap : ∀ y, y < 2 ^ s.p.exponent →
      (z.aliasRemap.get ((s.cum.entry (v.symAt s.p.height y)).toNat + v.offsetAt s.p.height y)).toNat = y) :
    TableOk (s.withSlots v z) := by
  refine { remapThenDecode := fun sym hs d hd => ?_, decodeThenRemap := fun y hy => ?_, slotFreq := fun y hy => ?_ }
  · change d < (s.freq.get sym).toNat at hd
    rw [← ok.given_all hs (hfull sym hs)] at hd
    obtain ⟨y, hy, hsym, hoff⟩ := ok.exists_code (Nat.le_refl 256) hd
    rw [← s.p.mass_eq] at hy
    have hcode := hremap y hy
    rw [hsym, hoff] at hcode
    change (z.aliasRemap.get ((s.cum.entry sym).toNat + d)).toNat < 2 ^ s.p.exponent ∧
      (s.withSlots v z).decodeSym (z.aliasRemap.get ((s.cum.entry sym).toNat + d)).toNat = sym ∧
      (s.withSlots v z).decodeDelta (z.aliasRemap.get ((s.cum.entry sym).toNat + d)).toNat = d
    rw [hcode, withSlots_decodeSym ok slots hy, withSlots_decodeDelta ok slots hy hm hfull]
    exact ⟨hy, hsym, hoff⟩
  · have hb : y / s.p.height < 256 := (codePoint_bucket hy).1
    rw [withSlots_decodeSym ok slots hy, withSlots_decodeDelta ok slots hy hm hfull]
    refine ⟨?_, hremap y hy⟩
    change _ < (s.freq.get _).toNat
    rw [← ok.given_all (v.symAt_lt hb) (hfull _ (v.symAt_lt hb))]
    exact v.offsetAt_lt_given s.p.height_range.1 hb
  · rw [withSlots_decodeFreq slots hy, withSlots_decodeSym ok slots hy]
    rfl

end

section
variable {s : State} {v : Sweep} {z : Slots} (hv : v = sweep s.p.height s.freq)
include hv

theorem sweep_height_ok : SweepOk s.p.height s.freq v := hv ▸ sweep_ok s.p.height_range.2 s.freq

/-- The sweep of a normalized model has ended with every bucket full (41_alias_table.md R101). -/
theorem ModelOk.sweep_full (hm : ModelOk s) : ∀ i, i < 256 → v.remaining.get i = v.kept i :=
  (sweep_height_ok hv).remaining_eq_kept (hv ▸ sweep_ended s.p.height s.freq) hm.sum_freq

variable (hz : z = slotsBelow 256 s v)
include hz

theorem slots_ok : SlotsOk s v 256 z := hz ▸ slotsBelow_ok (sweep_height_ok hv) (Nat.le_refl 256)

theorem ModelOk.table_ok (hm : ModelOk s) : TableOk (s.withSlots v z) := by
  refine withSlots_tableOk (sweep_height_ok hv) (slots_ok hv hz) hm (hm.sweep_full hv) fun y hy => ?_
  rw [hz]
  exact slotsBelow_remap (sweep_height_ok hv) hm (hm.sweep_full hv) (Nat.le_refl 256) (by rw [← s.p.mass_eq]; exact hy)

/-- The post-condition holds, so ABLD completes with the table (41_alias_table.md R104). -/
theorem ModelOk.buildTable_completes (hm : ModelOk s) :
    buildTable s = .ok ((s.withSlots v z).setFlags s.ms true) () := by
  have hall : allAccounted s.freq z.assigned = true := by
    refine (allBelow_iff 256 _).mpr fun sym hs => decide_eq_true ?_
    rw [(slots_ok hv hz).assigned sym hs, (sweep_height_ok hv).given_all hs (hm.sweep_full hv sym hs)]
  rw [buildTable_eq hv hz, if_pos hall]

end
end Sys2Proof.Machine
end

/-! ### What keeps the model and the table -/

section
namespace Sys2Proof.Machine

/-- The part of the state that `ModelOk`, `TableOk` and their premises look at, over a state of reset values. -/
def State.modelPart (s : State) : State :=
  { State.powerOn 0 0 with
    p := s.p
    ms := s.ms
    tv := s.tv
    freq := s.freq
    cum := s.cum
    divider := s.divider
    symId := s.symId
    slotFreqs := s.slotFreqs
    slotAdjust := s.slotAdjust
    aliasRemap := s.aliasRemap }

theorem ModelOk.of_modelPart {s t : State} (h : ModelOk s) (hpart : t.modelPart = s.modelPart) : ModelOk t :=
  have hs : ModelOk s.modelPart := { h with }
  { hpart ▸ hs with }

theorem TableOk.of_modelPart {s t : State} (h : TableOk s) (hpart : t.modelPart = s.modelPart) : TableOk t :=
  have hs : TableOk s.modelPart := { h with }
  { hpart ▸ hs with }

section
variable {s t : State} (h : RunOk s)

theorem runOk_of_raw (ht : StateOk t) (hraw : t.ms = .raw) : RunOk t where
  state := ht
  model hv := absurd (hraw.symm.trans hv) nofun
  table htv := absurd (hraw.symm.trans (ht.tvValid htv)) nofun

include h

/-- What leaves the model and the table alone keeps `RunOk` where it keeps `StateOk`. -/
theorem RunOk.of_modelPart (ht : StateOk t) (hpart : t.modelPart = s.modelPart) : RunOk t where
  state := ht
  model hv := by
    have hms : s.ms = .valid := (congrArg State.ms hpart).symm.trans hv
    exact (h.model hms).of_modelPart hpart
  table htv := by
    have hs : s.tv = true := (congrArg State.tv hpart).symm.trans htv
    exact (h.table hs).of_modelPart hpart

theorem RunOk.writeMsg (i : Nat) (b : Byte) : RunOk (s.writeMsg i b) := by
  refine h.of_modelPart (h.state.writeMsg i b) ?_
  unfold State.writeMsg
  split <;> rfl

theorem RunOk.writeStr (a : Nat) (b : Byte) : RunOk (s.writeStr a b) := by
  refine h.of_modelPart (h.state.writeStr a b) ?_
  unfold State.writeStr
  split <;> rfl

end

/-! #### FNORM and FLD -/

/-- Step 4's assertions say that the gaps of `cum[]` are a normalized model (40_frequency_model.md R93). -/
theorem modelOk_of_normalized {s : State} {freq : Table Word 8} (hcheck : normalized s.p.mass freq s.cum = true)
    (hfreq : s.freq = gaps s.cum) : ModelOk s := by
  simp only [normalized, Bool.and_eq_true, decide_eq_true_eq, allBelow_iff] at hcheck
  obtain ⟨⟨hfirst, htotal⟩, hmono⟩ := hcheck
  refine { first := hfirst, step := fun i hi => ?_, total := htotal }
  have hle := (hmono i hi).1
  rw [hfreq, gaps, Table.get_tabulate 8 _ i hi, BitVec.toNat_sub_of_le (BitVec.le_def.mpr hle)]
  omega

/-- The running sums of counts that fit are exact, so a total of `M` makes a normalized model (40_frequency_model.md
R96). -/
theorem modelOk_of_prefixSums {s : State} {c : CumTable} (hb : ∀ i, i < 256 → (s.freq.get i).toNat < 2 ^ 24)
    (hcum : s.cum = prefixSums s.freq 256 c) (htotal : (s.cum.entry 256).toNat = s.p.mass) : ModelOk s := by
  have hle := freqSum_le s (n := 256) (bound := 2 ^ 24 - 1) fun i hi => Nat.le_sub_one_of_lt (hb i hi)
  have hentry : ∀ i, i ≤ 256 → (s.cum.entry i).toNat = s.freqSum i := fun i hi => by
    have := freqSum_mono s hi
    rw [hcum, prefixSums_entry s c (Nat.le_refl 256) i hi, BitVec.toNat_ofNat]
    omega
  refine { first := BitVec.eq_of_toNat_eq (hentry 0 (by omega)), step := fun i hi => ?_, total := htotal }
  rw [hentry (i + 1) hi, hentry i hi.le, State.freqSum]

section
variable {s : State}

/-- A RAW model, or a model without a table that is normalized if it is VALID: what FNORM and FLD leave. -/
def ModelFresh (t : State) : Prop := t.ms = .raw ∨ t.tv = false ∧ (t.ms = .valid → ModelOk t)

theorem runOk_of_fresh {t : State} (ht : StateOk t) (hfresh : ModelFresh t) : RunOk t := by
  rcases hfresh with hraw | ⟨htv, hm⟩
  · exact runOk_of_raw ht hraw
  · exact
      { state := ht
        model := hm
        table := fun h => absurd (htv.symm.trans h) nofun }

theorem fnormBody_fresh (hraw : s.ms = .raw) : ModelFresh (fnormBody s).state := by
  simp only [fnormBody]
  generalize prefixSums s.freq 256 s.cum = sums
  generalize repairBelow s.freq 256 _ = repaired
  split
  next => exact .inr ⟨rfl, nofun⟩
  next =>
    split
    next hok => exact .inr ⟨rfl, fun _ => modelOk_of_normalized (Bool.and_eq_true_iff.mp hok).2 rfl⟩
    next => exact .inl hraw

theorem checkLoaded_fresh (hraw : s.ms = .raw) (hb : ∀ i, i < 256 → (s.freq.get i).toNat < 2 ^ 24) :
    ModelFresh (checkLoaded s).state := by
  simp only [checkLoaded]
  generalize hsums : prefixSums s.freq 256 s.cum = sums
  split
  next htotal => exact .inr ⟨rfl, fun _ => modelOk_of_prefixSums hb hsums.symm htotal⟩
  next =>
    split
    · exact .inr ⟨rfl, nofun⟩
    · exact .inl hraw

theorem StateOk.fldBody_fresh (h : StateOk s) (hraw : s.ms = .raw) : ModelFresh (fldBody s).state := by
  have hload : StateOk (forUp 256 loadFreq s).state ∧ (forUp 256 loadFreq s).state.ms = .raw :=
    forUp_keeps (P := fun t => StateOk t ∧ t.ms = .raw) 256 (fun _ hi _ ht => ht.1.loadFreq_keeps hi ht.2) ⟨h, hraw⟩
  unfold fldBody
  cases hres : forUp 256 loadFreq s with
  | ok t a =>
    rw [hres] at hload
    exact checkLoaded_fresh hload.2 (hload.1.rawBounded hload.2)
  | raised t k =>
    rw [hres] at hload
    exact .inl hload.2

end

/-! #### ABLD -/

theorem abldBody_of_valid {s : State} (hvalid : s.ms = .valid) : abldBody s = buildTable s := by
  rw [abldBody, if_neg (by rw [hvalid]; nofun)]

theorem RunOk.abldBody_keeps {s : State} (h : RunOk s) (hms : s.ms ≠ .raw) : RunOk (abldBody s).state := by
  have hs := h.state.abldBody_keeps hms
  cases hm : s.ms with
  | raw => exact absurd hm hms
  | empty =>
    rw [abldBody, if_pos hm] at hs ⊢
    exact runOk_of_fresh hs (.inr ⟨rfl, fun hv => absurd (hm.symm.trans hv) nofun⟩)
  | valid =>
    have hmodel := h.model hm
    obtain ⟨v, hv⟩ : ∃ v, v = sweep s.p.height s.freq := ⟨_, rfl⟩
    obtain ⟨z, hz⟩ : ∃ z, z = slotsBelow 256 s v := ⟨_, rfl⟩
    have htable := hmodel.table_ok hv hz
    rw [abldBody_of_valid hm, hmodel.buildTable_completes hv hz] at hs ⊢
    exact
      { state := hs
        model := fun _ => { hmodel with }
        table := fun _ => { htable with } }

end Sys2Proof.Machine
end

/-! ### The commands that leave the model alone -/

section
namespace Sys2Proof.Machine

/-- The command writes `freq[]`, `cum[]`, the table, CFG, MS or TV (30_encoding.md R73). -/
def Instr.writesModel (i : Instr) : Prop :=
  match i with
  | .cfg _ _ | .srst | .fclr | .fcnt _ | .fscan | .fnorm | .fld | .abld => True
  | _ => False

/-- `P` survives what the coder, driver and stream commands are made of: PutByte's write, moving RP, the coder states,
SYMO, MSG, and the writes of WP, REND and LEN. -/
structure StreamClosed (P : State → Prop) : Prop where
  sink : ∀ s b, s.wp ≠ 0 → P s → P ((s.setWp (s.wp - 1)).writeStr (s.wp - 1).toNat b)
  setRp : ∀ s v, P s → P (s.setRp v)
  setR : ∀ s j v, P s → P (s.setR j v)
  setSymo : ∀ s b, P s → P (s.setSymo b)
  writeMsg : ∀ s i b, P s → P (s.writeMsg i b)
  emptySink : ∀ s, P s → P (s.setWp s.strCap)
  setRend : ∀ s v, P s → P (s.setRend v)
  setLen : ∀ s v, P s → P (s.setLen v)

theorem StreamClosed.body_keeps {P : State → Prop} (hP : StreamClosed P) {i : Instr} (hi : ¬ Instr.writesModel i)
    {s : State} (hs : P s) : P (commandBody i s).state := by
  cases i with
  | nop => exact hs
  | cfg | srst | fclr | fcnt | fscan | fnorm | fld | abld => exact absurd trivial hi
  | fst => exact fstBody_keeps hP.sink hs
  | einit j => exact einitBody_keeps hP.setR j.toNat hs
  | eput j sym => exact eputBody_keeps hP.sink hP.setR j.toNat sym.toNat hs
  | eflush j => exact eflushBody_keeps hP.sink j.toNat hs
  | enc => exact encBody_keeps hP.sink hP.setR hs
  | dinit j => exact dinitBody_keeps hP.setRp hP.setR j.toNat hs
  | dget j => exact dgetBody_keeps hP.setR hP.setSymo j.toNat hs
  | drenorm j => exact drenormBody_keeps hP.setRp hP.setR j.toNat hs
  | dec => exact decBody_keeps hP.setRp hP.setR hP.setSymo hP.writeMsg hs
  | sclr => exact hP.emptySink s hs
  | rewind => exact hP.setRend _ _ (hP.setRp _ _ hs)
  | lst => exact pushBytes_keeps hP.sink 8 _ hs
  | lld =>
    refine Res.bind_keeps (pullBytes_keeps hP.setRp 8 hs) fun t v ht => ?_
    split
    · exact ht
    · exact hP.setLen t _ ht

end Sys2Proof.Machine
end

/-! ### Every step keeps `RunOk` -/

section
namespace Sys2Proof.Machine

theorem runOk_streamClosed : StreamClosed RunOk where
  sink s b hw h := by
    refine h.of_modelPart (h.state.sink b hw) ?_
    unfold State.writeStr
    split <;> rfl
  setRp _ v h := h.of_modelPart (h.state.setRp v) rfl
  setR _ j v h := h.of_modelPart (h.state.setR j v) rfl
  setSymo _ b h := h.of_modelPart (h.state.setSymo b) rfl
  writeMsg _ i b h := h.writeMsg i b
  emptySink _ h := h.of_modelPart (h.state.setWp (Nat.le_refl _)) rfl
  setRend _ v h := h.of_modelPart (h.state.setRend v) rfl
  setLen _ v h := h.of_modelPart (h.state.setLen v) rfl

theorem RunOk.commandBody_keeps {i : Instr} {s : State} (ha : admits i s = true) (h : RunOk s) :
    RunOk (commandBody i s).state := by
  by_cases hi : Instr.writesModel i
  case neg => exact runOk_streamClosed.body_keeps hi h
  have hs := h.state.commandBody_keeps ha
  rw [admits_iff] at ha
  cases i with
  | cfg k p =>
    simp only [commandBody] at hs ⊢
    split at hs
    · exact runOk_of_raw hs rfl
    · exact h
  | srst => exact runOk_of_raw hs rfl
  | fclr => exact runOk_of_raw hs rfl
  | fcnt b => exact runOk_of_raw hs ha
  | fscan => exact runOk_of_raw hs ha.1
  | fnorm => exact runOk_of_fresh hs (fnormBody_fresh ha)
  | fld => exact runOk_of_fresh hs (h.state.fldBody_fresh ha)
  | abld => exact h.abldBody_keeps (by rcases ha with hm | hm <;> rw [hm] <;> nofun)
  | _ => exact absurd hi id

theorem runOk_stepClosed : StepClosed RunOk where
  withInputs _ inputs h := h.of_modelPart (h.state.withInputs inputs) rfl
  bumpCc _ h := h.of_modelPart h.state.bumpCc rfl
  latch _ f word h := h.of_modelPart (h.state.latch f word) rfl
  setLen := runOk_streamClosed.setLen
  setRp := runOk_streamClosed.setRp
  setRend := runOk_streamClosed.setRend
  writeMsg _ a b h := h.writeMsg a b
  writeStr _ a b h := h.writeStr a b
  resetKeepingBuffers _ h := runOk_of_raw h.state.resetKeepingBuffers rfl
  resetLosingBuffers _ h := runOk_of_raw h.state.resetLosingBuffers rfl
  body _ _ _ _ ha h := h.commandBody_keeps ha

/-- Settles O19: `RunOk` survives everything a step is made of; FNORM and FLD make a VALID model only of a normalized
one, and ABLD of a normalized model builds a correct table and never stops in the middle of it. -/
theorem stepKeepsModelAndTable : Obligations.StepKeepsModelAndTable :=
  fun _ _ hs h => runOk_stepClosed.step_keeps hs h

end Sys2Proof.Machine
end

/-! ### The donors of the sweep (41_alias_table.md R101) -/

section
namespace Sys2Proof.Machine

/-- The symbol starts the sweep with less than a bucket's height. -/
def StartsSmall (height : Nat) (freq : Table Word 8) (i : Nat) : Prop := (freq.get i).toNat < height

/-- `i` is the first index below 256 at which `p` holds. -/
def FirstAt (p : Nat → Prop) (i : Nat) : Prop := i < 256 ∧ p i ∧ ∀ x, x < i → ¬ p x

/-- A scan stops at the first entry it is not to skip. -/
theorem scanLarge_first {height j : Nat} {remaining : Table Nat 8}
    (h : FirstAt (fun x => ¬ remaining.get x < height) j) : scanLarge height remaining 0 = j := by
  obtain ⟨hj, hfull, hbefore⟩ := h
  rcases Nat.lt_trichotomy (scanLarge height remaining 0) j with hlt | heq | hgt
  · exact absurd (Nat.not_lt_of_le (le_of_scanLarge_eq rfl (by omega))) (hbefore _ hlt)
  · exact heq
  · exact absurd (lt_of_lt_scanLarge (Nat.zero_le j) hgt) hfull

theorem scanSmall_first {height i : Nat} {remaining : Table Nat 8}
    (h : FirstAt (fun x => remaining.get x < height) i) : scanSmall height remaining 0 = i := by
  obtain ⟨hi, hlow, hbefore⟩ := h
  rcases Nat.lt_trichotomy (scanSmall height remaining 0) i with hlt | heq | hgt
  · exact absurd (lt_of_scanSmall_eq rfl (by omega)) (hbefore _ hlt)
  · exact heq
  · exact absurd hlow (Nat.not_lt_of_le (le_of_lt_scanSmall (Nat.zero_le i) hgt))

/-- Between two turns: the donors of the finished buckets whose symbols started small go up with the symbol and have not
passed the donor cursor; and the first of these symbols has, or is about to get, the first symbol that did not. -/
structure DonorsOk (height : Nat) (freq : Table Word 8) (v : Sweep) : Prop where
  ascend : ∀ i i', i < i' → i' < 256 → StartsSmall height freq i → StartsSmall height freq i' →
    v.kept i < height → v.kept i' < height → v.donor i ≤ v.donor i'
  le_large : ∀ i, i < 256 → v.kept i < height → v.donor i ≤ v.large
  last : v.small < 256 → StartsSmall height freq v.small → v.nextSmall = v.small + 1
  first : ∀ i j, FirstAt (StartsSmall height freq) i → FirstAt (fun x => ¬ StartsSmall height freq x) j →
    (v.kept i < height ∧ v.donor i = j) ∨ (v.small = i ∧ v.large = j)

section
variable {height : Nat} (hh : height ≤ 256)
include hh

theorem sweepStart_donorsOk (freq : Table Word 8) : DonorsOk height freq (sweepStart height freq) where
  ascend i _ _ _ _ _ hlt _ := absurd (sweepStart_kept hh freq i) hlt.ne
  le_large i _ hlt := absurd (sweepStart_kept hh freq i) hlt.ne
  last _ _ := rfl
  first i j hi hj := .inr
    ⟨scanSmall_first (by simpa [FirstAt, StartsSmall] using hi),
      scanLarge_first (by simpa [FirstAt, StartsSmall] using hj)⟩

theorem sweepStep_donorsOk {freq : Table Word 8} {v : Sweep} (ok : SweepOk height freq v) (hl : v.large < 256)
    (hm : v.small < 256) (donors : DonorsOk height freq v) : DonorsOk height freq (sweepStep height v) := by
  have hkept := @sweepStep_kept height v freq hh ok hm
  have hdonor := @sweepStep_donor height v hl hm
  obtain ⟨hsmall, hopen, -⟩ := ok.small_open hm
  refine { ascend := ?ascend, le_large := ?le_large, last := ?last, first := ?first }
  case ascend =>
    intro i i' hlt hi' hsi hsi' hki hki'
    have hi : i < 256 := hlt.trans hi'
    rw [hkept hi] at hki
    rw [hkept hi'] at hki'
    rw [hdonor hi, hdonor hi']
    by_cases h : i = v.small <;> by_cases h' : i' = v.small
    · omega
    · rw [if_neg h'] at hki'
      have hbehind := ok.finished_behind i' hi' hki'
      have hlast := donors.last hm (h ▸ hsi)
      omega
    · rw [if_neg h] at hki
      rw [if_neg h, if_pos h']
      exact donors.le_large i hi hki
    · rw [if_neg h] at hki
      rw [if_neg h'] at hki'
      rw [if_neg h, if_neg h']
      exact donors.ascend i i' hlt hi' hsi hsi' hki hki'
  case le_large =>
    intro i hi hki
    have hge : v.large ≤ (sweepStep height v).large := sweepStep_large ▸ scanLarge_ge
    rw [hkept hi] at hki
    rw [hdonor hi]
    split
    · exact hge
    next h =>
      rw [if_neg h] at hki
      exact (donors.le_large i hi hki).trans hge
  case last =>
    intro _ hs
    by_cases ho : v.onward height
    · exact (sweepStep_onward ho).2
    · rw [(sweepStep_not_onward ho).1] at hs
      have hfull := ok.large_full hl
      have hacc := ok.accounted _ hl
      simp only [StartsSmall] at hs
      omega
  case first =>
    intro i j hi hj
    left
    rw [hkept hi.1, hdonor hi.1]
    rcases donors.first i j hi hj with ⟨hki, hdi⟩ | ⟨rfl, rfl⟩
    · have hne : i ≠ v.small := by
        rintro rfl
        omega
      rw [if_neg hne, if_neg hne]
      exact ⟨hki, hdi⟩
    · rw [if_pos rfl, if_pos rfl]
      exact ⟨hsmall, rfl⟩

theorem sweep_donorsOk (freq : Table Word 8) : DonorsOk height freq (sweep height freq) :=
  (sweepLoop_keeps (P := fun v => SweepOk height freq v ∧ DonorsOk height freq v)
    (fun _ hl hm h => ⟨sweepStep_ok hh h.1 hl hm, sweepStep_donorsOk hh h.1 hl hm h.2⟩) _
    ⟨sweepStart_ok hh freq, sweepStart_donorsOk hh freq⟩).2

end

/-- A symbol that starts small fills nothing elsewhere, so where every bucket is full it keeps its whole frequency. -/
theorem SweepOk.kept_of_startsSmall {height : Nat} {freq : Table Word 8} {v : Sweep} (ok : SweepOk height freq v)
    (hfull : ∀ i, i < 256 → v.remaining.get i = v.kept i) {i : Nat} (hi : i < 256) (hs : StartsSmall height freq i) :
    v.kept i = (freq.get i).toNat := by
  have hlent : v.lent height i = 0 := by
    refine Finset.sum_eq_zero fun b hb => ?_
    have hb : b < 256 := Finset.mem_range.mp hb
    split
    next hdonor =>
      have hopen : v.kept b = height := by
        refine (ok.kept_le b hb).eq_or_lt.resolve_right fun hlt => ?_
        have hbig := (ok.finished b hb hlt).2.2
        rw [hdonor] at hbig
        exact Nat.not_lt_of_le hbig hs
      omega
    next => rfl
  rw [ok.accounted i hi, hlent, hfull i hi, Nat.add_zero]

/-- Completed or not, ABLD on a VALID model leaves the arrays of the two phases. -/
theorem execAbld_arrays {s t : State} {v : Sweep} {z : Slots} (hv : v = sweep s.p.height s.freq)
    (hz : z = slotsBelow 256 s v) (hf : s.fault = none) (hvalid : s.ms = .valid) (h : exec .abld s = .next t) :
    t.symId = v.symId ∧ t.divider = z.divider := by
  have hadmits : admits .abld s = true := (admits_iff _ _).mpr (.inl hvalid)
  rw [exec_eq_issue (by nofun), issue_admitted hf hadmits, commandBody, abldBody_of_valid hvalid,
    buildTable_eq hv hz] at h
  split at h
  all_goals
    obtain rfl := Host.Outcome.next.inj h
    exact ⟨rfl, rfl⟩

/-- Settles O36: the sweep writes no primary and splits no bucket above `height`; with every bucket full, a symbol that
starts small keeps its whole frequency, and its donor is one `DonorsOk` speaks of. -/
theorem abldPrimariesAndDividers : Obligations.AbldPrimariesAndDividers := by
  intro s t hf hvalid hexec height f donor
  obtain ⟨v, hv⟩ : ∃ v, v = sweep s.p.height s.freq := ⟨_, rfl⟩
  obtain ⟨z, hz⟩ : ∃ z, z = slotsBelow 256 s v := ⟨_, rfl⟩
  have ok := sweep_height_ok hv
  have slots := slots_ok hv hz
  obtain ⟨hsymId, hdivider⟩ := execAbld_arrays hv hz hf hvalid hexec
  have hdonor : ∀ i, donor i = v.donor i := fun i => congrArg (fun a => (a.get (2 * i)).toNat) hsymId
  have hsplit : ∀ i, i < 256 → (t.divider.get i).toNat = i * height + v.kept i := fun i hi => by
    rw [hdivider]
    exact slots.split i hi
  refine ⟨fun i hi => ?_, fun hm => ?_⟩
  · have hle : v.kept i ≤ height := ok.kept_le i hi
    rw [hsymId, hsplit i hi, Nat.succ_mul i height]
    exact ⟨ok.primary i hi, by omega, by omega⟩
  have hfull := hm.sweep_full hv
  have donors : DonorsOk height s.freq v := hv ▸ sweep_donorsOk s.p.height_range.2 s.freq
  have hkept : ∀ i, i < 256 → f i < height → v.kept i = f i := fun i hi => ok.kept_of_startsSmall hfull hi
  have hfinished : ∀ i, i < 256 → f i < height → v.kept i < height := fun i hi hlt =>
    (hkept i hi hlt).trans_lt hlt
  refine ⟨fun i hi hlt => ⟨?_, ?_⟩, fun i i' hii' hi' hlt hlt' => ?_, fun i j hi hj hlt hbefore hge hbefore' => ?_⟩
  · rw [hsplit i hi, hkept i hi hlt]
  · rw [hdonor]
    exact (ok.finished i hi (hfinished i hi hlt)).2.2
  · rw [hdonor, hdonor]
    exact donors.ascend i i' hii' hi' hlt hlt' (hfinished i (hii'.trans hi') hlt) (hfinished i' hi' hlt')
  · rw [hdonor]
    have hend : 256 ≤ v.large ∨ 256 ≤ v.small := hv ▸ sweep_ended s.p.height s.freq
    rcases donors.first i j ⟨hi, hlt, fun x hx => Nat.not_lt_of_le (hbefore x hx)⟩
        ⟨hj, Nat.not_lt_of_le hge, fun x hx => not_not_intro (hbefore' x hx)⟩ with ⟨-, h⟩ | ⟨rfl, rfl⟩
    · exact h
    · omega

end Sys2Proof.Machine
end

/-! ### How every command ends -/

section
namespace Sys2Proof.Machine

/-- What only the checks of `issue` and the end of a command touch is in `t` as it is in `s`: the capacities, the
model's own fields, FAULT, FCMD and CC. -/
structure SameControl (s t : State) : Prop where
  inputs : t.inputs = s.inputs
  msgCap : t.msgCap = s.msgCap
  strCap : t.strCap = s.strCap
  bufEpoch : t.bufEpoch = s.bufEpoch
  aliasEpoch : t.aliasEpoch = s.aliasEpoch
  fault : t.fault = s.fault
  fcmd : t.fcmd = s.fcmd
  cc : t.cc = s.cc

theorem SameControl.refl (s : State) : SameControl s s := ⟨rfl, rfl, rfl, rfl, rfl, rfl, rfl, rfl⟩

section
variable {s t : State} (h : SameControl s t)
include h

theorem SameControl.writeStr (a : Nat) (b : Byte) : SameControl s (t.writeStr a b) := by
  unfold State.writeStr
  split
  · exact { h with }
  · exact h

theorem SameControl.writeMsg (i : Nat) (b : Byte) : SameControl s (t.writeMsg i b) := by
  unfold State.writeMsg
  split
  · exact { h with }
  · exact h

theorem SameControl.fnormBody_keeps : SameControl s (fnormBody t).state := by
  simp only [fnormBody]
  generalize prefixSums t.freq 256 t.cum = sums
  generalize repairBelow t.freq 256 _ = repaired
  split
  · exact { h with }
  · split
    · exact { h with }
    · exact { h with }

theorem SameControl.checkLoaded_keeps : SameControl s (checkLoaded t).state := by
  simp only [checkLoaded]
  generalize prefixSums t.freq 256 t.cum = sums
  split
  · exact { h with }
  · split
    · exact { h with }
    · exact { h with }

theorem SameControl.loadFreq_keeps (i : Nat) : SameControl s (loadFreq i t).state :=
  Res.bind_keeps (P := SameControl s) (pullBytes_keeps (fun _ _ h => { h with }) 2 h) fun _ _ h => { h with }

theorem SameControl.fldBody_keeps : SameControl s (fldBody t).state := by
  unfold fldBody
  exact Res.bind_keeps (P := SameControl s) (forUp_keeps 256 (fun i _ _ h => h.loadFreq_keeps i) h) fun _ _ h =>
    h.checkLoaded_keeps

theorem SameControl.abldBody_keeps : SameControl s (abldBody t).state := by
  unfold abldBody
  split
  · exact { h with }
  · obtain ⟨v, hv⟩ : ∃ v, v = sweep t.p.height t.freq := ⟨_, rfl⟩
    obtain ⟨z, hz⟩ : ∃ z, z = slotsBelow 256 t v := ⟨_, rfl⟩
    rw [buildTable_eq hv hz]
    split
    · exact { h with }
    · exact { h with }

end

theorem sameControl_streamClosed (s : State) : StreamClosed (SameControl s) where
  sink t b _ h := SameControl.writeStr (t := t.setWp (t.wp - 1)) { h with } _ b
  setRp _ _ h := { h with }
  setR _ _ _ h := { h with }
  setSymo _ _ h := { h with }
  writeMsg _ i b h := h.writeMsg i b
  emptySink _ h := { h with }
  setRend _ _ h := { h with }
  setLen _ _ h := { h with }

/-- No command's own pseudocode writes the capacities, the model's own fields, FAULT, FCMD or CC. -/
theorem commandBody_control {i : Instr} (hi : i ≠ .srst) (s : State) : SameControl s (commandBody i s).state := by
  have h := SameControl.refl s
  by_cases hw : Instr.writesModel i
  case neg => exact (sameControl_streamClosed s).body_keeps hw h
  cases i with
  | cfg k p =>
    simp only [commandBody]
    split
    · exact { h with }
    · exact h
  | srst => exact absurd rfl hi
  | fclr => exact { h with }
  | fcnt b => exact { h with }
  | fscan => exact { h with }
  | fnorm => exact h.fnormBody_keeps
  | fld => exact h.fldBody_keeps
  | abld => exact h.abldBody_keeps
  | _ => exact absurd hw id

/-- Settles O9: the ways `issue` can end, with a body that leaves FAULT, FCMD, CC and the model's own fields alone. -/
theorem everyCommandEnds : Obligations.EveryCommandEnds := by
  intro i s hi
  obtain ⟨t, ht⟩ := issue_next i (commandBody i) s
  refine ⟨t, (exec_eq_issue hi s).trans ht, ?_⟩
  have hbody := commandBody_control hi s
  rcases issue_cases ht with ⟨hf, rfl⟩ | ⟨hf, ha, rfl⟩ | ⟨hf, ha, ⟨u, hu, rfl⟩ | ⟨u, k, hu, rfl⟩⟩
  · exact ⟨rfl, rfl, rfl, rfl, rfl, .inl ⟨hf, rfl⟩⟩
  · have hna : ¬ AdmittedBySpec i s := fun h => Bool.false_ne_true (ha.symm.trans ((admits_iff i s).mpr h))
    exact ⟨rfl, rfl, rfl, rfl, rfl, .inr (.inl ⟨hf, hna, rfl⟩)⟩
  · rw [hu, Res.state_ok] at hbody
    exact ⟨hbody.inputs, hbody.msgCap, hbody.strCap, hbody.bufEpoch, hbody.aliasEpoch,
      .inr (.inr (.inl ⟨hf, (admits_iff i s).mp ha, hbody.fault.trans hf, hbody.fcmd, congrArg (· + 1) hbody.cc⟩))⟩
  · rw [hu, Res.state_raised] at hbody
    exact ⟨hbody.inputs, hbody.msgCap, hbody.strCap, hbody.bufEpoch, hbody.aliasEpoch,
      .inr (.inr (.inr ⟨hf, (admits_iff i s).mp ha, Option.some_ne_none k, rfl, hbody.cc⟩))⟩

end Sys2Proof.Machine
end

/-! ### Steps and the host port -/

section
namespace Sys2Proof.Machine

theorem step_cons {s : State} {a : Input} {rest : List Input} (h : s.inputs = a :: rest) :
    step s = perform a { s with inputs := rest } := by
  rw [step, h]
  rfl

theorem step_idle {s : State} (h : s.inputs = []) : step s = .next s := by
  rw [step, h]

theorem perform_decoded {w : Word} {i : Instr} (h : decode w = .ok i) (s : State) :
    perform (.command w) s = exec i s := by
  rw [perform, present, h]

/-- Settles O5: the first action is a word that decodes. -/
theorem stepRunsDecodedCommand : Obligations.StepRunsDecodedCommand :=
  fun _ => ⟨fun _ _ _ hs hw => (step_cons hs).trans (perform_decoded hw _), step_idle⟩

/-! #### Registers -/

theorem highHalf_append_lowHalf (v : DWord) : highHalf v ++ lowHalf v = v := by
  unfold highHalf lowHalf
  ext i hi
  simp only [BitVec.getElem_append, BitVec.getElem_extractLsb']
  split
  · rw [Nat.zero_add, BitVec.getLsbD_eq_getElem]
  · rw [show 32 + (i - 32) = i by omega, BitVec.getLsbD_eq_getElem]

theorem cfgWord_toNat (s : State) : s.cfgWord.toNat = s.k.count * 2 ^ 16 + s.p.exponent := by
  unfold State.cfgWord
  cases s.k <;> cases s.p <;> rfl

theorem statusWord_toNat (s : State) :
    s.statusWord.toNat = (if s.fault = none then 0 else 8) + (if s.tv = true then 4 else 0) +
      (match s.ms with | .raw => 0 | .empty => 1 | .valid => 2) := by
  unfold State.statusWord State.faulted
  rcases s.fault with _ | ⟨⟨⟩⟩ <;> cases s.tv <;> cases s.ms <;> rfl

theorem faultWord_toNat (s : State) :
    s.faultWord.toNat =
      (match s.fault with
        | none => 0
        | some .badHeader => 1
        | some .truncatedInput => 2
        | some .io => 3
        | some .invariantViolation => 4
        | some .illegalCommand => 5) := by
  unfold State.faultWord State.faultCode
  cases s.fault with
  | none => rfl
  | some k => cases k <;> rfl

theorem symoWord_toNat (s : State) : s.symoWord.toNat = s.symo.toNat := by
  rw [State.symoWord, BitVec.toNat_append]
  exact Nat.zero_or _

theorem portReadReg_coder (s : State) {j : Nat} (hj : j < 4) : portReadReg s (16 + j) = s.r.get j := by
  rcases show j = 0 ∨ j = 1 ∨ j = 2 ∨ j = 3 by omega with rfl | rfl | rfl | rfl <;> rfl

theorem portReadReg_beyond (s : State) {n : Nat} (hn : 20 ≤ n) : portReadReg s n = 0 := by
  obtain ⟨m, rfl⟩ : ∃ m, n = m + 20 := ⟨n - 20, by omega⟩
  rfl

/-- Settles O10: the fields of `State.powerOn`, as the host reads them. -/
theorem resetValues : Obligations.ResetValues := by
  intro msgCap strCap s
  have hcfg : portReadReg s 0 = 0x0001000E := BitVec.eq_of_toNat_eq <| (cfgWord_toNat s).trans
    (by decide : 1 * 2 ^ 16 + 14 = (0x0001000E : Word).toNat)
  have hstatus : portReadReg s 1 = 0 := BitVec.eq_of_toNat_eq (statusWord_toNat s)
  have hfault : portReadReg s 2 = 0 := BitVec.eq_of_toNat_eq (faultWord_toNat s)
  have hsymo : portReadReg s 4 = 0 := BitVec.eq_of_toNat_eq (symoWord_toNat s)
  exact ⟨fun j _ => Table.get_fill _ 2 j, hcfg, hstatus, hfault, rfl, hsymo, rfl, rfl, rfl, rfl, rfl,
    fun i _ => Table.get_fill 0 8 i, fun i _ => CumTable.entry_zero i, rfl, rfl⟩

/-- Settles O13: CFG, STATUS, FAULT and SYMO field by field, a 64-bit register as its two halves. -/
theorem hostReadsRegisters : Obligations.HostReadsRegisters := by
  intro s
  refine ⟨cfgWord_toNat s, ?_, ?_, rfl, symoWord_toNat s, highHalf_append_lowHalf _, highHalf_append_lowHalf _,
    highHalf_append_lowHalf _, highHalf_append_lowHalf _, highHalf_append_lowHalf _, fun j hj => portReadReg_coder s hj,
    rfl, fun n hn => portReadReg_beyond s hn⟩
  · exact (statusWord_toNat s).trans rfl
  · exact (faultWord_toNat s).trans rfl

/-- Every register number is one of the six the host can write, or is ignored (10_state.md R45). -/
theorem portWriteReg_eq (s : State) (n : Nat) (v : Word) :
    portWriteReg s n v =
      { s with
        len := if n = 5 then portReadReg s 6 ++ v else if n = 6 then v ++ portReadReg s 5 else s.len
        rp := if n = 9 then portReadReg s 10 ++ v else if n = 10 then v ++ portReadReg s 9 else s.rp
        rend := if n = 11 then portReadReg s 12 ++ v else if n = 12 then v ++ portReadReg s 11 else s.rend } := by
  unfold portWriteReg
  split
  case h_7 h5 h6 h9 h10 h11 h12 =>
    rw [if_neg h5, if_neg h6, if_neg h9, if_neg h10, if_neg h11, if_neg h12]
  all_goals rfl

/-- Settles O15: the six numbers the host can write, and the others. -/
theorem hostWritesRegisters : Obligations.HostWritesRegisters := fun _ _ _ _ hs =>
  (step_cons hs).trans (congrArg Host.Outcome.next (portWriteReg_eq _ _ _))

/-! #### Tables and buffers -/

/-- A read of an entry whose contents the spec gives. -/
theorem portReadTable_specified {s : State} {t : HostTable} {i : Nat} (h : t.specified s i = true) :
    portReadTable s t i = if i < t.size then some (t.stored s i) else none := by
  rw [portReadTable, if_pos h]

theorem byteEntry_toNat (b : Byte) : (byteEntry b).toNat = b.toNat :=
  BitVec.toNat_setWidth_of_le (by decide)

/-- A `sym_id` read is 8 bits wide, specified or not (10_state.md R36, 20_memory.md R57). -/
theorem portReadTable_symId_lt {s : State} {i : Nat} {v : Word} (h : portReadTable s (.derived .symId) i = some v) :
    v.toNat < 256 := by
  obtain ⟨b, rfl⟩ : ∃ b, byteEntry b = v := by
    unfold portReadTable at h
    split at h
    · split at h
      · exact ⟨_, Option.some.inj h⟩
      · exact ⟨_, Option.some.inj h⟩
    · cases h
  rw [byteEntry_toNat]
  exact b.isLt

/-- Settles O14: every entry of `freq[]` and `cum[]` is specified, the others while `TV = 1`. -/
theorem hostReadsTablesAndBuffers : Obligations.HostReadsTablesAndBuffers := by
  intro s i
  refine ⟨portReadTable_specified rfl, portReadTable_specified rfl, rfl, rfl, fun v hv => portReadTable_symId_lt hv,
    fun htv => ⟨portReadTable_specified htv, portReadTable_specified htv, portReadTable_specified htv,
      portReadTable_specified htv, fun hi => ?_⟩⟩
  have hin : i < 65536 := Nat.lt_of_lt_of_le hi s.p.mass_le
  have hspec : HostTable.specified (.derived .aliasRemap) s i = true :=
    Bool.and_eq_true_iff.mpr ⟨htv, decide_eq_true hi⟩
  rw [portReadTable_specified hspec]
  exact if_pos hin

end Sys2Proof.Machine
end

/-! ### EPUT, and DGET with DRENORM after it -/

section
namespace Sys2Proof.Machine

/-! #### What the three bodies do -/

theorem putLimit_eq (p : Scale) (f : Nat) : putLimit p f = 2 ^ (31 - p.exponent) * f := by
  cases p <;> rfl

/-- EPUT with room for the bytes it sheds (42_coder_state.md R111). -/
theorem eputBody_ok {s : State} {j sym n : Nat} (hj : j < 4) (hf : s.freq.get sym ≠ 0)
    (hn : n = emitCount (2 ^ (31 - s.p.exponent) * (s.freq.get sym).toNat) (s.r.get j).toNat)
    (hw : n ≤ s.wp.toNat) (hc : s.wp.toNat ≤ s.strCap.toNat) :
    ∃ cells, eputBody j sym s =
        .ok (putSymbol j sym ((s.sunk n cells).setR j (BitVec.ofNat 32 ((s.r.get j).toNat / 256 ^ n)))) () ∧
      Pushed s (s.sunk n cells) n fun i => byteOf (s.r.get j).toNat i := by
  have hpos : 0 < (s.freq.get sym).toNat := Nat.pos_of_ne_zero fun h => hf (BitVec.eq_of_toNat_eq h)
  obtain ⟨hfuel, hge, hlt⟩ := emitCount_spec (2 ^ (31 - s.p.exponent) * (s.freq.get sym).toNat) (s.r.get j)
    (Nat.mul_pos (Nat.two_pow_pos _) hpos)
  rw [← hn] at hfuel hge hlt
  obtain ⟨cells, hloop, hpushed⟩ := putLoop_ok hj n putBound s hc hfuel hge hlt hw
  refine ⟨cells, ?_, hpushed⟩
  rw [eputBody, if_neg hf, putLimit_eq, hloop, Res.bind_ok]

/-- DRENORM when the window brings the state up to `L` (42_coder_state.md R115). -/
theorem drenormBody_ok {s : State} {j m : Nat} (hj : j < 4) (hm : m ≤ s.window)
    (hlt : ∀ i, i < m → s.shiftedIn (s.r.get j).toNat s.rp.toNat i < lowerBound)
    (hge : lowerBound ≤ s.shiftedIn (s.r.get j).toNat s.rp.toNat m)
    (hfit : s.shiftedIn (s.r.get j).toNat s.rp.toNat m < 2 ^ 32) :
    drenormBody j s = .ok ((s.setRp (s.rp + BitVec.ofNat 64 m)).setR j
      (BitVec.ofNat 32 (s.shiftedIn (s.r.get j).toNat s.rp.toNat m))) () := by
  rw [drenormBody, show s.window + 1 = m + (s.window - m + 1) by omega, renormLoop_steps hj m _ s hm hlt, renormLoop,
    if_neg]
  rw [State.setR_r, Table.get_set_self, BitVec.toNat_ofNat, Nat.mod_eq_of_lt hfit]
  omega

theorem slotOf_eq_decodeSlot (s : State) (y : Nat) : s.slotOf y = s.decodeSlot y := by
  change (if y < (s.divider.get (y / s.p.height)).toNat then 2 * (y / s.p.height) + 1 else 2 * (y / s.p.height)) =
    2 * (y / s.p.height) + if y < (s.divider.get (y / s.p.height)).toNat then 1 else 0
  split <;> rfl

/-- DGET on a state that EPUT of `sym` built from `y`: the two invert each other (42_coder_state.md R116). -/
theorem dgetBody_of_put {s : State} {j y sym : Nat} (table : TableOk s) (hsym : sym < 256)
    (hf : 0 < (s.freq.get sym).toNat)
    (hr : (s.r.get j).toNat = y / (s.freq.get sym).toNat * 2 ^ s.p.exponent +
      (s.aliasRemap.get ((s.cum.entry sym).toNat + y % (s.freq.get sym).toNat)).toNat) :
    dgetBody j s = .ok ((s.setR j (BitVec.ofNat 32 y)).setSymo (BitVec.ofNat 8 sym)) () := by
  obtain ⟨hcode, hdsym, hdelta⟩ := table.remapThenDecode sym hsym _ (Nat.mod_lt y hf)
  set code := (s.aliasRemap.get ((s.cum.entry sym).toNat + y % (s.freq.get sym).toNat)).toNat
  have hfreq := table.slotFreq code hcode
  have hpoint : codePoint s.p (s.r.get j) = code := by
    rw [codePoint, hr, Scale.mass, Nat.mul_add_mod', Nat.mod_eq_of_lt hcode]
  have hshift : s.r.get j >>> s.p.exponent = BitVec.ofNat 32 (y / (s.freq.get sym).toNat) := by
    refine BitVec.eq_of_toNat_eq ?_
    have hlt := (s.r.get j).isLt
    have hquot : (s.r.get j).toNat / 2 ^ s.p.exponent = y / (s.freq.get sym).toNat := by
      rw [hr, Nat.mul_comm, Nat.mul_add_div (Nat.two_pow_pos _), Nat.div_eq_of_lt hcode, Nat.add_zero]
    rw [BitVec.toNat_ushiftRight, Nat.shiftRight_eq_div_pow, hquot, BitVec.toNat_ofNat, Nat.mod_eq_of_lt]
    exact hquot ▸ (Nat.div_le_self _ _).trans_lt hlt
  rw [State.decodeFreq_eq, hdsym] at hfreq
  rw [State.decodeDelta_eq] at hdelta
  have hnew : s.slotFreqs.get (s.decodeSlot code) * (s.r.get j >>> s.p.exponent) + BitVec.ofNat 32 code -
      s.slotAdjust.get (s.decodeSlot code) = BitVec.ofNat 32 y := by
    have hoffset : BitVec.ofNat 32 code - s.slotAdjust.get (s.decodeSlot code) =
        BitVec.ofNat 32 (y % (s.freq.get sym).toNat) := by
      refine BitVec.eq_of_toNat_eq ?_
      rw [hdelta, BitVec.toNat_ofNat, Nat.mod_eq_of_lt ((Nat.mod_lt y hf).trans (s.freq.get sym).isLt)]
    rw [add_sub_assoc, hoffset, hshift, BitVec.eq_of_toNat_eq hfreq]
    conv_rhs => rw [← Nat.div_add_mod y (s.freq.get sym).toNat]
    rw [BitVec.ofNat_add, BitVec.ofNat_mul, BitVec.ofNat_toNat, BitVec.setWidth_eq]
  have hsymo : s.symId.get (s.decodeSlot code) = BitVec.ofNat 8 sym := by
    rw [← hdsym, State.decodeSym_eq, BitVec.ofNat_toNat, BitVec.setWidth_eq]
  simp only [dgetBody, hpoint, slotOf_eq_decodeSlot, hnew, hsymo]

/-! #### The interval -/

section
variable {x f e n : Nat} (he : 8 ≤ e ∧ e ≤ 16) (hf : 0 < f ∧ f ≤ 2 ^ e) (hx : 2 ^ 23 ≤ x ∧ x < 2 ^ 31)
  (hge : ∀ i, i < n → 2 ^ (31 - e) * f ≤ x / 256 ^ i) (hlt : x / 256 ^ n < 2 ^ (31 - e) * f)
include he hf hx hge hlt

omit hlt in
/-- A state of the interval sheds at most two bytes (42_coder_state.md R116). -/
theorem emitted_le_two : n ≤ 2 := by
  by_contra hn
  have hbig := hge 2 (by omega)
  have hlimit : 2 ^ 15 * 1 ≤ 2 ^ (31 - e) * f :=
    Nat.mul_le_mul (Nat.pow_le_pow_right (by omega) (by omega)) hf.1
  omega

/-- What is left after the shed bytes is large enough for the symbol to bring the state back into the interval. -/
theorem shed_quotient : 2 ^ (23 - e) ≤ x / 256 ^ n / f ∧ x / 256 ^ n / f < 2 ^ (31 - e) := by
  have hpow : 2 ^ (31 - e) = 2 ^ (23 - e) * 256 := by
    rw [show 31 - e = 23 - e + 8 by omega, Nat.pow_add]
  refine ⟨(Nat.le_div_iff_mul_le hf.1).mpr ?_, Nat.div_lt_of_lt_mul (Nat.mul_comm _ _ ▸ hlt)⟩
  rcases Nat.eq_zero_or_pos n with rfl | hn
  · calc 2 ^ (23 - e) * f ≤ 2 ^ (23 - e) * 2 ^ e := Nat.mul_le_mul_left _ hf.2
      _ = 2 ^ 23 := by rw [← Nat.pow_add, Nat.sub_add_cancel (by omega)]
      _ ≤ x / 256 ^ 0 := by omega
  · have hbefore := hge (n - 1) (by omega)
    have hstep : x / 256 ^ n = x / 256 ^ (n - 1) / 256 := by
      rw [Nat.div_div_eq_div_mul, ← Nat.pow_succ, show (n - 1).succ = n by omega]
    rw [hstep, Nat.le_div_iff_mul_le (by omega)]
    calc 2 ^ (23 - e) * f * 256 = 2 ^ (31 - e) * f := by rw [hpow, Nat.mul_right_comm]
      _ ≤ x / 256 ^ (n - 1) := hbefore

theorem put_in_interval {code : Nat} (hcode : code < 2 ^ e) :
    2 ^ 23 ≤ x / 256 ^ n / f * 2 ^ e + code ∧ x / 256 ^ n / f * 2 ^ e + code < 2 ^ 31 := by
  obtain ⟨hlo, hhi⟩ := shed_quotient he hf hx hge hlt
  have hpow : ∀ k, e ≤ k → 2 ^ (k - e) * 2 ^ e = 2 ^ k := fun k hk => by
    rw [← Nat.pow_add, Nat.sub_add_cancel hk]
  constructor
  · calc 2 ^ 23 = 2 ^ (23 - e) * 2 ^ e := (hpow 23 (by omega)).symm
      _ ≤ x / 256 ^ n / f * 2 ^ e := Nat.mul_le_mul_right _ hlo
      _ ≤ x / 256 ^ n / f * 2 ^ e + code := Nat.le_add_right _ _
  · calc x / 256 ^ n / f * 2 ^ e + code < (x / 256 ^ n / f + 1) * 2 ^ e := by rw [Nat.succ_mul]; omega
      _ ≤ 2 ^ (31 - e) * 2 ^ e := Nat.mul_le_mul_right _ hhi
      _ = 2 ^ 31 := hpow 31 (by omega)

end

/-- Shifting the shed bytes in again, last one first, undoes the shifts. -/
theorem shiftedIn_shed {s : State} {x a n : Nat}
    (hbytes : ∀ i, i < n → s.readStr (a + n - 1 - i) = byteOf x i) :
    ∀ i, i ≤ n → s.shiftedIn (x / 256 ^ n) a i = x / 256 ^ (n - i) := by
  intro i hi
  induction i with
  | zero => rfl
  | succ i ih =>
    have hbyte := hbytes (n - (i + 1)) (by omega)
    rw [show a + n - 1 - (n - (i + 1)) = a + i by omega] at hbyte
    have hpow : x / 256 ^ (n - i) = x / 256 ^ (n - (i + 1)) / 256 := by
      rw [Nat.div_div_eq_div_mul, ← Nat.pow_succ, show (n - (i + 1)).succ = n - i by omega]
    rw [State.shiftedIn, ih (by omega), hbyte, hpow, byteOf, BitVec.toNat_ofNat, Nat.shiftRight_eq_div_pow, Nat.pow_mul]
    exact Nat.div_add_mod' _ 256

/-! #### The round trip -/

theorem exec_completed {i : Instr} {s u : State} (hi : i ≠ .srst) (hf : s.fault = none) (ha : AdmittedBySpec i s)
    (hbody : commandBody i s = .ok u ()) : exec i s = .next u.bumpCc := by
  rw [exec_eq_issue hi, issue_admitted hf ((admits_iff i s).mpr ha), hbody, finish]

/-- EPUT's last statement on a normalized model, where `alias_remap` has the entry it reads (42_coder_state.md R111). -/
theorem putSymbol_setR {s : State} (hm : ModelOk s) (j : Nat) {sym y : Nat} (hsym : sym < 256)
    (hf : 0 < (s.freq.get sym).toNat) (hy : y < 2 ^ 32) :
    putSymbol j sym (s.setR j (BitVec.ofNat 32 y)) = s.setR j
      (BitVec.ofNat 32 (y / (s.freq.get sym).toNat * 2 ^ s.p.exponent) +
        s.aliasRemap.get ((s.cum.entry sym).toNat + y % (s.freq.get sym).toNat)) := by
  have hcell := hm.cum_add_lt hsym (Nat.mod_lt y hf)
  have hmass := s.p.mass_le
  have hr : ((s.setR j (BitVec.ofNat 32 y)).r.get j).toNat = y := by
    rw [State.setR_r, Table.get_set_self, BitVec.toNat_ofNat, Nat.mod_eq_of_lt hy]
  simp only [putSymbol, hr, State.remap, State.setR_freq, State.setR_cum, State.setR_p, State.setR_aliasRemap,
    Nat.shiftLeft_eq, Nat.add_comm (y % _)]
  rw [if_pos (by omega)]
  simp only [State.setR, Table.set_set]

section
variable {s : State} {j : Nibble} {sym : Byte}

/-- `t` is `s` after EPUT has emitted the `n` low bytes of `x` and put the value `v` into `r[j]`. -/
structure PutDone (s t : State) (j x n : Nat) (v : Word) : Prop where
  model : t.modelPart = s.modelPart
  k : t.k = s.k
  fault : t.fault = s.fault
  strCap : t.strCap = s.strCap
  r : t.r = s.r.set j v
  wp : t.wp = s.wp - BitVec.ofNat 64 n
  bytes : ∀ i, i < n → t.readStr (s.wp.toNat - 1 - i) = byteOf x i

theorem putDone_sunk {j x n : Nat} {cells : List Host.Cell} (v : Word)
    (h : Pushed s (s.sunk n cells) n fun i => byteOf x i) : PutDone s ((s.sunk n cells).setR j v).bumpCc j x n v where
  model := by simp [State.modelPart, State.sunk]
  k := by simp [State.sunk]
  fault := by simp [State.sunk]
  strCap := by simp [State.sunk]
  r := by simp [State.sunk]
  wp := by simp [State.sunk]
  bytes := h.1

/-- EPUT with room: the bytes below WP, and the new state as its quotient and its code point. -/
theorem exec_eput_ok (hf : s.fault = none) (hj : StreamInUse j s) (htv : s.tv = true) (hm : ModelOk s)
    (table : TableOk s) {f x n : Nat} (hfdef : f = (s.freq.get sym.toNat).toNat) (hpos : 0 < f)
    (hxdef : x = (s.r.get j.toNat).toNat) (hn : n = emitCount (2 ^ (31 - s.p.exponent) * f) x)
    (hx : x / 256 ^ n / f * 2 ^ s.p.exponent + 2 ^ s.p.exponent ≤ 2 ^ 32)
    (hw : n ≤ s.wp.toNat) (hc : s.wp.toNat ≤ s.strCap.toNat) :
    ∃ t v, exec (.eput j sym) s = .next t ∧ PutDone s t j.toNat x n v ∧
      v.toNat = x / 256 ^ n / f * 2 ^ s.p.exponent +
        (s.aliasRemap.get ((s.cum.entry sym.toNat).toNat + x / 256 ^ n % f)).toNat := by
  have hj4 : j.toNat < 4 := Nat.lt_of_lt_of_le hj s.k.count_le.2
  have hf0 : s.freq.get sym.toNat ≠ 0 := fun h => by simp [hfdef, h] at hpos
  have hy : x / 256 ^ n < 2 ^ 32 := (Nat.div_le_self _ _).trans_lt (hxdef ▸ (s.r.get j.toNat).isLt)
  have hcode := (table.remapThenDecode sym.toNat sym.isLt (x / 256 ^ n % f) (hfdef ▸ Nat.mod_lt _ hpos)).1
  obtain ⟨cells, hbody, hpushed⟩ := eputBody_ok hj4 hf0 (by rw [← hfdef, ← hxdef]; exact hn) hw hc
  have hm' : ModelOk (s.sunk n cells) := { hm with }
  rw [← hxdef, putSymbol_setR hm' _ sym.isLt (hfdef ▸ hpos) hy] at hbody
  rw [← hxdef] at hpushed
  refine ⟨_, _, exec_completed (i := .eput j sym) nofun hf ⟨hj, htv⟩ hbody, putDone_sunk _ hpushed, ?_⟩
  change (BitVec.ofNat 32 (x / 256 ^ n / (s.freq.get sym.toNat).toNat * 2 ^ s.p.exponent) +
    s.aliasRemap.get ((s.cum.entry sym.toNat).toNat + x / 256 ^ n % (s.freq.get sym.toNat).toNat)).toNat = _
  rw [← hfdef, BitVec.toNat_add, BitVec.toNat_ofNat, Nat.mod_eq_of_lt (a := _ / _ * _) (by omega)]
  exact Nat.mod_eq_of_lt (by omega)

/-- DGET and DRENORM, with the model and table of `s`, of what EPUT left of `x`, on a window that holds just the bytes
it emitted. -/
theorem execAll_dget_drenorm {t : State} (hpart : t.modelPart = s.modelPart) (hf : t.fault = none)
    (hj : StreamInUse j t) (htv : s.tv = true) (table : TableOk s) {f x n : Nat}
    (hfdef : f = (s.freq.get sym.toNat).toNat) (hpos : 0 < f) (hx : 2 ^ 23 ≤ x ∧ x < 2 ^ 31)
    (hr : (t.r.get j.toNat).toNat = x / 256 ^ n / f * 2 ^ s.p.exponent +
      (s.aliasRemap.get ((s.cum.entry sym.toNat).toNat + x / 256 ^ n % f)).toNat)
    (hwin : t.window = n) (hbytes : ∀ i, i < n → t.readStr (t.rp.toNat + n - 1 - i) = byteOf x i) :
    ∃ u, execAll [.dget j, .drenorm j] t = .next u ∧ u.fault = none ∧ u.symo = sym ∧
      u.r = t.r.set j.toNat (BitVec.ofNat 32 x) ∧ u.rp = t.rp + BitVec.ofNat 64 n := by
  have hj4 : j.toNat < 4 := Nat.lt_of_lt_of_le hj t.k.count_le.2
  have hp : t.p = s.p := (congrArg State.p hpart :)
  have hfreq : t.freq = s.freq := (congrArg State.freq hpart :)
  have hcum : t.cum = s.cum := (congrArg State.cum hpart :)
  have hremap : t.aliasRemap = s.aliasRemap := (congrArg State.aliasRemap hpart :)
  have htv' : t.tv = true := (congrArg State.tv hpart :).trans htv
  rw [hfdef, ← hp, ← hfreq, ← hcum, ← hremap] at hr
  have hget : exec (.dget j) t = .next
      ((t.setR j.toNat (BitVec.ofNat 32 (x / 256 ^ n))).setSymo (BitVec.ofNat 8 sym.toNat)).bumpCc :=
    exec_completed nofun hf ⟨hj, htv'⟩
      (dgetBody_of_put (table.of_modelPart hpart) sym.isLt (by rw [hfreq, ← hfdef]; exact hpos) hr)
  set v := ((t.setR j.toNat (BitVec.ofNat 32 (x / 256 ^ n))).setSymo (BitVec.ofNat 8 sym.toNat)).bumpCc
  have hvr : (v.r.get j.toNat).toNat = x / 256 ^ n := by
    have hle := Nat.div_le_self x (256 ^ n)
    change ((t.r.set j.toNat (BitVec.ofNat 32 (x / 256 ^ n))).get j.toNat).toNat = _
    rw [Table.get_set_self, BitVec.toNat_ofNat, Nat.mod_eq_of_lt (by omega)]
  have hshift : ∀ i, i ≤ n → v.shiftedIn (v.r.get j.toNat).toNat v.rp.toNat i = x / 256 ^ (n - i) := by
    rw [hvr]
    exact shiftedIn_shed (s := v) (a := v.rp.toNat) hbytes
  have hall : v.shiftedIn (v.r.get j.toNat).toNat v.rp.toNat n = x := by
    rw [hshift n (Nat.le_refl n), Nat.sub_self, Nat.pow_zero, Nat.div_one]
  have hlow : ∀ i, i < n → v.shiftedIn (v.r.get j.toNat).toNat v.rp.toNat i < lowerBound := by
    intro i hi
    rw [hshift i hi.le, show n - i = n - i - 1 + 1 by omega, Nat.pow_succ, Nat.mul_comm, ← Nat.div_div_eq_div_mul]
    refine (Nat.div_le_self _ _).trans_lt ?_
    change x / 256 < 2 ^ 23
    omega
  have hrenorm := drenormBody_ok (s := v) hj4 hwin.ge hlow (by rw [hall]; exact hx.1) (by omega)
  rw [hall] at hrenorm
  refine ⟨_, (execAll_cons _ hget).trans
    (execAll_cons _ (exec_completed (s := v) nofun hf hj hrenorm)), hf, ?_, ?_, rfl⟩
  · change BitVec.ofNat 8 sym.toNat = sym
    rw [BitVec.ofNat_toNat, BitVec.setWidth_eq]
  · exact Table.set_set _ _ _ _

end

/-- Settles O48: EPUT leaves the shed bytes below WP and a state in the interval; DGET takes the state apart again, and
DRENORM shifts the same bytes back in. -/
theorem putThenGetRestores : Obligations.PutThenGetRestores := by
  intro s j sym hf hj htv hs hm table hfreq hint hw
  obtain ⟨f, hfdef⟩ : ∃ f, f = (s.freq.get sym.toNat).toNat := ⟨_, rfl⟩
  obtain ⟨x, hxdef⟩ : ∃ x, x = (s.r.get j.toNat).toNat := ⟨_, rfl⟩
  obtain ⟨n, hn⟩ : ∃ n, n = emitCount (2 ^ (31 - s.p.exponent) * f) x := ⟨_, rfl⟩
  have hj4 : j.toNat < 4 := Nat.lt_of_lt_of_le hj s.k.count_le.2
  have he := s.p.exponent_range
  have hpos : 0 < f := Nat.pos_of_ne_zero fun h => hfreq (BitVec.eq_of_toNat_eq (hfdef ▸ h))
  have hfrange : 0 < f ∧ f ≤ 2 ^ s.p.exponent := ⟨hpos, hfdef ▸ hm.freq_le sym.isLt⟩
  have hx : 2 ^ 23 ≤ x ∧ x < 2 ^ 31 := hxdef ▸ hint
  obtain ⟨-, hge, hlt⟩ := emitCount_spec (2 ^ (31 - s.p.exponent) * f) (s.r.get j.toNat)
    (Nat.mul_pos (Nat.two_pow_pos _) hpos)
  rw [← hxdef, ← hn] at hge hlt
  have hn2 := emitted_le_two he hfrange hx hge
  have hinterval := @put_in_interval x f s.p.exponent n he hfrange hx hge hlt
  have htop := hinterval (Nat.sub_one_lt (Nat.two_pow_pos s.p.exponent).ne')
  have hin := hs.wpInside
  obtain ⟨t, v, hput, done, hv⟩ := exec_eput_ok hf hj htv hm table hfdef hpos hxdef hn (by omega) (by omega) hin
  have hr : (t.r.get j.toNat).toNat = _ := (congrArg BitVec.toNat (done.r ▸ Table.get_set_self _ _ _)).trans hv
  have hwp : t.wp.toNat = s.wp.toNat - n := done.wp ▸ toNat_sub_ofNat (by omega)
  have hwin : min s.wp.toNat t.strCap.toNat - t.wp.toNat = n := by
    rw [done.strCap]
    omega
  have hshed : ∀ i, i < n → t.readStr (t.wp.toNat + n - 1 - i) = byteOf x i := fun i hi => by
    rw [show t.wp.toNat + n - 1 - i = s.wp.toNat - 1 - i by omega]
    exact done.bytes i hi
  obtain ⟨u, hu, hfault, hsymo, hur, hurp⟩ := execAll_dget_drenorm (t := { t with rp := t.wp, rend := s.wp }) done.model
    (done.fault.trans hf) (show j.toNat < t.k.count by rw [done.k]; exact hj) htv table hfdef hpos hx hr hwin hshed
  have hcode := (table.remapThenDecode sym.toNat sym.isLt (x / 256 ^ n % f) (hfdef ▸ Nat.mod_lt _ hpos)).1
  refine ⟨t, u, hput, ?_, hu, hfault, hsymo, ?_, ?_⟩
  · rw [InInterval, hr]
    exact hinterval hcode
  · rw [hur, done.r, Table.set_set, hxdef, BitVec.ofNat_toNat, BitVec.setWidth_eq, Table.set_get _ _ hj4]
  · rw [hurp, done.wp]
    exact BitVec.sub_add_cancel _ _

end Sys2Proof.Machine
end

/-! ### Host writes of the buffers -/

section
namespace Sys2Proof.Machine

theorem writeMsg_changes_msg (s : State) (i : Nat) (b : Byte) :
    s.writeMsg i b = { s with msg := (s.writeMsg i b).msg } := by
  unfold State.writeMsg
  split <;> rfl

theorem writeStr_changes_str (s : State) (a : Nat) (b : Byte) :
    s.writeStr a b = { s with str := (s.writeStr a b).str } := by
  unfold State.writeStr
  split <;> rfl

/-- Settles O16: the two sides of each buffer's bound, and the read after a write in range. -/
theorem hostWritesBuffers : Obligations.HostWritesBuffers := by
  intro s rest a b
  refine ⟨fun hs ha => ?_, fun hs ha => ?_, fun hs ha => ?_, fun hs ha => ?_⟩
  · refine ⟨_, (step_cons hs).trans (if_pos ha), writeMsg_changes_msg _ a b, fun x => ?_⟩
    rw [State.readMsg_writeMsg]
    exact if_congr (and_iff_left ha) rfl rfl
  · refine ⟨_, (step_cons hs).trans (if_pos ha), writeStr_changes_str _ a b, fun x => ?_⟩
    rw [State.readStr_writeStr]
    exact if_congr (and_iff_left ha) rfl rfl
  · exact (step_cons hs).trans (if_neg ha.not_gt)
  · exact (step_cons hs).trans (if_neg ha.not_gt)

end Sys2Proof.Machine
end

/-! ### The byte order of the sink and of the source -/

section
namespace Sys2Proof.Machine

theorem littleEndian_congr {s t : State} (hstr : ∀ a, t.readStr a = s.readStr a) (a n : Nat) :
    t.littleEndian a n = s.littleEndian a n := by
  induction n with
  | zero => rfl
  | succ n ih => simp only [State.littleEndian, ih, hstr]

/-- The little-endian value of bytes that are the low bytes of `v`, least significant first (20_memory.md R53, R55). -/
theorem littleEndian_of_bytes {t : State} {a n v : Nat} (h : ∀ i, i < n → t.readStr (a + i) = byteOf v i) :
    t.littleEndian a n = v % 256 ^ n := by
  induction n with
  | zero => rw [State.littleEndian, Nat.pow_zero, Nat.mod_one]
  | succ n ih =>
    have hbyte : (byteOf v n).toNat = v / 256 ^ n % 256 := by
      rw [byteOf, BitVec.toNat_ofNat, Nat.shiftRight_eq_div_pow, Nat.pow_mul]
    rw [State.littleEndian, ih fun i hi => h i (by omega), h n (by omega), hbyte, Nat.mod_pow_succ, Nat.mul_comm]

/-- A value pushed most significant byte first reads forward as itself. -/
theorem Pushed.littleEndian {s t : State} {n v : Nat} (h : Pushed s t n fun i => byteOf v (n - 1 - i))
    (hn : n ≤ s.wp.toNat) : t.littleEndian (s.wp.toNat - n) n = v % 256 ^ n := by
  refine littleEndian_of_bytes fun i hi => ?_
  have hbyte := h.1 (n - 1 - i) (by omega)
  simpa only [show s.wp.toNat - 1 - (n - 1 - i) = s.wp.toNat - n + i by omega,
    show n - 1 - (n - 1 - i) = i by omega] using hbyte

/-- EFLUSH with room for its four bytes (42_coder_state.md R112). -/
theorem eflushBody_ok {s : State} (j : Nat) (hw : 4 ≤ s.wp.toNat) (hc : s.wp.toNat ≤ s.strCap.toNat) :
    ∃ cells, eflushBody j s = .ok (s.sunk 4 cells) () ∧
      (s.sunk 4 cells).littleEndian (s.wp.toNat - 4) 4 = (s.r.get j).toNat := by
  obtain ⟨cells, hpush, hpushed⟩ := pushBytes_spec 4 (s.r.get j).toNat s hc
  rw [Nat.min_eq_left hw] at hpushed
  exact ⟨cells, hpush.trans (if_pos hw), (hpushed.littleEndian hw).trans (Nat.mod_eq_of_lt (s.r.get j).isLt)⟩

/-- DINIT with four bytes in the window (42_coder_state.md R113). -/
theorem dinitBody_ok {s : State} (j : Nat) (hwin : 4 ≤ s.window) :
    dinitBody j s = .ok ((s.setRp (s.rp + 4)).setR j (BitVec.ofNat 32 (s.littleEndian s.rp.toNat 4))) () := by
  rw [dinitBody, pullBytes_spec, if_pos hwin]
  rfl

/-- What the four bytes at RP make of DINIT's stream (42_coder_state.md R113). -/
theorem exec_dinit_ok {s : State} {j : Nibble} (hf : s.fault = none) (hj : StreamInUse j s) (hwin : 4 ≤ s.window) :
    ∃ t, exec (.dinit j) s = .next t ∧ t.fault = none ∧
      t.r = s.r.set j.toNat (BitVec.ofNat 32 (s.littleEndian s.rp.toNat 4)) ∧ t.rp = s.rp + 4 :=
  ⟨_, exec_completed (i := .dinit j) nofun hf hj (dinitBody_ok j.toNat hwin), hf, rfl, rfl⟩

/-- EFLUSH, and REWIND to the four bytes it pushed: the window opens on the state's value (20_memory.md R53). -/
theorem execAll_eflush_rewind {s : State} {j : Nibble} (hf : s.fault = none) (hj : StreamInUse j s)
    (hw : 4 ≤ s.wp.toNat) (hc : s.wp.toNat ≤ s.strCap.toNat) :
    ∃ u, execAll [.eflush j, .rewind] s = .next u ∧ u.fault = none ∧ u.k = s.k ∧ u.r = s.r ∧ u.rp = s.wp - 4 ∧
      4 ≤ u.window ∧ u.littleEndian (s.wp - 4).toNat 4 = (s.r.get j.toNat).toNat := by
  obtain ⟨cells, hflush, hvalue⟩ := eflushBody_ok j.toNat hw hc
  have hwp : (s.wp - 4).toNat = s.wp.toNat - 4 := toNat_sub_ofNat hw
  have heflush := exec_completed (i := .eflush j) nofun hf hj hflush
  have hfault : (s.sunk 4 cells).bumpCc.fault = none := by simpa [State.sunk] using hf
  have hrewind := exec_completed (i := .rewind) nofun hfault trivial rfl
  refine ⟨_, (execAll_cons _ heflush).trans (execAll_cons _ hrewind), ?_⟩
  refine ⟨by simpa using hfault, by simp [State.sunk], by simp [State.sunk], by simp [State.sunk], ?_, ?_⟩
  · suffices h : 4 ≤ s.strCap.toNat - (s.wp - 4).toNat by simpa [State.window, State.sunk] using h
    omega
  · rw [hwp, ← hvalue]
    exact littleEndian_congr (State.readStr_congr (by simp) (by simp)) _ _

/-- Settles O47: EFLUSH leaves the state little-endian at the new WP, REWIND opens the window there, and DINIT reads it
back. -/
theorem flushThenInitRestores : Obligations.FlushThenInitRestores := by
  intro s j j' hf hj hj' hw hc _
  obtain ⟨u, hu, hfault, hk, hr, hrp, hwin, hvalue⟩ := execAll_eflush_rewind hf hj hw hc
  obtain ⟨t, ht, htfault, htr, htrp⟩ := exec_dinit_ok (j := j') hfault (by rw [StreamInUse, hk]; exact hj') hwin
  refine ⟨t, (execAll_append [.dinit j'] hu).trans (execAll_cons [] ht), htfault, ?_, ?_⟩
  · rw [htr, hr, hrp, hvalue, BitVec.ofNat_toNat, BitVec.setWidth_eq]
  · rw [htrp, hrp]
    exact BitVec.sub_add_cancel s.wp 4

end Sys2Proof.Machine
end

/-! ### What the source commands leave alone -/

section
namespace Sys2Proof.Machine

/-- `P` survives the end of a command, moving RP, and writing the coder states of `live`. -/
structure SourceClosed (live : Nat → Prop) (P : State → Prop) : Prop where
  bumpCc : ∀ s, P s → P s.bumpCc
  latch : ∀ s f word, P s → P (s.latch f word)
  setRp : ∀ s v, P s → P (s.setRp v)
  setR : ∀ s j v, live j → P s → P (s.setR j v)

section
variable {live : Nat → Prop} {P : State → Prop} (hP : SourceClosed live P)
include hP

/-- What a command's pseudocode keeps, the command keeps, however it ends. -/
theorem SourceClosed.exec_keeps {i : Instr} {s t : State} (hi : i ≠ .srst) (hs : P s)
    (hbody : admits i s = true → P (commandBody i s).state) (h : exec i s = .next t) : P t := by
  rw [exec_eq_issue hi] at h
  rcases issue_cases h with ⟨-, rfl⟩ | ⟨-, -, rfl⟩ | ⟨-, ha, ⟨u, hu, rfl⟩ | ⟨u, k, hu, rfl⟩⟩
  · exact hs
  · exact hP.latch s _ _ hs
  · have hb := hbody ha
    rw [hu] at hb
    exact hP.bumpCc u hb
  · have hb := hbody ha
    rw [hu] at hb
    exact hP.latch u k _ hb

theorem SourceClosed.dinitBody_keeps {j : Nat} (hj : live j) {s : State} (hs : P s) : P (dinitBody j s).state :=
  Res.bind_keeps (pullBytes_keeps hP.setRp 4 hs) fun t _ ht => hP.setR t j _ hj ht

theorem SourceClosed.renormLoop_keeps {j : Nat} (hj : live j) (n : Nat) {s : State} (hs : P s) :
    P (renormLoop j n s).state := by
  induction n generalizing s with
  | zero => exact hs
  | succ n ih =>
    rw [renormLoop]
    split
    · exact Res.bind_keeps (getByte_keeps hP.setRp hs) fun t _ ht => ih (hP.setR t j _ hj ht)
    · exact hs

theorem SourceClosed.drenormBody_keeps {j : Nat} (hj : live j) {s : State} (hs : P s) : P (drenormBody j s).state :=
  hP.renormLoop_keeps hj _ hs

section
variable {n : Nat} (hsymo : ∀ s b, P s → P (s.setSymo b)) (hmsg : ∀ s i b, i < n → P s → P (s.writeMsg i b))
include hsymo hmsg

theorem SourceClosed.getMessageByte_keeps {j i : Nat} (hj : live j) (hi : i < n) {s : State} (hs : P s) :
    P (getMessageByte j i s).state :=
  hmsg _ i _ hi (hsymo _ _ (hP.setR s j _ hj hs))

theorem SourceClosed.getGroup_keeps {k g : Nat} (hk : ∀ j, j < k → live j) (hg : g < n / k) {s : State} (hs : P s) :
    P (getGroup k g s).state := by
  have hin : ∀ j, j < k → g * k + j < n := fun j hj =>
    calc g * k + j < (g + 1) * k := by rw [Nat.succ_mul]; omega
      _ ≤ n / k * k := Nat.mul_le_mul_right k hg
      _ ≤ n := Nat.div_mul_le_self n k
  exact Res.bind_keeps
    (forUp_keeps k (fun j hj _ => hP.getMessageByte_keeps hsymo hmsg (hk j hj) (hin j hj)) hs) fun _ _ ht =>
      forUp_keeps k (fun j hj _ => hP.drenormBody_keeps (hk j hj)) ht

theorem SourceClosed.getTailByte_keeps {i j : Nat} (hj : live j) (hi : i + j < n) {s : State} (hs : P s) :
    P (getTailByte i j s).state :=
  Res.bind_keeps (hP.getMessageByte_keeps hsymo hmsg hj hi hs) fun _ _ ht => hP.drenormBody_keeps hj ht

/-- DEC gets every message byte below LEN, and uses the states below `K` alone (43_interleaved_driver.md R121). -/
theorem SourceClosed.decBody_keeps {s : State} (hn : n = s.len.toNat) (hk : ∀ j, j < s.k.count → live j) (hs : P s) :
    P (decBody s).state := by
  subst hn
  have htail : s.len.toNat % s.k.count < s.k.count := Nat.mod_lt _ s.k.count_le.1
  have hle := Nat.mod_le s.len.toNat s.k.count
  exact Res.bind_keeps (forUp_keeps _ (fun j hj _ => hP.dinitBody_keeps (hk j hj)) hs) fun _ _ h1 =>
    Res.bind_keeps (forUp_keeps _ (fun g hg _ => hP.getGroup_keeps hsymo hmsg hk hg) h1) fun _ _ h2 =>
      forUp_keeps _ (fun j hj _ => hP.getTailByte_keeps hsymo hmsg (hk j (by omega)) (by omega)) h2

end
end

/-- `t` is `s` but for `r[j]`, RP, CC and the fault registers. -/
def CoderSourceFrame (j : Nat) (s t : State) : Prop :=
  t = { s with r := t.r, rp := t.rp, cc := t.cc, fault := t.fault, fcmd := t.fcmd } ∧
    ∀ m, m < 4 → m ≠ j → t.r.get m = s.r.get m

theorem CoderSourceFrame.refl (j : Nat) (s : State) : CoderSourceFrame j s s := ⟨rfl, fun _ _ _ => rfl⟩

theorem coderSourceFrame_closed (j : Nat) (s : State) :
    SourceClosed (fun i => i = j ∧ i < 4) (CoderSourceFrame j s) where
  bumpCc _ h := ⟨congrArg State.bumpCc h.1, h.2⟩
  latch _ f word h := ⟨congrArg (State.latch · f word) h.1, h.2⟩
  setRp _ v h := ⟨congrArg (State.setRp · v) h.1, h.2⟩
  setR t i v hi h := by
    obtain ⟨rfl, hi⟩ := hi
    exact ⟨congrArg (State.setR · i v) h.1, fun m hm hne => (Table.get_set_ne t.r i m v hi hm hne).trans (h.2 m hm hne)⟩

/-- `t` is `s` but for LEN, RP, CC and the fault registers. -/
def LengthSourceFrame (s t : State) : Prop :=
  t = { s with len := t.len, rp := t.rp, cc := t.cc, fault := t.fault, fcmd := t.fcmd }

theorem LengthSourceFrame.refl (s : State) : LengthSourceFrame s s := rfl

theorem lengthSourceFrame_closed (s : State) : SourceClosed (fun _ => False) (LengthSourceFrame s) where
  bumpCc _ h := congrArg State.bumpCc h
  latch _ f word h := congrArg (State.latch · f word) h
  setRp _ v h := congrArg (State.setRp · v) h
  setR _ _ _ hj _ := hj.elim

/-- LLD's body moves RP and writes LEN (44_stream_and_container.md R136). -/
theorem LengthSourceFrame.lldBody_keeps (s : State) : LengthSourceFrame s (lldBody s).state := by
  refine Res.bind_keeps (P := LengthSourceFrame s) (pullBytes_keeps (lengthSourceFrame_closed s).setRp 8 (.refl s))
    fun t v ht => ?_
  split
  · exact ht
  · exact congrArg (State.setLen · (BitVec.ofNat 64 v)) ht

/-- `t` is `s` but for `r[0..K)`, RP, SYMO, `MSG[0..LEN)`, CC and the fault registers. -/
def MessageSourceFrame (s t : State) : Prop :=
  t = { s with
        r := t.r
        rp := t.rp
        symo := t.symo
        msg := t.msg
        cc := t.cc
        fault := t.fault
        fcmd := t.fcmd } ∧
    (∀ m, s.k.count ≤ m → m < 4 → t.r.get m = s.r.get m) ∧ ∀ i, s.len.toNat ≤ i → t.readMsg i = s.readMsg i

theorem MessageSourceFrame.refl (s : State) : MessageSourceFrame s s := ⟨rfl, fun _ _ _ => rfl, fun _ _ => rfl⟩

theorem messageSourceFrame_closed (s : State) : SourceClosed (· < s.k.count) (MessageSourceFrame s) where
  bumpCc _ h := ⟨congrArg State.bumpCc h.1, h.2⟩
  latch _ f word h := ⟨congrArg (State.latch · f word) h.1, h.2⟩
  setRp _ v h := ⟨congrArg (State.setRp · v) h.1, h.2⟩
  setR t j v hj h := by
    obtain ⟨hrest, hr, hmsg⟩ := h
    have hj4 : j < 4 := Nat.lt_of_lt_of_le hj s.k.count_le.2
    exact ⟨congrArg (State.setR · j v) hrest, fun m hm hm4 =>
      (Table.get_set_ne t.r j m v hj4 hm4 (by omega)).trans (hr m hm hm4), hmsg⟩

theorem MessageSourceFrame.setSymo {s t : State} (b : Byte) (h : MessageSourceFrame s t) :
    MessageSourceFrame s (t.setSymo b) :=
  ⟨congrArg (State.setSymo · b) h.1, h.2⟩

theorem MessageSourceFrame.writeMsg {s t : State} {i : Nat} (b : Byte) (hi : i < s.len.toNat)
    (h : MessageSourceFrame s t) : MessageSourceFrame s (t.writeMsg i b) := by
  obtain ⟨hrest, hr, hmsg⟩ := h
  refine ⟨?_, fun m hm hm4 => ?_, fun x hx => ?_⟩
  · rw [writeMsg_changes_msg]
    exact congrArg (State.setMsg · (t.writeMsg i b).msg) hrest
  · rw [State.writeMsg_r]
    exact hr m hm hm4
  · rw [State.readMsg_writeMsg, if_neg (by omega)]
    exact hmsg x hx

/-- Settles O59: each command's frame survives the writes its pseudocode is made of, and every way the command ends. -/
theorem sourceCommandFrame : Obligations.SourceCommandFrame := by
  intro s t
  refine ⟨fun i j hi h => ?_, fun h => ?_, fun h => ?_⟩
  · have hclosed := coderSourceFrame_closed j.toNat s
    have hs := CoderSourceFrame.refl j.toNat s
    have hlive : StreamInUse j s → j.toNat = j.toNat ∧ j.toNat < 4 := fun hj =>
      ⟨rfl, Nat.lt_of_lt_of_le hj s.k.count_le.2⟩
    rcases hi with rfl | rfl
    · exact hclosed.exec_keeps (i := .dinit j) nofun hs
        (fun ha => hclosed.dinitBody_keeps (hlive ((admits_iff _ s).mp ha)) hs) h
    · exact hclosed.exec_keeps (i := .drenorm j) nofun hs
        (fun ha => hclosed.drenormBody_keeps (hlive ((admits_iff _ s).mp ha)) hs) h
  · exact (lengthSourceFrame_closed s).exec_keeps (i := .lld) nofun (LengthSourceFrame.refl s)
      (fun _ => LengthSourceFrame.lldBody_keeps s) h
  · have hclosed := messageSourceFrame_closed s
    have hs := MessageSourceFrame.refl s
    exact hclosed.exec_keeps (i := .dec) nofun hs (fun _ => hclosed.decBody_keeps
      (fun _ b => MessageSourceFrame.setSymo b) (fun _ _ b => MessageSourceFrame.writeMsg b) rfl (fun _ => id) hs) h

end Sys2Proof.Machine
end

/-! ### Command words -/

section
namespace Sys2Proof.Machine

section
variable (op : Byte) (a : Nibble) (imm : Byte)

@[simp] theorem opField_assemble : opField (assemble op a imm) = op := by
  rw [opField, assemble, BitVec.extractLsb'_append_eq_of_le (by decide), BitVec.extractLsb'_append_eq_of_le (by decide),
    BitVec.extractLsb'_append_eq_of_le (by decide)]
  exact BitVec.extractLsb'_append_eq_left

@[simp] theorem z1Field_assemble : z1Field (assemble op a imm) = 0 := by
  rw [z1Field, assemble, BitVec.extractLsb'_append_eq_of_le (by decide), BitVec.extractLsb'_append_eq_of_le (by decide),
    BitVec.extractLsb'_append_eq_of_le (by decide)]
  exact BitVec.extractLsb'_append_eq_right

@[simp] theorem aField_assemble : aField (assemble op a imm) = a := by
  rw [aField, assemble, BitVec.extractLsb'_append_eq_of_le (by decide), BitVec.extractLsb'_append_eq_of_le (by decide)]
  exact BitVec.extractLsb'_append_eq_right

@[simp] theorem z2Field_assemble : z2Field (assemble op a imm) = 0 := by
  rw [z2Field, assemble, BitVec.extractLsb'_append_eq_of_le (by decide)]
  exact BitVec.extractLsb'_append_eq_right

@[simp] theorem immField_assemble : immField (assemble op a imm) = imm :=
  BitVec.extractLsb'_append_eq_right

end

/-- The five fields, most significant first, are the whole word (30_encoding.md R71). -/
theorem fields_append (w : Word) : opField w ++ z1Field w ++ aField w ++ z2Field w ++ immField w = w := by
  rw [opField, z1Field, aField, z2Field, immField,
    BitVec.extractLsb'_append_extractLsb'_eq_extractLsb' (rfl : 24 = 20 + 4),
    BitVec.extractLsb'_append_extractLsb'_eq_extractLsb' (rfl : 20 = 16 + 4),
    BitVec.extractLsb'_append_extractLsb'_eq_extractLsb' (rfl : 16 = 8 + 8),
    BitVec.extractLsb'_append_extractLsb'_eq_extractLsb' (rfl : 8 = 0 + 8)]
  exact BitVec.extractLsb'_eq_self

/-- A word whose `z1` and `z2` are zero is assembled from its three other fields. -/
theorem assemble_fields {w : Word} (hz1 : z1Field w = 0) (hz2 : z2Field w = 0) :
    assemble (opField w) (aField w) (immField w) = w := by
  have h := fields_append w
  rwa [hz1, hz2] at h

/-! #### Each format reads back the operands of the words it assembles -/

theorem formatZ_assemble (op : Byte) (i : Instr) : formatZ (assemble op 0#4 0#8) i = .ok i := by
  simp [formatZ, withZeros]

theorem formatJ_assemble (op : Byte) (j : Nibble) (f : Nibble → Instr) :
    formatJ (assemble op j 0#8) f = .ok (f j) := by
  simp [formatJ, withZeros]

theorem formatAImm_assemble (op : Byte) (a : Nibble) (imm : Byte) (f : Nibble → Byte → Instr) :
    formatAImm (assemble op a imm) f = .ok (f a imm) := by
  simp [formatAImm, withZeros]

theorem formatB_assemble (op : Byte) (b : Byte) (f : Byte → Instr) : formatB (assemble op 0#4 b) f = .ok (f b) := by
  simp [formatB, withZeros]

/-- Settles O1: the opcode selects the command's row, whose format reads the operands back. -/
theorem decodeOfEncode : Obligations.DecodeOfEncode := by
  intro i
  cases i
  case cfg | eput => simp [decode, encode, formatAImm_assemble]
  case einit | eflush | dinit | dget | drenorm => simp [decode, encode, formatJ_assemble]
  case fcnt => simp [decode, encode, formatB_assemble]
  all_goals simp [decode, encode, formatZ_assemble]

/-! #### A format accepts only the words it assembles -/

theorem withZeros_ok {w : Word} {r : Except Illegal Instr} {i : Instr} (h : withZeros w r = .ok i) :
    assemble (opField w) (aField w) (immField w) = w ∧ r = .ok i := by
  unfold withZeros at h
  split at h
  · exact nomatch h
  · split at h
    · exact nomatch h
    · exact ⟨assemble_fields (not_not.mp ‹_›) (not_not.mp ‹_›), h⟩

section
variable {w : Word} {n : Nat} {i : Instr} (hop : (opField w).toNat = n)
include hop

theorem assemble_of_withZeros_ok {r : Except Illegal Instr} (h : withZeros w r = .ok i) :
    assemble (BitVec.ofNat 8 n) (aField w) (immField w) = w ∧ r = .ok i := by
  obtain ⟨hw, hr⟩ := withZeros_ok h
  rw [← hop, BitVec.ofNat_toNat, BitVec.setWidth_eq]
  exact ⟨hw, hr⟩

theorem encode_of_formatAImm {f : Nibble → Byte → Instr}
    (hf : ∀ a imm, encode (f a imm) = assemble (BitVec.ofNat 8 n) a imm) (h : formatAImm w f = .ok i) :
    encode i = w := by
  obtain ⟨hw, hi⟩ := assemble_of_withZeros_ok hop h
  rw [← Except.ok.inj hi, hf, hw]

theorem encode_of_formatJ {f : Nibble → Instr} (hf : ∀ j, encode (f j) = assemble (BitVec.ofNat 8 n) j 0)
    (h : formatJ w f = .ok i) : encode i = w := by
  obtain ⟨hw, hi⟩ := assemble_of_withZeros_ok hop h
  split at hi <;> rename_i hzero
  · exact nomatch hi
  · rw [← Except.ok.inj hi, hf, ← not_not.mp hzero, hw]

theorem encode_of_formatB {f : Byte → Instr} (hf : ∀ b, encode (f b) = assemble (BitVec.ofNat 8 n) 0 b)
    (h : formatB w f = .ok i) : encode i = w := by
  obtain ⟨hw, hi⟩ := assemble_of_withZeros_ok hop h
  split at hi <;> rename_i hzero
  · exact nomatch hi
  · rw [← Except.ok.inj hi, hf, ← not_not.mp hzero, hw]

theorem encode_of_formatZ {c : Instr} (hc : encode c = assemble (BitVec.ofNat 8 n) 0 0) (h : formatZ w c = .ok i) :
    encode i = w := by
  obtain ⟨hw, hi⟩ := assemble_of_withZeros_ok hop h
  split at hi
  · exact nomatch hi
  · split at hi
    · exact nomatch hi
    · rw [not_not.mp ‹¬ aField w ≠ 0›, not_not.mp ‹¬ immField w ≠ 0›] at hw
      rw [← Except.ok.inj hi, hc, hw]

end

/-- Settles O2: row by row of the opcode map, the row's format accepts only the words it assembles. -/
theorem encodeOfDecode : Obligations.EncodeOfDecode := by
  intro w i h
  unfold decode at h
  split at h <;> rename_i hop
  exacts [encode_of_formatZ hop rfl h, encode_of_formatAImm hop (fun _ _ => rfl) h, encode_of_formatZ hop rfl h,
    encode_of_formatZ hop rfl h, encode_of_formatB hop (fun _ => rfl) h, encode_of_formatZ hop rfl h,
    encode_of_formatZ hop rfl h, encode_of_formatZ hop rfl h, encode_of_formatZ hop rfl h, encode_of_formatZ hop rfl h,
    encode_of_formatJ hop (fun _ => rfl) h, encode_of_formatAImm hop (fun _ _ => rfl) h,
    encode_of_formatJ hop (fun _ => rfl) h, encode_of_formatZ hop rfl h, encode_of_formatJ hop (fun _ => rfl) h,
    encode_of_formatJ hop (fun _ => rfl) h, encode_of_formatJ hop (fun _ => rfl) h, encode_of_formatZ hop rfl h,
    encode_of_formatZ hop rfl h, encode_of_formatZ hop rfl h, encode_of_formatZ hop rfl h, encode_of_formatZ hop rfl h,
    nomatch h]

theorem decode_eq_ok_iff {w : Word} {i : Instr} : decode w = .ok i ↔ encode i = w :=
  ⟨encodeOfDecode w i, fun h => h ▸ decodeOfEncode i⟩

/-- Settles O4: each word is a constant, which the decoder is run on. -/
theorem specWordsDecode : Obligations.SpecWordsDecode := by
  unfold Obligations.SpecWordsDecode
  decide

/-! #### The rows of the opcode map -/

open Laws.MatchesRow in
/-- The lemmas of Laws/PerInstr.lean, gathered. -/
theorem matchesRow (i : Instr) : Statement i := by
  cases i
  exacts [nop, cfg _ _, srst, fclr, fcnt _, fscan, fnorm, fld, fst, abld, einit _, eput _ _, eflush _, enc, dinit _,
    dget _, drenorm _, dec, sclr, rewind, lst, lld]

theorem row_eq_of_mnemonic {row row' : SpecRow} (hrow : row ∈ specRows) (hrow' : row' ∈ specRows)
    (h : row.mnemonic = row'.mnemonic) : row = row' :=
  List.inj_on_of_nodup_map (f := SpecRow.mnemonic) (by decide) hrow hrow' h

theorem opField_and (w m : Word) : opField (w &&& m) = opField w &&& opField m := BitVec.extractLsb'_and
theorem z1Field_and (w m : Word) : z1Field (w &&& m) = z1Field w &&& z1Field m := BitVec.extractLsb'_and
theorem aField_and (w m : Word) : aField (w &&& m) = aField w &&& aField m := BitVec.extractLsb'_and
theorem z2Field_and (w m : Word) : z2Field (w &&& m) = z2Field w &&& z2Field m := BitVec.extractLsb'_and
theorem immField_and (w m : Word) : immField (w &&& m) = immField w &&& immField m := BitVec.extractLsb'_and

/-- Every mask keeps `op`, `z1` and `z2` whole, and every pattern is an opcode alone. -/
theorem row_fields : ∀ row ∈ specRows,
    opField row.mask = .allOnes 8 ∧ z1Field row.mask = .allOnes 4 ∧ z2Field row.mask = .allOnes 8 ∧
      row.pattern = assemble (opField row.pattern) 0 0 := by
  decide

/-- A word that a row's mask takes to its pattern carries the row's opcode, zeros in `z1` and `z2`, and zeros in each
operand field the mask keeps. -/
theorem assemble_of_masked {row : SpecRow} (hrow : row ∈ specRows) {w : Word} (h : w &&& row.mask = row.pattern) :
    assemble (opField row.pattern) (aField w) (immField w) = w ∧
      aField w &&& aField row.mask = 0 ∧ immField w &&& immField row.mask = 0 := by
  obtain ⟨hop, hz1, hz2, hpattern⟩ := row_fields row hrow
  rw [hpattern] at h
  have hopcode : opField w = opField row.pattern := by
    simpa only [opField_and, hop, BitVec.and_allOnes, opField_assemble] using congrArg opField h
  have hz1w : z1Field w = 0 := by
    simpa only [z1Field_and, hz1, BitVec.and_allOnes, z1Field_assemble] using congrArg z1Field h
  have hz2w : z2Field w = 0 := by
    simpa only [z2Field_and, hz2, BitVec.and_allOnes, z2Field_assemble] using congrArg z2Field h
  refine ⟨hopcode ▸ assemble_fields hz1w hz2w, ?_, ?_⟩
  · simpa only [aField_and, aField_assemble] using congrArg aField h
  · simpa only [immField_and, immField_assemble] using congrArg immField h

/-- Every word with the row's opcode and operands only where the row's mask leaves bits out is the word of a command
of that row. -/
def RowEncoded (row : SpecRow) : Prop :=
  ∀ a imm, a &&& aField row.mask = 0 → imm &&& immField row.mask = 0 →
    ∃ i, encode i = assemble (opField row.pattern) a imm ∧ mnemonicOf i = row.mnemonic

section
variable {row : SpecRow}

theorem rowEncoded_formatAImm (f : Nibble → Byte → Instr)
    (hf : ∀ a imm, encode (f a imm) = assemble (opField row.pattern) a imm)
    (hname : ∀ a imm, mnemonicOf (f a imm) = row.mnemonic) : RowEncoded row :=
  fun a imm _ _ => ⟨f a imm, hf a imm, hname a imm⟩

theorem rowEncoded_formatJ (f : Nibble → Instr) (himm : immField row.mask = .allOnes 8)
    (hf : ∀ j, encode (f j) = assemble (opField row.pattern) j 0) (hname : ∀ j, mnemonicOf (f j) = row.mnemonic) :
    RowEncoded row := by
  intro a imm _ hi
  rw [himm, BitVec.and_allOnes] at hi
  exact ⟨f a, hi ▸ hf a, hname a⟩

theorem rowEncoded_formatB (f : Byte → Instr) (ha : aField row.mask = .allOnes 4)
    (hf : ∀ b, encode (f b) = assemble (opField row.pattern) 0 b) (hname : ∀ b, mnemonicOf (f b) = row.mnemonic) :
    RowEncoded row := by
  intro a imm hz _
  rw [ha, BitVec.and_allOnes] at hz
  exact ⟨f imm, hz ▸ hf imm, hname imm⟩

theorem rowEncoded_formatZ (i : Instr) (ha : aField row.mask = .allOnes 4) (himm : immField row.mask = .allOnes 8)
    (hi : encode i = assemble (opField row.pattern) 0 0) (hname : mnemonicOf i = row.mnemonic) : RowEncoded row := by
  intro a imm hz hz'
  rw [ha, BitVec.and_allOnes] at hz
  rw [himm, BitVec.and_allOnes] at hz'
  exact ⟨i, hz ▸ hz' ▸ hi, hname⟩

end

theorem row_encoded : ∀ row ∈ specRows, RowEncoded row := by
  simp only [specRows, List.cons_append, List.nil_append, List.forall_mem_cons]
  exact ⟨rowEncoded_formatZ .nop rfl rfl rfl rfl,
    rowEncoded_formatAImm .cfg (fun _ _ => rfl) (fun _ _ => rfl),
    rowEncoded_formatZ .srst rfl rfl rfl rfl,
    rowEncoded_formatZ .fclr rfl rfl rfl rfl,
    rowEncoded_formatB .fcnt rfl (fun _ => rfl) (fun _ => rfl),
    rowEncoded_formatZ .fscan rfl rfl rfl rfl,
    rowEncoded_formatZ .fnorm rfl rfl rfl rfl,
    rowEncoded_formatZ .fld rfl rfl rfl rfl,
    rowEncoded_formatZ .fst rfl rfl rfl rfl,
    rowEncoded_formatZ .abld rfl rfl rfl rfl,
    rowEncoded_formatJ .einit rfl (fun _ => rfl) (fun _ => rfl),
    rowEncoded_formatAImm .eput (fun _ _ => rfl) (fun _ _ => rfl),
    rowEncoded_formatJ .eflush rfl (fun _ => rfl) (fun _ => rfl),
    rowEncoded_formatZ .enc rfl rfl rfl rfl,
    rowEncoded_formatJ .dinit rfl (fun _ => rfl) (fun _ => rfl),
    rowEncoded_formatJ .dget rfl (fun _ => rfl) (fun _ => rfl),
    rowEncoded_formatJ .drenorm rfl (fun _ => rfl) (fun _ => rfl),
    rowEncoded_formatZ .dec rfl rfl rfl rfl,
    rowEncoded_formatZ .sclr rfl rfl rfl rfl,
    rowEncoded_formatZ .rewind rfl rfl rfl rfl,
    rowEncoded_formatZ .lst rfl rfl rfl rfl,
    rowEncoded_formatZ .lld rfl rfl rfl rfl,
    nofun⟩

/-- A row's mask takes to its pattern the words of that row's commands and no other word. -/
theorem masked_iff {row : SpecRow} (hrow : row ∈ specRows) {w : Word} :
    w &&& row.mask = row.pattern ↔ ∃ i, decode w = .ok i ∧ mnemonicOf i = row.mnemonic := by
  constructor
  · intro h
    obtain ⟨hw, ha, himm⟩ := assemble_of_masked hrow h
    obtain ⟨i, hi, hname⟩ := row_encoded row hrow _ _ ha himm
    exact ⟨i, decode_eq_ok_iff.mpr (hi.trans hw), hname⟩
  · rintro ⟨i, hi, hname⟩
    obtain ⟨row', hrow', hname', hbits⟩ := matchesRow i
    rwa [decode_eq_ok_iff.mp hi, row_eq_of_mnemonic hrow' hrow (hname'.trans hname)] at hbits

/-- Settles O3: a word that decodes spells the row of its command; one that does not spells none, for the words of
every row are words of commands. -/
theorem wordSpellsRowByMask : Obligations.WordSpellsRowByMask := by
  intro w
  refine ⟨fun row hrow => masked_iff hrow, ?_⟩
  rcases hw : decode w with e | i
  · have hnone : ∀ row ∈ specRows, w &&& row.mask ≠ row.pattern := by
      intro row hrow h
      obtain ⟨i, hi, -⟩ := (masked_iff hrow).mp h
      exact nomatch hw.symm.trans hi
    exact ⟨fun _ => ⟨e, rfl⟩, fun _ => hnone⟩
  · obtain ⟨row, hrow, -, hbits⟩ := matchesRow i
    rw [decode_eq_ok_iff.mp hw] at hbits
    exact ⟨fun h => absurd hbits (h row hrow), nofun⟩

/-! #### Words and commands that raise IllegalCommand -/

theorem rejectWord_unfaulted {s : State} (w : Word) (h : s.fault = none) :
    rejectWord w s = s.latch .illegalCommand w := by
  simp [rejectWord, State.faulted, h]

/-- Settles O6: the rejection of an undecodable word latches IllegalCommand in a CORE with no fault. -/
theorem illegalWordRaises : Obligations.IllegalWordRaises := by
  intro s w rest e hs hf hw
  rw [step_cons hs, perform, present, hw]
  exact congrArg Host.Outcome.next (rejectWord_unfaulted w hf)

/-- Settles O8: the admission check of `issue` fails, since it is the spec's admission table; SRST is always
admitted. -/
theorem inadmissibleCommandRaises : Obligations.InadmissibleCommandRaises := by
  intro i s hf hna
  have hsrst : i ≠ .srst := by
    rintro rfl
    exact hna trivial
  have hrefused : admits i s = false := Bool.eq_false_iff.mpr fun h => hna ((admits_iff i s).mp h)
  exact (exec_eq_issue hsrst s).trans (issue_refused hf hrefused)

end Sys2Proof.Machine
end

/-! ### Counting, and the commands that clear or leave alone -/

section
namespace Sys2Proof.Machine

theorem exec_raised {i : Instr} {s u : State} {k : FaultKind} (hi : i ≠ .srst) (hf : s.fault = none)
    (ha : AdmittedBySpec i s) (hbody : commandBody i s = .raised u k) : exec i s = .next (u.latch k (encode i)) := by
  rw [exec_eq_issue hi, issue_admitted hf ((admits_iff i s).mpr ha), hbody, finish]

/-- Settles O22: FCLR is always admitted. -/
theorem fclrClears : Obligations.FclrClears :=
  ⟨rfl, fun _ hf => exec_completed (i := .fclr) nofun hf trivial rfl⟩

/-! #### One byte counted -/

theorem halved_toNat (f : Word) : (halved f).toNat = (f.toNat + 1) / 2 := by
  have := f.isLt
  rw [halved, BitVec.toNat_ofNat, Nat.mod_eq_of_lt (by omega)]

theorem halved_eq_zero_iff (f : Word) : halved f = 0 ↔ f = 0 := by
  have hzero : ∀ w : Word, w = 0 ↔ w.toNat = 0 := fun w => BitVec.toNat_inj.symm
  rw [hzero, hzero, halved_toNat]
  omega

section
variable {b : Byte} {freq : Table Word 8}

theorem countByte_of_room (h : (freq.get b.toNat + 1).toNat ≠ 2 ^ 24) :
    countByte b freq = freq.set b.toNat (freq.get b.toNat + 1) := by
  simp only [countByte, Table.get_set_self]
  exact if_neg h

theorem countByte_of_full (h : (freq.get b.toNat + 1).toNat = 2 ^ 24) :
    countByte b freq = (freq.set b.toNat (freq.get b.toNat + 1)).map halved := by
  simp only [countByte, Table.get_set_self]
  exact if_pos h

end

theorem exec_fcnt {s : State} (b : Byte) (hf : s.fault = none) (hraw : s.ms = .raw) :
    exec (.fcnt b) s = .next (s.setFreq (countByte b s.freq)).bumpCc :=
  exec_completed (i := .fcnt b) nofun hf hraw rfl

/-- Settles O23: the two outcomes of the test on the incremented count; `2^24` halves to `2^23`. -/
theorem fcntCounts : Obligations.FcntCounts := by
  intro s b hf hraw
  refine ⟨_, exec_fcnt b hf hraw, rfl, fun hroom j hj => ?_, fun hfull => ⟨?_, fun j hj hne => ?_⟩⟩ <;>
    simp only [State.bumpCc_freq, State.setFreq_freq]
  · rw [countByte_of_room hroom, Table.get_set _ _ _ _ b.isLt hj]
    exact ite_congr rfl (fun h => by rw [h]) fun _ => rfl
  · rw [countByte_of_full hfull, Table.get_map, Table.get_set_self, halved_toNat, hfull]
    rfl
  · rw [countByte_of_full hfull, Table.get_map, Table.get_set_ne _ _ _ _ b.isLt hj hne]
    exact ⟨halved_toNat _, halved_eq_zero_iff _⟩

/-! #### A message counted -/

theorem countMessage_succ (s : State) (n : Nat) :
    countMessage s (n + 1) = countByte (s.readMsg n) (countMessage s n) := rfl

/-- Below the limit no count is halved, and each is the old one and the occurrences of its byte so far. -/
theorem countMessage_get {s : State} {n : Nat}
    (hroom : ∀ b : Byte, (s.freq.get b.toNat).toNat + s.occurrences b n < 2 ^ 24) (b : Byte) :
    ((countMessage s n).get b.toNat).toNat = (s.freq.get b.toNat).toNat + s.occurrences b n := by
  induction n generalizing b with
  | zero => rfl
  | succ n ih =>
    have hocc : ∀ c : Byte, s.occurrences c (n + 1) = s.occurrences c n + if s.readMsg n = c then 1 else 0 :=
      fun _ => rfl
    have hbefore := ih fun c => by
      have := hroom c
      rw [hocc] at this
      omega
    have hinc : ((countMessage s n).get (s.readMsg n).toNat + 1).toNat =
        (s.freq.get (s.readMsg n).toNat).toNat + s.occurrences (s.readMsg n) (n + 1) := by
      have hlt := hroom (s.readMsg n)
      rw [hocc, if_pos rfl] at hlt ⊢
      rw [BitVec.toNat_add, hbefore]
      exact Nat.mod_eq_of_lt (by simp; omega)
    have hlimit := hroom (s.readMsg n)
    rw [countMessage_succ, countByte_of_room (by rw [hinc]; omega), Table.get_set _ _ _ _ (s.readMsg n).isLt b.isLt]
    split
    next heq =>
      obtain rfl := BitVec.eq_of_toNat_eq heq
      exact hinc
    next hne => rw [hbefore, hocc, if_neg fun h => hne (congrArg BitVec.toNat h.symm), Nat.add_zero]

theorem exec_fscan {s : State} (hf : s.fault = none) (hraw : s.ms = .raw) (hlen : s.len.toNat ≤ s.msgCap.toNat) :
    exec .fscan s = .next (s.setFreq (countMessage s s.len.toNat)).bumpCc :=
  exec_completed (i := .fscan) nofun hf ⟨hraw, hlen⟩ rfl

/-- Settles O24, by induction on the bytes counted. -/
theorem fscanAddsOccurrences : Obligations.FscanAddsOccurrences :=
  fun _ hf hraw hlen hroom => ⟨_, exec_fscan hf hraw hlen, rfl, countMessage_get hroom⟩

/-- FCNTs of the first `n` message bytes: the counts of FSCAN, each command counted in CC. -/
theorem execAll_fcnt {s : State} (hf : s.fault = none) (hraw : s.ms = .raw) (n : Nat) :
    execAll ((List.range n).map fun i => Instr.fcnt (s.readMsg i)) s =
      .next { s with freq := countMessage s n, cc := s.cc + BitVec.ofNat 64 n } := by
  induction n with
  | zero => simp [countMessage, countUp]
  | succ n ih =>
    have hnext := exec_fcnt (s := { s with freq := countMessage s n, cc := s.cc + BitVec.ofNat 64 n }) (s.readMsg n)
      hf hraw
    rw [List.range_succ, List.map_append, execAll_append _ ih]
    refine (execAll_cons [] hnext).trans (congrArg Host.Outcome.next ?_)
    simp [State.setFreq, State.bumpCc, countMessage_succ, BitVec.ofNat_add, BitVec.add_assoc]

/-- Settles O25: both count the same bytes in the same order. -/
theorem fscanIsFcntPerByte : Obligations.FscanIsFcntPerByte := by
  intro s hf hraw hlen
  refine ⟨_, exec_fscan hf hraw hlen, (execAll_fcnt hf hraw s.len.toNat).trans ?_⟩
  simp [State.setFreq, State.bumpCc]

/-! #### The empty model -/

theorem freqSum_eq_zero {s : State} (h : ∀ i, i < 256 → s.freq.get i = 0) : s.freqSum 256 = 0 :=
  Nat.le_zero.mp (freqSum_le s (n := 256) (bound := 0) fun i hi => by rw [h i hi]; exact Nat.le_refl 0)

/-- Settles O26: the total of all-zero counts is 0, and ABLD looks at MS first. -/
theorem emptyModelCommands : Obligations.EmptyModelCommands := by
  refine fun s hf => ⟨fun hraw hzero => ?_, fun hempty => ?_⟩
  · have htotal := prefixSums_eq_zero_of_freqSum s.cum (freqSum_eq_zero hzero) 256 (Nat.le_refl 256)
    have hbody : fnormBody s = .ok ((s.setCum .zero).setFlags .empty false) () := if_pos htotal
    exact exec_completed (i := .fnorm) nofun hf hraw hbody
  · have hbody : abldBody s = .ok (s.setFlags s.ms false) () := if_pos hempty
    exact exec_completed (i := .abld) nofun hf (.inr hempty) hbody

end Sys2Proof.Machine
end

/-! ### The sink: FST, and a sink with too little room -/

section
namespace Sys2Proof.Machine

theorem byteOf_toNat (v n : Nat) : (byteOf v n).toNat = v / 256 ^ n % 256 := by
  rw [byteOf, BitVec.toNat_ofNat, Nat.shiftRight_eq_div_pow, Nat.pow_mul]

theorem freq_fits_iff (t : Table Word 8) :
    (t.all fun f => decide (f.toNat ≤ 0xFFFF)) = true ↔ ∀ i, i < 256 → (t.get i).toNat ≤ 0xFFFF := by
  simp only [Table.all_iff, decide_eq_true_eq]
  rfl

theorem fstBody_of_fits {s : State} (h : ∀ i, i < 256 → (s.freq.get i).toNat ≤ 0xFFFF) :
    fstBody s = forDown 256 storeFreq s := by
  rw [fstBody, if_pos ((freq_fits_iff s.freq).mpr h)]

theorem fstBody_of_wide {s : State} (h : ∃ i, i < 256 ∧ 0xFFFF < (s.freq.get i).toNat) :
    fstBody s = .raised s .invariantViolation := by
  obtain ⟨i, hi, hwide⟩ := h
  rw [fstBody, if_neg fun hall => Nat.not_le_of_lt hwide ((freq_fits_iff s.freq).mp hall i hi)]

/-- Settles O39: both commands make their test before they push. -/
theorem invariantViolationBeforeAnyByte : Obligations.InvariantViolationBeforeAnyByte := by
  refine fun s hf => ⟨fun j sym hj htv hzero => ?_, fun hms hwide => ?_⟩
  · have hbody : eputBody j.toNat sym.toNat s = .raised s .invariantViolation := if_pos hzero
    exact exec_raised (i := .eput j sym) nofun hf ⟨hj, htv⟩ hbody
  · exact exec_raised (i := .fst) nofun hf hms (fstBody_of_wide hwide)

/-- FST with room for its 512 bytes: read forward from the new WP, word `i` is `freq[i]` (40_frequency_model.md R97). -/
theorem fstBody_ok {s : State} (hfits : ∀ i, i < 256 → (s.freq.get i).toNat ≤ 0xFFFF) (hw : 512 ≤ s.wp.toNat)
    (hc : s.wp.toNat ≤ s.strCap.toNat) :
    ∃ cells, fstBody s = .ok (s.sunk 512 cells) () ∧
      (∀ i, i < 256 → (s.sunk 512 cells).littleEndian (s.wp.toNat - 512 + 2 * i) 2 = (s.freq.get i).toNat) ∧
        ∀ a, a < s.wp.toNat - 512 ∨ s.wp.toNat ≤ a → (s.sunk 512 cells).readStr a = s.readStr a := by
  obtain ⟨cells, hloop, hpushed⟩ := storeFreqs_spec 256 s hc
  rw [Nat.min_eq_left hw] at hpushed
  refine ⟨cells, (fstBody_of_fits hfits).trans (hloop.trans (if_pos hw)), fun i hi => ?_, hpushed.2⟩
  have hbytes : ∀ m, m < 2 →
      (s.sunk 512 cells).readStr (s.wp.toNat - 512 + 2 * i + m) = byteOf (s.freq.get i).toNat m := by
    intro m hm
    have hbyte := hpushed.1 (511 - 2 * i - m) (by omega)
    simpa only [show s.wp.toNat - 1 - (511 - 2 * i - m) = s.wp.toNat - 512 + 2 * i + m by omega,
      show 256 - 1 - (511 - 2 * i - m) / 2 = i by omega, show 1 - (511 - 2 * i - m) % 2 = m by omega] using hbyte
  exact (littleEndian_of_bytes hbytes).trans (Nat.mod_eq_of_lt (Nat.lt_succ_of_le (hfits i hi)))

/-- Settles O33: FST with room. -/
theorem fstStores : Obligations.FstStores := by
  intro s hf hms hfits hw hc
  obtain ⟨cells, hbody, hwords, hframe⟩ := fstBody_ok hfits hw hc
  exact ⟨_, exec_completed (i := .fst) nofun hf hms hbody, rfl, hwords, hframe⟩

/-! #### Io -/

/-- `s` with its sink filled up by the bytes `b`, the last ones it had room for, and Io latched. -/
def SinkFilled (s t : State) (word : Word) (b : Nat → Nat) : Prop :=
  t = { s with wp := 0, str := t.str, fault := some .io, fcmd := word } ∧
    (∀ m, m < s.wp.toNat → (t.readStr (s.wp.toNat - 1 - m)).toNat = b m) ∧
      ∀ a, s.wp.toNat ≤ a → t.readStr a = s.readStr a

theorem Pushed.sinkFilled {s : State} {cells : List Host.Cell} {n : Nat} {b : Nat → Byte} (word : Word)
    (hn : s.wp.toNat ≤ n) (h : Pushed s (s.sunk (min n s.wp.toNat) cells) (min n s.wp.toNat) b) :
    SinkFilled s ((s.sunk s.wp.toNat cells).latch .io word) word fun m => (b m).toNat := by
  rw [Nat.min_eq_right hn] at h
  refine ⟨?_, fun m hm => congrArg BitVec.toNat (h.1 m hm), fun a ha => h.2 a (.inr ha)⟩
  simp [State.sunk, State.setWp, State.setStr, State.latch]

/-- A command that pushes `n` bytes of `v`, with less room. -/
theorem exec_push_full {i : Instr} {s : State} {n v : Nat} (hi : i ≠ .srst) (hf : s.fault = none)
    (ha : AdmittedBySpec i s) (hbody : commandBody i s = pushBytes n v s) (hc : s.wp.toNat ≤ s.strCap.toNat)
    (hw : s.wp.toNat < n) :
    ∃ t, exec i s = .next t ∧ SinkFilled s t (encode i) fun m => v / 256 ^ (n - 1 - m) % 256 := by
  obtain ⟨cells, hpush, hpushed⟩ := pushBytes_spec n v s hc
  refine ⟨_, exec_raised hi hf ha (hbody.trans (hpush.trans (if_neg (by omega)))), ?_⟩
  simpa only [byteOf_toNat] using hpushed.sinkFilled (encode i) hw.le

/-- Settles O42: EFLUSH and LST push the bytes of one value, FST two bytes of each entry, the last entry first. -/
theorem fullSinkRaises : Obligations.FullSinkRaises := by
  refine fun s hf hc => ⟨fun j hj hw => ?_, fun hw => ?_, fun hms hfits hw => ?_⟩
  · exact exec_push_full (i := .eflush j) nofun hf hj rfl hc hw
  · exact exec_push_full (i := .lst) nofun hf trivial rfl hc hw
  · obtain ⟨cells, hloop, hpushed⟩ := storeFreqs_spec 256 s hc
    refine ⟨_, exec_raised (i := .fst) nofun hf hms
      ((fstBody_of_fits hfits).trans (hloop.trans (if_neg (by omega)))), ?_⟩
    have hfilled := hpushed.sinkFilled 0x15000000 hw.le
    simp only [byteOf_toNat] at hfilled
    exact hfilled

end Sys2Proof.Machine
end

/-! ### The source: FLD -/

section
namespace Sys2Proof.Machine

/-- The counts after the first `n` words of the read window (40_frequency_model.md R96). -/
def State.loadedFreq (s : State) (n : Nat) : Table Word 8 :=
  countUp n (fun i freq => freq.set i (BitVec.ofNat 32 (s.littleEndian (s.rp.toNat + 2 * i) 2))) s.freq

/-- `s` after `n` whole words of the table and `m` bytes of the window have been read. -/
def State.loaded (s : State) (n m : Nat) : State :=
  (s.setRp (s.rp + BitVec.ofNat 64 m)).setFreq (s.loadedFreq n)

theorem loadedFreq_get (s : State) {n i : Nat} (hn : n ≤ 256) (hi : i < 256) :
    (s.loadedFreq n).get i =
      if i < n then BitVec.ofNat 32 (s.littleEndian (s.rp.toNat + 2 * i) 2) else s.freq.get i := by
  refine countUp_induct (P := fun n (freq : Table Word 8) => freq.get i =
    if i < n then BitVec.ofNat 32 (s.littleEndian (s.rp.toNat + 2 * i) 2) else s.freq.get i) n (by simp)
    fun k hk freq ih => ?_
  rw [Table.get_set freq k i _ (by omega) hi, ih]
  by_cases hik : i = k
  · subst hik
    simp
  · simp [hik, show i < k + 1 ↔ i < k by omega]

/-- FLD's loop: `n` words where the window holds them, else the whole words it holds, and TruncatedInput at its end. -/
theorem loadFreqs_spec (n : Nat) (s : State) :
    forUp n loadFreq s =
      if 2 * n ≤ s.window then .ok (s.loaded n (2 * n)) ()
      else .raised (s.loaded (s.window / 2) s.window) .truncatedInput := by
  induction n with
  | zero => simp [State.loaded, State.loadedFreq, countUp, State.setRp, State.setFreq]
  | succ n ih =>
    rw [forUp_succ, ih]
    by_cases hn : 2 * n ≤ s.window
    · have hwin : (s.loaded n (2 * n)).window = s.window - 2 * n := window_setRp hn
      have hrp : (s.loaded n (2 * n)).rp.toNat = s.rp.toNat + 2 * n := toNat_add_ofNat (rp_add_lt hn)
      have hadd : ∀ m, s.rp + BitVec.ofNat 64 (2 * n) + BitVec.ofNat 64 m = s.rp + BitVec.ofNat 64 (2 * n + m) :=
        fun m => by rw [BitVec.ofNat_add, BitVec.add_assoc]
      rw [if_pos hn, Res.bind_ok, loadFreq, pullBytes_spec, hwin, hrp]
      by_cases hn1 : 2 * (n + 1) ≤ s.window
      · rw [if_pos (by omega), if_pos hn1, Res.bind_ok]
        simp [State.loaded, State.setRp, State.setFreq, hadd, Nat.mul_succ, State.loadedFreq, countUp_succ]
        rfl
      · rw [if_neg (by omega), if_neg hn1, Res.bind_raised]
        simp [State.loaded, State.setRp, State.setFreq, hadd, show 2 * n + (s.window - 2 * n) = s.window by omega,
          show s.window / 2 = n by omega]
    · rw [if_neg hn, if_neg (by omega), Res.bind_raised]

/-- Settles O32: FLD's loop on a window too short for 256 words. -/
theorem fldTruncated : Obligations.FldTruncated := by
  intro s hf hraw hwin
  have hbody : fldBody s = .raised (s.loaded (s.window / 2) s.window) .truncatedInput := by
    rw [fldBody, loadFreqs_spec, if_neg (by omega), Res.bind_raised]
  refine ⟨_, exec_raised (i := .fld) nofun hf hraw hbody, rfl, fun i hi => ?_⟩
  refine (loadedFreq_get s (by omega) hi).trans (if_congr ?_ rfl rfl)
  omega

/-! #### The check of the total -/

theorem loadedFreq_toNat (s : State) {i : Nat} (hi : i < 256) :
    ((s.loadedFreq 256).get i).toNat = s.littleEndian (s.rp.toNat + 2 * i) 2 := by
  have hword := littleEndian_lt s (s.rp.toNat + 2 * i) 2
  rw [loadedFreq_get s (Nat.le_refl 256) hi, if_pos hi, BitVec.toNat_ofNat, Nat.mod_eq_of_lt (by omega)]

/-- The total and the two cases in which FLD accepts it (40_frequency_model.md R96). -/
theorem checkLoaded_eq {t : State} {cum : CumTable} (hcum : cum = prefixSums t.freq 256 t.cum) :
    checkLoaded t =
      if (cum.entry 256).toNat = t.p.mass then .ok ((t.setCum cum).setFlags .valid false) ()
      else if cum.entry 256 = 0 ∧ t.len = 0 then .ok ((t.setCum cum).setFlags .empty false) ()
      else .raised ((t.setCum cum).setFlags t.ms false) .badHeader := by
  simp only [checkLoaded, ← hcum, State.setCum_cum, State.setCum_p, State.setCum_len, State.setCum_ms]

/-- `s` after FLD has read its 512 bytes and summed up the counts. -/
def State.tableRead (s : State) (freq : Table Word 8) (cum : CumTable) (ms : ModelStatus) : State :=
  { s with freq := freq, cum := cum, ms := ms, tv := false, rp := s.rp + 512 }

section
variable {s : State} {freq : Table Word 8} {cum : CumTable} (hfreq : freq = s.loadedFreq 256)
  (hcum : cum = prefixSums freq 256 s.cum)
include hfreq

theorem freqSum_loaded {n : Nat} (hn : n ≤ 256) : (s.setFreq freq).freqSum n = s.loadedSum n := by
  induction n with
  | zero => rfl
  | succ n ih => rw [State.freqSum, State.loadedSum, ih (by omega), State.setFreq_freq, hfreq, loadedFreq_toNat s hn]

include hcum

/-- The running sums of words of 16 bits are exact. -/
theorem cum_loaded {i : Nat} (hi : i ≤ 256) : (cum.entry i).toNat = s.loadedSum i := by
  have hbound : (s.setFreq freq).freqSum i ≤ i * 65535 := freqSum_le _ fun k hk => by
    have hword := littleEndian_lt s (s.rp.toNat + 2 * k) 2
    rw [State.setFreq_freq, hfreq, loadedFreq_toNat s (by omega)]
    omega
  have hentry := prefixSums_entry (s.setFreq freq) s.cum (Nat.le_refl 256) i hi
  rw [freqSum_loaded hfreq hi] at hbound hentry
  rw [hcum]
  refine (congrArg BitVec.toNat hentry).trans ?_
  rw [BitVec.toNat_ofNat, Nat.mod_eq_of_lt (by omega)]

variable (hwin : 512 ≤ s.window)
include hwin

theorem fldBody_full :
    fldBody s =
      if s.loadedSum 256 = s.p.mass then .ok (s.tableRead freq cum .valid) ()
      else if s.loadedSum 256 = 0 ∧ s.len = 0 then .ok (s.tableRead freq cum .empty) ()
      else .raised (s.tableRead freq cum s.ms) .badHeader := by
  have htotal := cum_loaded hfreq hcum (Nat.le_refl 256)
  have hzero : cum.entry 256 = 0 ↔ s.loadedSum 256 = 0 := by
    rw [← htotal, ← BitVec.toNat_inj]
    rfl
  have hread : forUp 256 loadFreq s = .ok ((s.setRp (s.rp + 512)).setFreq freq) () := by
    rw [loadFreqs_spec, if_pos hwin, State.loaded, ← hfreq]
    rfl
  have hsums : cum = prefixSums ((s.setRp (s.rp + 512)).setFreq freq).freq 256
      ((s.setRp (s.rp + 512)).setFreq freq).cum := by
    simpa only [State.setFreq_freq, State.setFreq_cum, State.setRp_cum] using hcum
  rw [fldBody, hread, Res.bind_ok, checkLoaded_eq hsums]
  simp only [htotal, hzero, State.tableRead, State.setRp, State.setFreq, State.setCum, State.setFlags]

variable (hf : s.fault = none) (hraw : s.ms = .raw)
include hf hraw

theorem exec_fld_valid (hmass : s.loadedSum 256 = s.p.mass) :
    exec .fld s = .next (s.tableRead freq cum .valid).bumpCc :=
  exec_completed (i := .fld) nofun hf hraw ((fldBody_full hfreq hcum hwin).trans (if_pos hmass))

theorem exec_fld_empty (hempty : s.loadedSum 256 = 0 ∧ s.len = 0) :
    exec .fld s = .next (s.tableRead freq cum .empty).bumpCc := by
  have hmass : s.loadedSum 256 ≠ s.p.mass := hempty.1 ▸ (Nat.two_pow_pos _).ne
  exact exec_completed (i := .fld) nofun hf hraw
    ((fldBody_full hfreq hcum hwin).trans ((if_neg hmass).trans (if_pos hempty)))

theorem exec_fld_bad (hmass : s.loadedSum 256 ≠ s.p.mass) (hempty : ¬ (s.loadedSum 256 = 0 ∧ s.len = 0)) :
    exec .fld s = .next ((s.tableRead freq cum s.ms).latch .badHeader 0x14000000) :=
  exec_raised (i := .fld) nofun hf hraw
    ((fldBody_full hfreq hcum hwin).trans ((if_neg hmass).trans (if_neg hempty)))

end

/-- Settles O31: the three ends of FLD on a full window, over the same counts and running sums. -/
theorem fldLoads : Obligations.FldLoads := by
  intro s hf hraw hrend hcap
  have hwin : 512 ≤ s.window := by
    rw [State.window]
    omega
  obtain ⟨freq, hfreq⟩ : ∃ freq, freq = s.loadedFreq 256 := ⟨_, rfl⟩
  obtain ⟨cum, hcum⟩ : ∃ cum, cum = prefixSums freq 256 s.cum := ⟨_, rfl⟩
  have hwords : ∀ i, i < 256 → (freq.get i).toNat = s.littleEndian (s.rp.toNat + 2 * i) 2 := fun i hi =>
    hfreq ▸ loadedFreq_toNat s hi
  have hsums := fun i (hi : i ≤ 256) => cum_loaded hfreq hcum hi
  by_cases hmass : s.loadedSum 256 = 2 ^ s.p.exponent
  · have hne : s.loadedSum 256 ≠ 0 := hmass ▸ (Nat.two_pow_pos _).ne'
    exact ⟨_, exec_fld_valid hfreq hcum hwin hf hraw hmass, hwords, hsums, fun _ => rfl, fun h => absurd h hne,
      fun h => absurd hmass h⟩
  · by_cases hempty : s.loadedSum 256 = 0 ∧ s.len = 0
    · exact ⟨_, exec_fld_empty hfreq hcum hwin hf hraw hempty, hwords, hsums, fun h => absurd h hmass, fun _ _ => rfl,
        fun _ h => absurd hempty (not_and_or.mpr h)⟩
    · exact ⟨_, exec_fld_bad hfreq hcum hwin hf hraw hmass hempty, hwords, hsums, fun h => absurd h hmass,
        fun h h' => absurd ⟨h, h'⟩ hempty, fun _ _ => rfl⟩

/-! #### FST, then FLD -/

/-- The window opened on what the sink holds, and the model cleared. -/
theorem execAll_rewind_fclr {u : State} (hf : u.fault = none) :
    execAll [.rewind, .fclr] u = .next ((u.setRp u.wp).setRend u.strCap).bumpCc.clearModel.bumpCc := by
  have hrewind : exec .rewind u = .next ((u.setRp u.wp).setRend u.strCap).bumpCc :=
    exec_completed (i := .rewind) nofun hf trivial rfl
  rw [execAll_cons _ hrewind]
  exact execAll_cons _ (exec_completed (i := .fclr) nofun hf trivial rfl)

/-- After FST, REWIND and FCLR, FLD is about to read the counts of `s` back. -/
theorem execAll_fst_rewind_fclr {s : State} (hf : s.fault = none) (hvalid : s.ms = .valid)
    (hfits : ∀ i, i < 256 → (s.freq.get i).toNat ≤ 0xFFFF) (hw : 512 ≤ s.wp.toNat) (hc : s.wp.toNat ≤ s.strCap.toNat) :
    ∃ u, execAll [.fst, .rewind, .fclr] s = .next u ∧ u.fault = none ∧ u.ms = .raw ∧ u.p = s.p ∧ u.rp = s.wp - 512 ∧
      512 ≤ u.window ∧ ∀ i, i < 256 → u.littleEndian (u.rp.toNat + 2 * i) 2 = (s.freq.get i).toNat := by
  obtain ⟨cells, hbody, hwords, -⟩ := fstBody_ok hfits hw hc
  have hwp : (s.wp - 512).toNat = s.wp.toNat - 512 := toNat_sub_ofNat hw
  have hfst : exec .fst s = .next (s.sunk 512 cells).bumpCc := exec_completed (i := .fst) nofun hf (.inl hvalid) hbody
  have hfault : (s.sunk 512 cells).bumpCc.fault = none := by simpa [State.sunk] using hf
  refine ⟨_, (execAll_cons _ hfst).trans (execAll_rewind_fclr hfault), ?_⟩
  refine ⟨by simpa using hfault, by simp, by simp [State.sunk], by simp [State.sunk], ?_, fun i hi => ?_⟩
  · suffices h : 512 ≤ s.strCap.toNat - (s.wp - 512).toNat by simpa [State.window, State.sunk] using h
    omega
  · refine (littleEndian_congr (s := s.sunk 512 cells) (State.readStr_congr (by simp) (by simp)) _ _).trans ?_
    rw [← hwords i hi, ← hwp]
    simp [State.sunk]

theorem ModelOk.cum_eq_freqSum {s : State} (h : ModelOk s) {n : Nat} (hn : n ≤ 256) :
    (s.cum.entry n).toNat = s.freqSum n := by
  induction n with
  | zero => exact congrArg BitVec.toNat h.first
  | succ n ih => rw [h.step n (by omega), ih (by omega), State.freqSum]

theorem loadedSum_eq_freqSum {s u : State}
    (h : ∀ i, i < 256 → u.littleEndian (u.rp.toNat + 2 * i) 2 = (s.freq.get i).toNat) {n : Nat} (hn : n ≤ 256) :
    u.loadedSum n = s.freqSum n := by
  induction n with
  | zero => rfl
  | succ n ih => rw [State.loadedSum, State.freqSum, ih (by omega), h n (by omega)]

/-- Settles O34: the words FLD reads are the counts, so their sums are the `cum[]` of a normalized model. -/
theorem fstThenFldRestores : Obligations.FstThenFldRestores := by
  intro s hf hvalid hm hfits hw hc
  obtain ⟨u, hu, hfault, hraw, hp, hrp, hwin, hwords⟩ := execAll_fst_rewind_fclr hf hvalid hfits hw hc
  have hsum : ∀ i, i ≤ 256 → u.loadedSum i = (s.cum.entry i).toNat := fun i hi =>
    (loadedSum_eq_freqSum hwords hi).trans (hm.cum_eq_freqSum hi).symm
  have htotal : u.loadedSum 256 = 2 ^ u.p.exponent := by rw [hsum 256 (Nat.le_refl 256), hm.total, hp]
  obtain ⟨freq, hfreq⟩ : ∃ freq, freq = u.loadedFreq 256 := ⟨_, rfl⟩
  obtain ⟨cum, hcum⟩ : ∃ cum, cum = prefixSums freq 256 u.cum := ⟨_, rfl⟩
  have hfld := exec_fld_valid hfreq hcum hwin hfault hraw htotal
  refine ⟨_, (execAll_append [.fld] hu).trans (execAll_cons [] hfld), hfault, rfl, ?_, fun i hi => ?_, ?_⟩
  · have hback : ∀ i, i < 256 → freq.get i = s.freq.get i := fun i hi =>
      BitVec.eq_of_toNat_eq (hfreq ▸ (loadedFreq_toNat u hi).trans (hwords i hi))
    exact Table.ext_get _ _ hback
  · exact BitVec.eq_of_toNat_eq ((cum_loaded hfreq hcum hi).trans (hsum i hi))
  · rw [State.bumpCc_rp, State.tableRead, hrp, BitVec.sub_add_cancel]

end Sys2Proof.Machine
end

/-! ### What the sink and the model commands leave alone -/

section
namespace Sys2Proof.Machine

/-- What survives a command's pseudocode, and CC or the fault registers written, survives the command, however it
ends. -/
theorem exec_keeps_of_body {P : State → Prop} (bumpCc : ∀ s, P s → P s.bumpCc)
    (latch : ∀ s f word, P s → P (s.latch f word)) {i : Instr} {s t : State} (hi : i ≠ .srst) (hs : P s)
    (hbody : P (commandBody i s).state) (h : exec i s = .next t) : P t := by
  rw [exec_eq_issue hi] at h
  rcases issue_cases h with ⟨-, rfl⟩ | ⟨-, -, rfl⟩ | ⟨-, -, ⟨u, hu, rfl⟩ | ⟨u, k, hu, rfl⟩⟩
  · exact hs
  · exact latch s _ _ hs
  · rw [hu] at hbody
    exact bumpCc u hbody
  · rw [hu] at hbody
    exact latch u k _ hbody

/-! #### The sink commands -/

/-- `t` is `s` but for WP, STR, CC and the fault registers, WP lowered by at most `n`, and in STR at most the `n` bytes
below the old WP written. -/
structure SinkFrame (n : Nat) (s t : State) : Prop where
  rest : t = { s with wp := t.wp, str := t.str, cc := t.cc, fault := t.fault, fcmd := t.fcmd }
  low : s.wp.toNat - n ≤ t.wp.toNat
  high : t.wp.toNat ≤ s.wp.toNat
  bytes : ∀ a, a < s.wp.toNat - n ∨ s.wp.toNat ≤ a → t.readStr a = s.readStr a

theorem SinkFrame.refl (n : Nat) (s : State) : SinkFrame n s s := ⟨rfl, Nat.sub_le _ _, Nat.le_refl _, fun _ _ => rfl⟩

theorem SinkFrame.trans {m n : Nat} {s t u : State} (h : SinkFrame m s t) (h' : SinkFrame n t u) :
    SinkFrame (m + n) s u := by
  have hlow := h.low
  have hhigh := h.high
  have hlow' := h'.low
  have hhigh' := h'.high
  refine ⟨?_, by omega, by omega, fun a ha => (h'.bytes a (by omega)).trans (h.bytes a (by omega))⟩
  rw [h'.rest, h.rest]

/-- PutByte, wherever WP stands. -/
theorem SinkFrame.of_putByte (b : Byte) (s : State) : SinkFrame 1 s (putByte b s).state := by
  rcases putByte_cases b s with ⟨-, h⟩ | ⟨hw, h⟩ <;> rw [h]
  · exact .refl 1 s
  have hpos : 1 ≤ s.wp.toNat := Nat.pos_of_ne_zero fun h0 => hw (BitVec.eq_of_toNat_eq h0)
  have hwp : (s.wp - 1).toNat = s.wp.toNat - 1 := toNat_sub_ofNat hpos
  refine ⟨?_, ?_, ?_, fun a ha => ?_⟩ <;> rw [Res.state_ok]
  · rw [writeStr_changes_str]
    rfl
  · rw [State.writeStr_wp]
    exact hwp.ge
  · rw [State.writeStr_wp]
    exact hwp.trans_le (Nat.sub_le _ _)
  · rw [State.readStr_writeStr, if_neg (by omega)]
    rfl

/-- A loop whose every turn pushes at most `k` bytes. -/
theorem SinkFrame.of_forDown {k : Nat} {body : Nat → State → Res Unit} (hbody : ∀ i t, SinkFrame k t (body i t).state)
    (n : Nat) (s : State) : SinkFrame (n * k) s (forDown n body s).state := by
  induction n generalizing s with
  | zero => exact .refl _ s
  | succ n ih =>
    have hfirst := hbody n s
    rw [forDown_succ, Nat.succ_mul, Nat.add_comm]
    cases hres : body n s with
    | ok t a =>
      rw [hres] at hfirst
      exact hfirst.trans (ih t)
    | raised t f =>
      rw [hres] at hfirst
      exact hfirst.trans (.refl _ t)

theorem SinkFrame.of_pushBytes (n v : Nat) (s : State) : SinkFrame n s (pushBytes n v s).state := by
  have h := SinkFrame.of_forDown (fun k t => SinkFrame.of_putByte (byteOf v k) t) n s
  rwa [Nat.mul_one] at h

theorem SinkFrame.of_fstBody (s : State) : SinkFrame 512 s (fstBody s).state := by
  unfold fstBody
  split
  · exact SinkFrame.of_forDown (fun i t => SinkFrame.of_pushBytes 2 (t.freq.get i).toNat t) 256 s
  · exact .refl 512 s

theorem SinkFrame.of_body {n : Nat} {i : Instr} {s t : State} (hi : i ≠ .srst)
    (hbody : SinkFrame n s (commandBody i s).state) (h : exec i s = .next t) : SinkFrame n s t := by
  refine exec_keeps_of_body (P := SinkFrame n s) (fun t h => ?_) (fun t f word h => ?_) hi (.refl n s) hbody h
  · exact { h with rest := congrArg State.bumpCc h.rest }
  · exact { h with rest := congrArg (State.latch · f word) h.rest }

/-- Settles O57: each body pushes at most its 512, 4 or 8 bytes. -/
theorem sinkCommandFrame : Obligations.SinkCommandFrame := by
  intro s t i n hin h
  have hframe : SinkFrame n s t := by
    rcases hin with ⟨rfl, rfl⟩ | ⟨j, rfl, rfl⟩ | ⟨rfl, rfl⟩
    · exact .of_body (i := .fst) nofun (SinkFrame.of_fstBody s) h
    · exact .of_body (i := .eflush j) nofun (SinkFrame.of_pushBytes 4 (s.r.get j.toNat).toNat s) h
    · exact .of_body (i := .lst) nofun (SinkFrame.of_pushBytes 8 s.len.toNat s) h
  exact ⟨hframe.rest, hframe.bytes⟩

/-! #### The model commands -/

/-- `t` is `s` but for `freq[]`, CC and the fault registers. -/
def CountFrame (s t : State) : Prop := t = { s with freq := t.freq, cc := t.cc, fault := t.fault, fcmd := t.fcmd }

/-- `t` is `s` but for `freq[]`, `cum[]`, MS, TV, CC and the fault registers. -/
def ModelFrame (s t : State) : Prop :=
  t = { s with
        freq := t.freq
        cum := t.cum
        ms := t.ms
        tv := t.tv
        cc := t.cc
        fault := t.fault
        fcmd := t.fcmd }

/-- `t` is `s` but for `freq[]`, `cum[]`, MS, TV, RP, CC and the fault registers. -/
def LoadFrame (s t : State) : Prop :=
  t = { s with
        freq := t.freq
        cum := t.cum
        ms := t.ms
        tv := t.tv
        rp := t.rp
        cc := t.cc
        fault := t.fault
        fcmd := t.fcmd }

/-- `t` is `s` but for TV, the five arrays ABLD builds, CC and the fault registers. -/
def TableFrame (s t : State) : Prop :=
  t = { s with
        tv := t.tv
        divider := t.divider
        symId := t.symId
        slotFreqs := t.slotFreqs
        slotAdjust := t.slotAdjust
        aliasRemap := t.aliasRemap
        cc := t.cc
        fault := t.fault
        fcmd := t.fcmd }

theorem CountFrame.refl (s : State) : CountFrame s s := rfl
theorem ModelFrame.refl (s : State) : ModelFrame s s := rfl
theorem LoadFrame.refl (s : State) : LoadFrame s s := rfl
theorem TableFrame.refl (s : State) : TableFrame s s := rfl

theorem ModelFrame.of_fnormBody (s : State) : ModelFrame s (fnormBody s).state := by
  simp only [fnormBody]
  generalize prefixSums s.freq 256 s.cum = sums
  generalize repairBelow s.freq 256 _ = repaired
  split
  · exact rfl
  · split
    · exact rfl
    · exact rfl

theorem LoadFrame.loadFreq_keeps {s t : State} (i : Nat) (h : LoadFrame s t) : LoadFrame s (loadFreq i t).state :=
  Res.bind_keeps (P := LoadFrame s)
    (pullBytes_keeps (P := LoadFrame s) (fun _ v h => congrArg (State.setRp · v) h) 2 h)
    fun u v h => congrArg (State.setFreq · (u.freq.set i (BitVec.ofNat 32 v))) h

theorem LoadFrame.checkLoaded_keeps {s t : State} (h : LoadFrame s t) : LoadFrame s (checkLoaded t).state := by
  obtain ⟨cum, hcum⟩ : ∃ cum, cum = prefixSums t.freq 256 t.cum := ⟨_, rfl⟩
  have hset : ∀ ms tv, LoadFrame s ((t.setCum cum).setFlags ms tv) := fun ms tv =>
    congrArg (fun u => (State.setCum u cum).setFlags ms tv) h
  rw [checkLoaded_eq hcum]
  split
  · exact hset _ _
  · split
    · exact hset _ _
    · exact hset _ _

theorem LoadFrame.of_fldBody (s : State) : LoadFrame s (fldBody s).state :=
  Res.bind_keeps (P := LoadFrame s) (forUp_keeps 256 (fun i _ _ h => LoadFrame.loadFreq_keeps i h) (.refl s))
    fun _ _ h => LoadFrame.checkLoaded_keeps h

theorem TableFrame.of_abldBody (s : State) : TableFrame s (abldBody s).state := by
  unfold abldBody
  split
  · exact rfl
  · obtain ⟨v, hv⟩ : ∃ v, v = sweep s.p.height s.freq := ⟨_, rfl⟩
    obtain ⟨z, hz⟩ : ∃ z, z = slotsBelow 256 s v := ⟨_, rfl⟩
    rw [buildTable_eq hv hz]
    split
    · exact rfl
    · exact rfl

/-- Settles O60: each body's frame, and CC and the fault registers at the end of the command. -/
theorem modelCommandFrame : Obligations.ModelCommandFrame := by
  refine fun s t => ⟨fun i hi h => ?_, fun h => ?_, fun h => ?_, fun h => ?_⟩
  · have hnot : i ≠ .srst := by rcases hi with ⟨b, rfl⟩ | rfl <;> nofun
    have hbody : CountFrame s (commandBody i s).state := by
      rcases hi with ⟨b, rfl⟩ | rfl
      · exact rfl
      · exact rfl
    exact exec_keeps_of_body (P := CountFrame s) (fun _ h => congrArg State.bumpCc h)
      (fun _ f word h => congrArg (State.latch · f word) h) hnot (.refl s) hbody h
  · exact exec_keeps_of_body (P := ModelFrame s) (fun _ h => congrArg State.bumpCc h)
      (fun _ f word h => congrArg (State.latch · f word) h) (i := .fnorm) nofun (.refl s) (ModelFrame.of_fnormBody s) h
  · exact exec_keeps_of_body (P := LoadFrame s) (fun _ h => congrArg State.bumpCc h)
      (fun _ f word h => congrArg (State.latch · f word) h) (i := .fld) nofun (.refl s) (LoadFrame.of_fldBody s) h
  · exact exec_keeps_of_body (P := TableFrame s) (fun _ h => congrArg State.bumpCc h)
      (fun _ f word h => congrArg (State.latch · f word) h) (i := .abld) nofun (.refl s) (TableFrame.of_abldBody s) h

end Sys2Proof.Machine
end

/-! ### FNORM: the donor and the transfer of one unit -/

section
namespace Sys2Proof.Machine

/-! #### The donor -/

/-- `best` is the donor among the gaps below `n`, with its gap; there is none when no gap is above 1. -/
def DonorAmong (c : CumTable) (n : Nat) (best : Option (Nat × Nat)) : Prop :=
  match best with
  | none => ∀ i, i < n → ¬ 1 < c.gap i
  | some (j, f) =>
    j < n ∧ f = c.gap j ∧ 1 < f ∧ ∀ i, i < n → 1 < c.gap i → f ≤ c.gap i ∧ (c.gap i = f → j ≤ i)

theorem donorBelow_among (c : CumTable) (n : Nat) : DonorAmong c n (donorBelow c n) := by
  refine countUp_induct (P := DonorAmong c) n (fun i hi => absurd hi (Nat.not_lt_zero i)) fun k _ best h => ?_
  rcases best with _ | ⟨j, f⟩
  · dsimp only
    split
    next hgap =>
      refine ⟨Nat.lt_succ_self k, rfl, hgap, fun i hi hi1 => ?_⟩
      rcases Nat.lt_succ_iff_lt_or_eq.mp hi with hik | rfl
      · exact absurd hi1 (h i hik)
      · exact ⟨Nat.le_refl _, fun _ => Nat.le_refl _⟩
    next hgap =>
      intro i hi
      rcases Nat.lt_succ_iff_lt_or_eq.mp hi with hik | rfl
      · exact h i hik
      · exact hgap
  · obtain ⟨hj, hf, hf1, hleast⟩ := h
    dsimp only
    split
    next hless =>
      refine ⟨Nat.lt_succ_self k, rfl, hless.1, fun i hi hi1 => ?_⟩
      rcases Nat.lt_succ_iff_lt_or_eq.mp hi with hik | rfl
      · have := (hleast i hik hi1).1
        omega
      · exact ⟨Nat.le_refl _, fun _ => Nat.le_refl _⟩
    next hnot =>
      refine ⟨hj.trans (Nat.lt_succ_self k), hf, hf1, fun i hi hi1 => ?_⟩
      rcases Nat.lt_succ_iff_lt_or_eq.mp hi with hik | rfl
      · exact hleast i hik hi1
      · omega

theorem gap_le_of_donorBelow_eq_none {c : CumTable} {n : Nat} (h : donorBelow c n = none) :
    ∀ i, i < n → c.gap i ≤ 1 := by
  have hscan := donorBelow_among c n
  rw [h] at hscan
  exact fun i hi => Nat.le_of_not_lt (hscan i hi)

/-- No two entries can both be the donor. -/
theorem donorBelow_eq_some_iff (c : CumTable) (n j f : Nat) :
    donorBelow c n = some (j, f) ↔
      j < n ∧ f = c.gap j ∧ 1 < f ∧ ∀ i, i < n → 1 < c.gap i → f ≤ c.gap i ∧ (c.gap i = f → j ≤ i) := by
  have hscan := donorBelow_among c n
  constructor
  · intro h
    rw [h] at hscan
    exact hscan
  · rintro ⟨hj, hf, hf1, hleast⟩
    rcases hbest : donorBelow c n with _ | ⟨j', f'⟩ <;> rw [hbest] at hscan
    · exact absurd (hf ▸ hf1) (hscan j hj)
    · obtain ⟨hj', hf', hf1', hleast'⟩ := hscan
      have h := hleast j' hj' (hf' ▸ hf1')
      have h' := hleast' j hj (hf ▸ hf1)
      obtain rfl : f' = f := by omega
      obtain rfl : j' = j := Nat.le_antisymm (h'.2 hf.symm) (h.2 hf'.symm)
      rfl

/-- Settles O29: the scan goes over all 256 gaps. -/
theorem donorIsLowestMinimum : Obligations.DonorIsLowestMinimum :=
  fun c j f => donorBelow_eq_some_iff c 256 j f

/-! #### The transfer -/

/-- The entries of `cum[]` never fall. -/
def CumTable.Sorted (c : CumTable) : Prop := ∀ i, i < 256 → (c.entry i).toNat ≤ (c.entry (i + 1)).toNat

theorem CumTable.Sorted.le {c : CumTable} (h : c.Sorted) {i j : Nat} (hij : i ≤ j) (hj : j ≤ 256) :
    (c.entry i).toNat ≤ (c.entry j).toNat := by
  induction j, hij using Nat.le_induction with
  | base => exact Nat.le_refl _
  | succ j _ ih => exact (ih (by omega)).trans (h j hj)

/-- Rewriting the `n` entries from `a` on, one after another, each from its old value. -/
theorem entry_rewriteRun (f : Word → Word) (a n : Nat) (c : CumTable) (hn : a + n ≤ 257) {i : Nat} (hi : i ≤ 256) :
    (countUp n (fun t c => c.put (a + t) (f (c.entry (a + t)))) c).entry i =
      if a ≤ i ∧ i < a + n then f (c.entry i) else c.entry i := by
  refine countUp_induct (P := fun n (d : CumTable) => ∀ i, i ≤ 256 →
    d.entry i = if a ≤ i ∧ i < a + n then f (c.entry i) else c.entry i) n (fun i _ => ?_)
    (fun k hk d ih i hi => ?_) i hi
  · rw [if_neg (by omega)]
  · rw [CumTable.entry_put d (a + k) i _ (by omega) hi]
    split
    next hik => rw [ih (a + k) (by omega), if_neg (by omega), if_pos (by omega), hik]
    next hik =>
      rw [ih i hi]
      exact if_congr (by omega) rfl rfl

theorem add_one_lt_of_gap {c : CumTable} {j : Nat} (h : 1 < c.gap j) :
    (c.entry j).toNat + 1 < (c.entry (j + 1)).toNat := by
  rw [CumTable.gap] at h
  omega

section
variable {c : CumTable} {j s : Nat} (hsorted : c.Sorted) (hdonor : 1 < c.gap j)
include hsorted hdonor

theorem two_le_entry_of_donor {i : Nat} (hji : j < i) (hi : i ≤ 256) : 2 ≤ (c.entry i).toNat := by
  have habove := add_one_lt_of_gap hdonor
  have hle := hsorted.le (show j + 1 ≤ i from hji) hi
  omega

variable (hj : j < 256) (hs : s < 256) (htotal : (c.entry 256).toNat ≤ 2 ^ 16)
include hj hs htotal

/-- Upward the entries after the donor up to the receiver's go down by one; downward those after the receiver up to
the donor's go up by one. -/
theorem transfer_entry {i : Nat} (hi : i ≤ 256) :
    ((transfer j s c).entry i).toNat =
      if j < i ∧ i ≤ s then (c.entry i).toNat - 1
      else if s < i ∧ i ≤ j then (c.entry i).toNat + 1
      else (c.entry i).toNat := by
  have hle := hsorted.le hi (Nat.le_refl 256)
  rw [transfer]
  split
  next hup =>
    rw [entry_rewriteRun (· - 1) (j + 1) (s - j) c (by omega) hi]
    by_cases hrun : j < i ∧ i ≤ s
    · have hpos : 1 ≤ (c.entry i).toNat := Nat.le_of_succ_le (two_le_entry_of_donor hsorted hdonor hrun.1 hi)
      rw [if_pos (by omega), if_pos hrun]
      exact BitVec.toNat_sub_of_le (BitVec.le_def.mpr hpos)
    · rw [if_neg (by omega), if_neg hrun, if_neg (by omega)]
  next hdown =>
    rw [entry_rewriteRun (· + 1) (s + 1) (j - s) c (by omega) hi]
    by_cases hrun : s < i ∧ i ≤ j
    · rw [if_pos (by omega), if_neg (by omega), if_pos hrun]
      exact (BitVec.toNat_add _ _).trans (Nat.mod_eq_of_lt (show (c.entry i).toNat + 1 < 2 ^ 32 by omega))
    · rw [if_neg (by omega), if_neg (by omega), if_neg hrun]

theorem transfer_gap (hne : j ≠ s) {i : Nat} (hi : i < 256) :
    (transfer j s c).gap i = if i = j then c.gap i - 1 else if i = s then c.gap i + 1 else c.gap i := by
  have hstep := hsorted i hi
  have habove : j < i → 2 ≤ (c.entry i).toNat := fun h => two_le_entry_of_donor hsorted hdonor h hi.le
  have hgap : i = j → (c.entry i).toNat + 1 < (c.entry (i + 1)).toNat := fun h => by
    rw [h]
    exact add_one_lt_of_gap hdonor
  simp only [CumTable.gap, transfer_entry hsorted hdonor hj hs htotal hi.le,
    transfer_entry hsorted hdonor hj hs htotal (show i + 1 ≤ 256 from hi)]
  split_ifs <;> omega

theorem transfer_sorted : (transfer j s c).Sorted := by
  intro i hi
  have hstep := hsorted i hi
  have hgap : i = j → (c.entry i).toNat + 1 < (c.entry (i + 1)).toNat := fun h => by
    rw [h]
    exact add_one_lt_of_gap hdonor
  rw [transfer_entry hsorted hdonor hj hs htotal hi.le,
    transfer_entry hsorted hdonor hj hs htotal (show i + 1 ≤ 256 from hi)]
  split_ifs <;> omega

end

/-- Settles O30: the entries between the two symbols move by one, so no gap changes but theirs. -/
theorem transferMovesOneUnit : Obligations.TransferMovesOneUnit :=
  fun _ _ _ hj hs hne hsorted htotal hdonor _ hi => transfer_gap hsorted hdonor hj hs htotal hne hi

end Sys2Proof.Machine
end

/-! ### FNORM on counts with a nonzero total -/

section
namespace Sys2Proof.Machine

/-! #### The repair: what every turn keeps -/

/-- What holds of `cum[]` once the symbols below `n` have been looked at (40_frequency_model.md R93, step 3): it runs
from 0 to `mass`, no symbol without a count has a gap, and none of those looked at with a count has an empty one. -/
structure RepairOk (mass : Nat) (counts : Table Word 8) (n : Nat) (c : CumTable) : Prop where
  first : c.entry 0 = 0
  total : (c.entry 256).toNat = mass
  sorted : c.Sorted
  uncounted : ∀ i, i < 256 → counts.get i = 0 → c.gap i = 0
  counted : ∀ i, i < n → counts.get i ≠ 0 → c.gap i ≠ 0

theorem CumTable.Sorted.gap_eq_zero_iff {c : CumTable} (h : c.Sorted) {i : Nat} (hi : i < 256) :
    c.gap i = 0 ↔ c.entry (i + 1) = c.entry i := by
  have hstep := h i hi
  rw [CumTable.gap, ← BitVec.toNat_inj]
  omega

theorem CumTable.Sorted.entry_eq_sum {c : CumTable} (h : c.Sorted) (hfirst : c.entry 0 = 0) {n : Nat} (hn : n ≤ 256) :
    (c.entry n).toNat = ∑ i ∈ Finset.range n, c.gap i := by
  induction n with
  | zero => simp [hfirst]
  | succ n ih =>
    have hstep := h n hn
    rw [Finset.sum_range_succ, ← ih (by omega), CumTable.gap]
    omega

section
variable {mass n : Nat} {counts : Table Word 8} {c : CumTable} (ok : RepairOk mass counts n c) (hn : n < 256)
  (hmass : 256 ≤ mass ∧ mass ≤ 2 ^ 16)
include ok hn hmass

/-- With one gap empty, 256 gaps of at most 1 do not add up to the mass, so the `assert` on the donor holds. -/
theorem RepairOk.exists_donor (hempty : c.gap n = 0) : ∃ j, DonorOf c.gap j ∧ donorBelow c 256 = some (j, c.gap j) := by
  rcases hbest : donorBelow c 256 with _ | ⟨j, f⟩
  · have hfew : ∑ i ∈ Finset.range 256, c.gap i < ∑ _i ∈ Finset.range 256, 1 :=
      Finset.sum_lt_sum (fun i hi => gap_le_of_donorBelow_eq_none hbest i (Finset.mem_range.mp hi))
        ⟨n, Finset.mem_range.mpr hn, by omega⟩
    rw [← ok.sorted.entry_eq_sum ok.first (Nat.le_refl 256), ok.total, Finset.sum_const, Finset.card_range, smul_eq_mul]
      at hfew
    omega
  · obtain ⟨hj, rfl, hf1, hleast⟩ := (donorBelow_eq_some_iff c 256 j f).mp hbest
    exact ⟨j, ⟨hj, hf1, hleast⟩, rfl⟩

/-- Looking at one symbol: a unit from the donor where a count has an empty gap, and no failed `assert`. -/
theorem RepairOk.repairSymbol_cases :
    ((counts.get n ≠ 0 ∧ c.gap n = 0) ∧ ∃ j, DonorOf c.gap j ∧
      repairSymbol counts n (c, true) = (transfer j n c, true)) ∨
      (¬ (counts.get n ≠ 0 ∧ c.gap n = 0) ∧ repairSymbol counts n (c, true) = (c, true)) := by
  have hcond : (true && decide (counts.get n ≠ 0) && decide (c.entry (n + 1) = c.entry n)) = true ↔
      counts.get n ≠ 0 ∧ c.gap n = 0 := by
    rw [Bool.true_and, Bool.and_eq_true, decide_eq_true_eq, decide_eq_true_eq, ok.sorted.gap_eq_zero_iff hn]
  by_cases hneeds : counts.get n ≠ 0 ∧ c.gap n = 0
  · obtain ⟨j, hj, hscan⟩ := ok.exists_donor hn hmass hneeds.2
    refine .inl ⟨hneeds, j, hj, ?_⟩
    simp only [repairSymbol, if_pos (hcond.mpr hneeds), hscan]
  · exact .inr ⟨hneeds, if_neg fun h => hneeds (hcond.mp h)⟩

theorem RepairOk.donated_gap {j : Nat} (hj : DonorOf c.gap j) (hempty : c.gap n = 0) {i : Nat} (hi : i < 256) :
    (transfer j n c).gap i = if i = j then c.gap i - 1 else if i = n then 1 else c.gap i := by
  obtain ⟨hj256, hj1, -⟩ := hj
  have hne : j ≠ n := by
    rintro rfl
    omega
  rw [transfer_gap ok.sorted hj1 hj256 hn (ok.total.trans_le hmass.2) hne hi]
  split_ifs with _ hin
  · rfl
  · rw [hin, hempty]
  · rfl

/-- A transfer to a counted symbol: the donor keeps a unit, no end of `cum[]` moves. -/
theorem RepairOk.transfer_ok {j : Nat} (hj : DonorOf c.gap j) (hcount : counts.get n ≠ 0) (hempty : c.gap n = 0) :
    RepairOk mass counts (n + 1) (transfer j n c) := by
  have hgap := fun i (hi : i < 256) => ok.donated_gap hn hmass hj hempty hi
  obtain ⟨hj256, hj1, -⟩ := hj
  have htotal := ok.total.trans_le hmass.2
  have hentry := fun i (hi : i ≤ 256) => transfer_entry ok.sorted hj1 hj256 hn htotal hi
  refine ⟨?_, ?_, transfer_sorted ok.sorted hj1 hj256 hn htotal, fun i hi hzero => ?_, fun i hi hcount' => ?_⟩
  · refine BitVec.eq_of_toNat_eq ((hentry 0 (Nat.zero_le _)).trans ?_)
    rw [if_neg (by omega), if_neg (by omega), ok.first]
  · rw [hentry 256 (Nat.le_refl _), if_neg (by omega), if_neg (by omega), ok.total]
  · have hold := ok.uncounted i hi hzero
    have hnej : i ≠ j := by
      rintro rfl
      omega
    have hnen : i ≠ n := by
      rintro rfl
      exact hcount hzero
    rw [hgap i hi, if_neg hnej, if_neg hnen, hold]
  · rw [hgap i (by omega)]
    split
    next hij =>
      rw [hij]
      omega
    next =>
      split
      · exact Nat.one_ne_zero
      · exact ok.counted i (by omega) hcount'

/-- One turn, whatever it does. -/
theorem RepairOk.step :
    ∃ c', repairSymbol counts n (c, true) = (c', true) ∧ RepairOk mass counts (n + 1) c' ∧
      RepairTurn counts n c.gap c'.gap := by
  rcases ok.repairSymbol_cases hn hmass with ⟨hneeds, j, hj, hstep⟩ | ⟨hneeds, hstep⟩
  · refine ⟨_, hstep, ok.transfer_ok hn hmass hj hneeds.1 hneeds.2, ?_⟩
    rw [RepairTurn, if_pos hneeds]
    exact ⟨j, hj, fun i hi => ok.donated_gap hn hmass hj hneeds.2 hi⟩
  · refine ⟨c, hstep, { ok with counted := fun i hi hcount => ?_ }, ?_⟩
    · rcases Nat.lt_succ_iff_lt_or_eq.mp hi with hin | rfl
      · exact ok.counted i hin hcount
      · exact fun hempty => hneeds ⟨hcount, hempty⟩
    · rw [RepairTurn, if_neg hneeds]
      exact fun _ _ => rfl

end

/-! #### The repair of a whole table -/

theorem repairBelow_succ {counts : Table Word 8} {n : Nat} {c : CumTable} (h : (repairBelow counts n c).2 = true) :
    repairBelow counts (n + 1) c = repairSymbol counts n ((repairBelow counts n c).1, true) := by
  have hpair : repairBelow counts n c = ((repairBelow counts n c).1, true) := Prod.ext rfl h
  exact (countUp_succ n (repairSymbol counts) (c, true)).trans (congrArg (repairSymbol counts n) hpair)

section
variable {mass : Nat} {counts : Table Word 8} {c : CumTable} (ok : RepairOk mass counts 0 c)
  (hmass : 256 ≤ mass ∧ mass ≤ 2 ^ 16)
include ok hmass

theorem RepairOk.repairBelow_ok {n : Nat} (hn : n ≤ 256) :
    (repairBelow counts n c).2 = true ∧ RepairOk mass counts n (repairBelow counts n c).1 := by
  induction n with
  | zero => exact ⟨rfl, ok⟩
  | succ n ih =>
    obtain ⟨hflag, hok⟩ := ih (by omega)
    obtain ⟨c', hstep, hok', -⟩ := hok.step hn hmass
    rw [repairBelow_succ hflag, hstep]
    exact ⟨rfl, hok'⟩

theorem RepairOk.repairTurn {n : Nat} (hn : n < 256) :
    RepairTurn counts n (repairBelow counts n c).1.gap (repairBelow counts (n + 1) c).1.gap := by
  obtain ⟨hflag, hok⟩ := ok.repairBelow_ok hmass hn.le
  obtain ⟨c', hstep, -, hturn⟩ := hok.step hn hmass
  rw [repairBelow_succ hflag, hstep]
  exact hturn

/-- Where every counted symbol has a gap no turn changes anything. -/
theorem RepairOk.repairBelow_of_no_empty (hgap : ∀ i, i < 256 → counts.get i ≠ 0 → c.gap i ≠ 0) {n : Nat}
    (hn : n ≤ 256) : repairBelow counts n c = (c, true) := by
  induction n with
  | zero => rfl
  | succ n ih =>
    obtain ⟨hflag, hok⟩ := ok.repairBelow_ok hmass (n := n) (by omega)
    rw [ih (by omega)] at hok
    rw [repairBelow_succ hflag, ih (by omega)]
    rcases hok.repairSymbol_cases hn hmass with ⟨hneeds, -⟩ | ⟨-, hstep⟩
    · exact absurd hneeds.2 (hgap n hn hneeds.1)
    · exact hstep

end

theorem gaps_get {c : CumTable} (h : c.Sorted) {i : Nat} (hi : i < 256) : ((gaps c).get i).toNat = c.gap i := by
  rw [gaps, Table.get_tabulate 8 _ i hi, BitVec.toNat_sub_of_le (BitVec.le_def.mpr (h i hi)), CumTable.gap]

/-- Step 4's assertions hold once every symbol has been looked at (40_frequency_model.md R94). -/
theorem RepairOk.normalized_eq_true {mass : Nat} {counts : Table Word 8} {c : CumTable}
    (ok : RepairOk mass counts 256 c) :
    normalized mass counts c = true := by
  simp only [normalized, Bool.and_eq_true, decide_eq_true_eq, allBelow_iff, beq_iff_eq, decide_eq_decide]
  refine ⟨⟨ok.first, ok.total⟩, fun i hi => ⟨ok.sorted i hi, ?_⟩⟩
  rw [← ok.sorted.gap_eq_zero_iff hi]
  exact ⟨ok.uncounted i hi, fun hempty => not_not.mp fun hcount => ok.counted i hi hcount hempty⟩

/-! #### The rescale -/

/-- `cum[]` after steps 1 and 2 (40_frequency_model.md R93). -/
def State.rescaled (s : State) : CumTable :=
  rescale s.p.mass ((prefixSums s.freq 256 s.cum).entry 256).toNat (prefixSums s.freq 256 s.cum)

/-- `cum[]` after the rescale and the turns of step 3 for the symbols below `n`. -/
def State.repaired (s : State) (n : Nat) : CumTable := (repairBelow s.freq n s.rescaled).1

theorem repaired_zero (s : State) : s.repaired 0 = s.rescaled := by
  rw [State.repaired, repairBelow, countUp]

theorem Scale.mass_range (p : Scale) : 256 ≤ p.mass ∧ p.mass ≤ 2 ^ 16 :=
  ⟨Nat.pow_le_pow_right Nat.two_pos p.exponent_range.1, p.mass_le⟩

theorem rescale_entry (mass total : Nat) (c : CumTable) {i : Nat} (hi : i ≤ 256) :
    (rescale mass total c).entry i =
      if 1 ≤ i then BitVec.ofNat 32 (mass * (c.entry i).toNat / total) else c.entry i := by
  have hrun := entry_rewriteRun (fun w => BitVec.ofNat 32 (mass * w.toNat / total)) 1 256 c (by omega) hi
  simp only [Nat.add_comm 1] at hrun
  exact hrun.trans (if_congr (by omega) rfl rfl)

section
variable {s : State} (hbound : ∀ i, i < 256 → (s.freq.get i).toNat < 2 ^ 24)
include hbound

/-- The running sums of counts below `2^24` are exact. -/
theorem sums_entry {i : Nat} (hi : i ≤ 256) : ((prefixSums s.freq 256 s.cum).entry i).toNat = s.freqSum i := by
  have hle := freqSum_le s (n := i) (bound := 2 ^ 24 - 1) fun k hk => Nat.le_sub_one_of_lt (hbound k (by omega))
  rw [prefixSums_entry s s.cum (Nat.le_refl 256) i hi, BitVec.toNat_ofNat, Nat.mod_eq_of_lt (by omega)]

theorem rescaled_entry {i : Nat} (hi : i ≤ 256) :
    (s.rescaled.entry i).toNat = s.p.mass * s.freqSum i / s.freqSum 256 := by
  have hle : s.p.mass * s.freqSum i / s.freqSum 256 ≤ s.p.mass :=
    Nat.div_le_of_le_mul (Nat.mul_comm _ (s.freqSum i) ▸ Nat.mul_le_mul_right _ (freqSum_mono s hi))
  have hmass := s.p.mass_range.2
  rw [State.rescaled, rescale_entry _ _ _ hi, sums_entry hbound hi, sums_entry hbound (Nat.le_refl 256)]
  split
  · rw [BitVec.toNat_ofNat, Nat.mod_eq_of_lt (by omega)]
  · rw [sums_entry hbound hi, show i = 0 by omega]
    exact (Nat.zero_div _).symm

theorem rescaled_gap {i : Nat} (hi : i < 256) :
    s.rescaled.gap i =
      s.p.mass * s.freqSum (i + 1) / s.freqSum 256 - s.p.mass * s.freqSum i / s.freqSum 256 := by
  rw [CumTable.gap, rescaled_entry hbound hi.le, rescaled_entry hbound hi]

variable (hpos : 0 < s.freqSum 256)
include hpos

theorem rescaled_ok : RepairOk s.p.mass s.freq 0 s.rescaled where
  first := BitVec.eq_of_toNat_eq ((rescaled_entry hbound (Nat.zero_le _)).trans (Nat.zero_div _))
  total := (rescaled_entry hbound (Nat.le_refl _)).trans (Nat.mul_div_cancel _ hpos)
  sorted i hi := by
    rw [rescaled_entry hbound hi.le, rescaled_entry hbound hi]
    exact Nat.div_le_div_right (Nat.mul_le_mul_left _ (freqSum_mono s (Nat.le_succ i)))
  uncounted i hi hzero := by
    have hsame : s.freqSum (i + 1) = s.freqSum i := by rw [State.freqSum, hzero]; rfl
    rw [rescaled_gap hbound hi, hsame, Nat.sub_self]
  counted i hi := absurd hi (Nat.not_lt_zero i)

theorem repaired_ok : RepairOk s.p.mass s.freq 256 (s.repaired 256) :=
  ((rescaled_ok hbound hpos).repairBelow_ok s.p.mass_range (Nat.le_refl 256)).2

theorem repaired_turn {n : Nat} (hn : n < 256) : RepairTurn s.freq n (s.repaired n).gap (s.repaired (n + 1)).gap :=
  (rescaled_ok hbound hpos).repairTurn s.p.mass_range hn

/-- Where every counted symbol has a gap after the rescale no repair is made. -/
theorem repaired_eq_rescaled (hgap : ∀ i, i < 256 → s.freq.get i ≠ 0 → s.rescaled.gap i ≠ 0) {n : Nat}
    (hn : n ≤ 256) : s.repaired n = s.rescaled := by
  rw [State.repaired, (rescaled_ok hbound hpos).repairBelow_of_no_empty s.p.mass_range hgap hn]

end

/-! #### The command -/

/-- FNORM with its three tables named. -/
theorem fnormBody_eq {s : State} {sums : CumTable} {repaired : CumTable × Bool}
    (hsums : sums = prefixSums s.freq 256 s.cum)
    (hrepaired : repaired = repairBelow s.freq 256 (rescale s.p.mass (sums.entry 256).toNat sums)) :
    fnormBody s =
      if sums.entry 256 = 0 then .ok ((s.setCum .zero).setFlags .empty false) ()
      else if repaired.2 && normalized s.p.mass s.freq repaired.1 then
        .ok (((s.setCum repaired.1).setFreq (gaps repaired.1)).setFlags .valid false) ()
      else .raised (s.setCum repaired.1) .invariantViolation := by
  simp only [fnormBody, ← hsums, ← hrepaired]

/-- `s` after FNORM has made `c` its `cum[]`. -/
def State.normalizedBy (s : State) (c : CumTable) : State :=
  { s with freq := gaps c, cum := c, ms := .valid, tv := false, cc := s.cc + 1 }

section
variable {s : State} {c : CumTable} (hbound : ∀ i, i < 256 → (s.freq.get i).toNat < 2 ^ 24)
  (hpos : 0 < s.freqSum 256) (hc : c = s.repaired 256)
include hbound hpos hc

theorem fnormBody_completes : fnormBody s = .ok (((s.setCum c).setFreq (gaps c)).setFlags .valid false) () := by
  obtain ⟨sums, hsums⟩ : ∃ sums, sums = prefixSums s.freq 256 s.cum := ⟨_, rfl⟩
  have htotal : sums.entry 256 ≠ 0 := fun hzero => by
    have := freqSum_eq_zero_of_stored_total hbound (hsums ▸ hzero)
    omega
  have hflag := ((rescaled_ok hbound hpos).repairBelow_ok s.p.mass_range (Nat.le_refl 256)).1
  have hrepaired : (c, true) = repairBelow s.freq 256 (rescale s.p.mass (sums.entry 256).toNat sums) := by
    rw [hsums]
    exact Prod.ext hc hflag.symm
  have hok : RepairOk s.p.mass s.freq 256 c := hc ▸ repaired_ok hbound hpos
  rw [fnormBody_eq hsums hrepaired, if_neg htotal, hok.normalized_eq_true, Bool.and_self, if_pos rfl]

theorem exec_fnorm (hf : s.fault = none) (hraw : s.ms = .raw) : exec .fnorm s = .next (s.normalizedBy c) :=
  exec_completed (i := .fnorm) nofun hf hraw (fnormBody_completes hbound hpos hc)

theorem modelOk_normalizedBy : ModelOk (s.normalizedBy c) :=
  modelOk_of_normalized (s := s.normalizedBy c) (hc ▸ repaired_ok hbound hpos).normalized_eq_true rfl

theorem normalizedBy_freq {i : Nat} (hi : i < 256) : ((s.normalizedBy c).freq.get i).toNat = c.gap i :=
  gaps_get (hc ▸ repaired_ok hbound hpos).sorted hi

end

/-- Settles O27: the repair leaves a gap where there is a count, and nowhere else. -/
theorem fnormGuarantee : Obligations.FnormGuarantee := by
  intro s hf hraw hbound ⟨k, hk, hcount⟩
  have hpos : 0 < s.freqSum 256 := by
    have hle := freq_le_freqSum s hk
    have hne : (s.freq.get k).toNat ≠ 0 := fun h => hcount (BitVec.eq_of_toNat_eq h)
    omega
  obtain ⟨c, hc⟩ : ∃ c, c = s.repaired 256 := ⟨_, rfl⟩
  have hok : RepairOk s.p.mass s.freq 256 c := hc ▸ repaired_ok hbound hpos
  refine ⟨_, exec_fnorm hbound hpos hc hf hraw, modelOk_normalizedBy hbound hpos hc, fun i hi => ?_, rfl⟩
  rw [← BitVec.toNat_inj, normalizedBy_freq hbound hpos hc hi]
  exact ⟨fun hempty => not_not.mp fun hcount => hok.counted i hi hcount hempty, hok.uncounted i hi⟩

/-- Settles O28: the gaps of `cum[]` before and after each turn; without an empty gap of a counted symbol, those of the
rescale. -/
theorem fnormRescales : Obligations.FnormRescales := by
  intro s hf hraw hbound hpos
  obtain ⟨c, hc⟩ : ∃ c, c = s.repaired 256 := ⟨_, rfl⟩
  have hexec := exec_fnorm hbound hpos hc hf hraw
  have hfreq := fun i (hi : i < 256) => normalizedBy_freq hbound hpos hc hi
  refine ⟨⟨_, fun n => (s.repaired n).gap, hexec, rfl, fun i hi => ?_,
    fun n hn => repaired_turn hbound hpos hn, fun i hi => (hfreq i hi).trans (congrFun (congrArg CumTable.gap hc) i),
    fun i hi => (modelOk_normalizedBy hbound hpos hc).cum_eq_freqSum hi⟩, fun hgap => ?_⟩
  · exact (congrFun (congrArg CumTable.gap (repaired_zero s)) i).trans (rescaled_gap hbound hi)
  have hsame : c = s.rescaled := hc.trans (repaired_eq_rescaled hbound hpos (fun i hi hcount => by
    rw [rescaled_gap hbound hi]
    exact (Nat.sub_pos_of_lt (hgap i hi hcount)).ne') (Nat.le_refl 256))
  refine ⟨_, hexec, rfl, rfl, fun i hi => ?_, fun i hi => ?_⟩
  · exact (congrArg (fun d : CumTable => (d.entry i).toNat) hsame).trans (rescaled_entry hbound hi)
  · exact (hfreq i hi).trans ((congrFun (congrArg CumTable.gap hsame) i).trans (rescaled_gap hbound hi))

end Sys2Proof.Machine
end

/-! ### ABLD: the order of the code points, and the entries it does not write -/

section
namespace Sys2Proof.Machine

/-! #### The code points of a symbol rise with their offsets -/

theorem Sweep.given_le_offsetAt {height : Nat} {v : Sweep} {y : Nat} :
    v.given height (y / height) (v.symAt height y) ≤ v.offsetAt height y := by
  unfold Sweep.symAt Sweep.offsetAt
  split
  · exact Nat.le_add_right _ _
  · exact Nat.le_add_right _ _

section
variable {height : Nat} {freq : Table Word 8} {v : Sweep} (ok : SweepOk height freq v)
include ok

/-- A bucket's donor part is empty, or another symbol's than its own. -/
theorem SweepOk.owned_iff_symAt {y : Nat} (hh : 0 < height) (hy : y / height < 256) :
    y % height < v.kept (y / height) ↔ v.symAt height y = y / height := by
  have hlt := Nat.mod_lt y hh
  unfold Sweep.symAt
  split
  next hown => exact iff_of_true hown rfl
  next hdonor => exact iff_of_false hdonor (ok.finished _ hy (by omega)).2.1

/-- The buckets give out a symbol's offsets in ascending order of the code points (41_alias_table.md R103, R105). -/
theorem SweepOk.offsetAt_lt {y y' : Nat} (hh : 0 < height) (hlt : y < y') (hy' : y' / height < 256)
    (hsym : v.symAt height y = v.symAt height y') : v.offsetAt height y < v.offsetAt height y' := by
  rcases (Nat.div_le_div_right (c := height) hlt.le).lt_or_eq with hbucket | hbucket
  · calc v.offsetAt height y
        < v.given height (y' / height) (v.symAt height y) := v.offsetAt_lt_given hh hbucket
      _ = v.given height (y' / height) (v.symAt height y') := by rw [hsym]
      _ ≤ v.offsetAt height y' := Sweep.given_le_offsetAt
  · have hmod : y % height < y' % height := by
      have hy := Nat.div_add_mod y height
      have hy' := Nat.div_add_mod y' height
      rw [hbucket] at hy
      omega
    have hpart : y % height < v.kept (y' / height) ↔ y' % height < v.kept (y' / height) := by
      rw [ok.owned_iff_symAt hh hy', ← hsym, ← hbucket, ok.owned_iff_symAt hh (hbucket ▸ hy')]
    unfold Sweep.offsetAt
    rw [hbucket, if_congr hpart rfl rfl]
    split <;> omega

end

/-! #### ABLD -/

section
variable {s : State} {v : Sweep} (ok : SweepOk s.p.height s.freq v) (hm : ModelOk s)
  (hfull : ∀ i, i < 256 → v.remaining.get i = v.kept i)
include ok hm hfull

/-- The code point given out at an offset stands in `alias_remap` at the symbol's entry for it. -/
theorem exists_code_remap {sym d : Nat} (hs : sym < 256) (hd : d < (s.freq.get sym).toNat) :
    ∃ y, y / s.p.height < 256 ∧ v.symAt s.p.height y = sym ∧ v.offsetAt s.p.height y = d ∧
      ((slotsBelow 256 s v).aliasRemap.get ((s.cum.entry sym).toNat + d)).toNat = y := by
  rw [← ok.given_all hs (hfull sym hs)] at hd
  obtain ⟨y, hy, rfl, rfl⟩ := ok.exists_code (Nat.le_refl 256) hd
  exact ⟨y, Nat.div_lt_of_lt_mul (Nat.mul_comm _ _ ▸ hy), rfl, rfl,
    slotsBelow_remap ok hm hfull (Nat.le_refl 256) hy⟩

theorem slotsBelow_remap_ascends {sym d d' : Nat} (hs : sym < 256) (hlt : d < d')
    (hd' : d' < (s.freq.get sym).toNat) :
    ((slotsBelow 256 s v).aliasRemap.get ((s.cum.entry sym).toNat + d)).toNat <
      ((slotsBelow 256 s v).aliasRemap.get ((s.cum.entry sym).toNat + d')).toNat := by
  obtain ⟨y, hy, hsym, rfl, hcode⟩ := exists_code_remap ok hm hfull hs (hlt.trans hd')
  obtain ⟨y', -, hsym', rfl, hcode'⟩ := exists_code_remap ok hm hfull hs hd'
  rw [hcode, hcode']
  rcases Nat.lt_trichotomy y y' with h | rfl | h
  · exact h
  · exact absurd hlt (Nat.lt_irrefl _)
  · exact absurd (ok.offsetAt_lt s.p.height_range.1 h hy (hsym'.trans hsym.symm)) hlt.asymm

/-- What the buckets give out ends inside the symbol's interval, so below `M`. -/
theorem cum_add_given_le {n sym : Nat} (hn : n ≤ 256) (hs : sym < 256) :
    (s.cum.entry sym).toNat + v.given s.p.height n sym ≤ 2 ^ s.p.exponent := by
  have hgiven : v.given s.p.height n sym ≤ (s.freq.get sym).toNat :=
    ok.given_all hs (hfull sym hs) ▸ v.given_mono sym hn
  calc (s.cum.entry sym).toNat + v.given s.p.height n sym
      ≤ (s.cum.entry sym).toNat + (s.freq.get sym).toNat := Nat.add_le_add_left hgiven _
    _ = (s.cum.entry (sym + 1)).toNat := (hm.step sym hs).symm
    _ ≤ (s.cum.entry 256).toNat := hm.cum_mono hs (Nat.le_refl 256)
    _ = 2 ^ s.p.exponent := hm.total

theorem slotsBelow_remap_unwritten {n : Nat} (hn : n ≤ 256) {y : Nat} (hlo : 2 ^ s.p.exponent ≤ y) (hhi : y < 65536) :
    (slotsBelow n s v).aliasRemap.get y = s.aliasRemap.get y := by
  induction n with
  | zero => rfl
  | succ n ih =>
    have slots := slotsBelow_ok ok (Nat.le_of_succ_le hn)
    have hkept : ((slotsBelow n s v).divider.get n).toNat = v.kept n :=
      congrArg BitVec.toNat (slots.unsplit n (Nat.le_refl n) hn)
    have hown := cum_add_given_le ok hm hfull hn (show n < 256 from hn)
    have hdonor := cum_add_given_le ok hm hfull hn (v.donor_lt n)
    rw [Sweep.given_succ, if_pos rfl] at hown hdonor
    change (slotStep s.p.height s.freq s.cum v.symId n (slotsBelow n s v)).aliasRemap.get y = _
    simp only [slotStep, hkept, slots.assigned n hn, show (v.symId.get (2 * n)).toNat = v.donor n from rfl,
      slots.assigned _ (v.donor_lt n)]
    rw [get_putRun _ _ _ _ hhi, if_neg (by omega), get_putRun _ _ _ _ hhi, if_neg (by omega)]
    exact ih (by omega)

end

/-- Settles O35: the sweep of a normalized model fills every bucket, so the phases complete with a correct table; each
entry they write in `alias_remap` is the code point a bucket gave out, in ascending order, and none of these entries is
at or above `M`. -/
theorem abldBuildsTable : Obligations.AbldBuildsTable := by
  intro s hf hvalid hm
  obtain ⟨v, hv⟩ : ∃ v, v = sweep s.p.height s.freq := ⟨_, rfl⟩
  obtain ⟨z, hz⟩ : ∃ z, z = slotsBelow 256 s v := ⟨_, rfl⟩
  have ok := sweep_height_ok hv
  have hfull := hm.sweep_full hv
  have htable := hm.table_ok hv hz
  have hbody : commandBody .abld s = .ok ((s.withSlots v z).setFlags s.ms true) () :=
    (abldBody_of_valid hvalid).trans (hm.buildTable_completes hv hz)
  refine ⟨_, exec_completed (i := .abld) nofun hf (.inl hvalid) hbody, { htable with }, rfl,
    fun sym hs d d' hlt hd' => ?_, fun y hlo hhi => ?_⟩
  · change (z.aliasRemap.get _).toNat < (z.aliasRemap.get _).toNat
    rw [hz]
    exact slotsBelow_remap_ascends ok hm hfull hs hlt hd'
  · change z.aliasRemap.get y = s.aliasRemap.get y
    rw [hz]
    exact slotsBelow_remap_unwritten ok hm hfull (Nat.le_refl 256) hlo hhi

end Sys2Proof.Machine
end

/-! ### The coder commands: EINIT, EPUT, EFLUSH -/

section
namespace Sys2Proof.Machine

/-- Settles O37: EINIT's body is its one write, under the check of `j`. -/
theorem einitWritesLowerBound : Obligations.EinitWritesLowerBound := by
  intro s j hf
  refine ⟨?_, fun hj => exec_completed (i := .einit j) nofun hf hj rfl,
    fun hj => inadmissibleCommandRaises (.einit j) s hf hj⟩
  revert j
  decide

/-! #### EPUT -/

theorem emitted_lt_two_pow (x : Word) (n : Nat) : x.toNat / 256 ^ n < 2 ^ 32 := (Nat.div_le_self _ _).trans_lt x.isLt

/-- EPUT's last statement where `alias_remap` has the entry it reads, whatever the model (42_coder_state.md R111). -/
theorem putSymbol_setR_of_entry {s : State} (j : Nat) {sym y : Nat} (hy : y < 2 ^ 32)
    (hentry : y % (s.freq.get sym).toNat + (s.cum.entry sym).toNat < 65536) :
    putSymbol j sym (s.setR j (BitVec.ofNat 32 y)) = s.setR j
      (BitVec.ofNat 32 (y / (s.freq.get sym).toNat * 2 ^ s.p.exponent +
        (s.aliasRemap.get (y % (s.freq.get sym).toNat + (s.cum.entry sym).toNat)).toNat)) := by
  have hr : ((s.setR j (BitVec.ofNat 32 y)).r.get j).toNat = y := by
    rw [State.setR_r, Table.get_set_self, BitVec.toNat_ofNat, Nat.mod_eq_of_lt hy]
  simp only [putSymbol, hr, State.remap, State.setR_freq, State.setR_cum, State.setR_p, State.setR_aliasRemap,
    Nat.shiftLeft_eq, BitVec.ofNat_add, BitVec.ofNat_toNat, BitVec.setWidth_eq]
  rw [if_pos hentry]
  simp only [State.setR, Table.set_set]

/-- Settles O38: EPUT's loop sheds `emitCount` bytes, and the entry of `alias_remap` it reads is below `M`. -/
theorem eputEncodes : Obligations.EputEncodes := by
  intro s j sym hf hj htv hfreq hmass hc f x n y hw
  have hj4 : j.toNat < 4 := Nat.lt_of_lt_of_le hj s.k.count_le.2
  have hpos : 0 < f := Nat.pos_of_ne_zero fun h => hfreq (BitVec.eq_of_toNat_eq h)
  have hentry : y % f + (s.cum.entry sym.toNat).toNat < 65536 := by
    have hmod : y % f < f := Nat.mod_lt y hpos
    have hmassLe := s.p.mass_le
    omega
  obtain ⟨cells, hbody, hpushed⟩ := eputBody_ok hj4 hfreq rfl hw hc
  rw [putSymbol_setR_of_entry (s := s.sunk n cells) _ (emitted_lt_two_pow _ n) hentry] at hbody
  refine ⟨_, exec_completed (i := .eput j sym) nofun hf ⟨hj, htv⟩ hbody, rfl, fun m hm => ?_, hpushed.2⟩
  rw [← byteOf_toNat]
  exact congrArg BitVec.toNat (hpushed.1 m hm)

/-- The bytes EPUT sheds for a symbol that has a frequency: the first count at which the state is below `x_max`
(42_coder_state.md R111). -/
theorem emitCount_of_counted {s : State} {sym : Nat} (x : Word) (hf : s.freq.get sym ≠ 0) {limit : Nat}
    (hlimit : limit = 2 ^ (31 - s.p.exponent) * (s.freq.get sym).toNat) :
    emitCount limit x.toNat ≤ putBound ∧ (∀ i, i < emitCount limit x.toNat → limit ≤ x.toNat / 256 ^ i) ∧
      x.toNat / 256 ^ emitCount limit x.toNat < limit :=
  emitCount_spec limit x (hlimit ▸ Nat.mul_pos (Nat.two_pow_pos _)
    (Nat.pos_of_ne_zero fun h => hf (BitVec.eq_of_toNat_eq h)))

/-- EPUT with more bytes to shed than room: the room is used up, then Io (42_coder_state.md R111). -/
theorem eputBody_full {s : State} {j sym : Nat} (hj : j < 4) (hf : s.freq.get sym ≠ 0)
    (hw : s.wp.toNat < emitCount (2 ^ (31 - s.p.exponent) * (s.freq.get sym).toNat) (s.r.get j).toNat)
    (hc : s.wp.toNat ≤ s.strCap.toNat) :
    ∃ cells, eputBody j sym s =
        .raised ((s.sunk s.wp.toNat cells).setR j (BitVec.ofNat 32 ((s.r.get j).toNat / 256 ^ s.wp.toNat))) .io ∧
      Pushed s (s.sunk s.wp.toNat cells) s.wp.toNat fun i => byteOf (s.r.get j).toNat i := by
  obtain ⟨hfuel, hge, -⟩ := emitCount_of_counted (s.r.get j) hf rfl
  obtain ⟨cells, hloop, hpushed⟩ := putLoop_full hj s.wp.toNat putBound s hc rfl (hw.trans_le hfuel)
    fun i hi => hge i (hi.trans_lt hw)
  refine ⟨cells, ?_, hpushed⟩
  rw [eputBody, if_neg hf, putLimit_eq, hloop, Res.bind_raised]

/-- Settles O40: the sink is full before EPUT's loop ends; over the state with `r[j]` written it has been filled up. -/
theorem eputFullSinkRaises : Obligations.EputFullSinkRaises := by
  intro s j sym hf hj htv hfreq hc x hw
  obtain ⟨cells, hbody, hpushed⟩ := eputBody_full (Nat.lt_of_lt_of_le hj s.k.count_le.2) hfreq hw hc
  refine ⟨_, exec_raised (i := .eput j sym) nofun hf ⟨hj, htv⟩ hbody, ?_⟩
  have hfilled := Pushed.sinkFilled (s := s.setR j.toNat (BitVec.ofNat 32 (x / 256 ^ s.wp.toNat)))
    (n := s.wp.toNat) (encode (.eput j sym)) (Nat.le_refl _) (by rw [State.setR_wp, Nat.min_self]; exact hpushed)
  simp only [byteOf_toNat] at hfilled
  exact hfilled

/-! #### EFLUSH -/

/-- Settles O41: four bytes pushed, most significant first. -/
theorem eflushPushesState : Obligations.EflushPushesState := by
  intro s j hf hj hw hc
  obtain ⟨cells, hpush, hpushed⟩ := pushBytes_spec 4 (s.r.get j.toNat).toNat s hc
  rw [Nat.min_eq_left hw] at hpushed
  refine ⟨_, exec_completed (i := .eflush j) nofun hf hj (hpush.trans (if_pos hw)), rfl, ?_, hpushed.2⟩
  exact (hpushed.littleEndian hw).trans (Nat.mod_eq_of_lt (s.r.get j.toNat).isLt)

end Sys2Proof.Machine
end

/-! ### The coder commands: DINIT, DGET, DRENORM, and LLD on a short window -/

section
namespace Sys2Proof.Machine

/-- Settles O43: the window holds the four bytes. -/
theorem dinitReadsState : Obligations.DinitReadsState := by
  intro s j hf hj hrend hcap
  have hwin : 4 ≤ s.window := by
    rw [State.window]
    omega
  exact exec_completed (i := .dinit j) nofun hf hj (dinitBody_ok j.toNat hwin)

/-! #### A source that runs out -/

theorem pullBytes_short {n : Nat} {s : State} (h : s.window < n) :
    pullBytes n s = .raised (s.setRp (s.rp + BitVec.ofNat 64 s.window)) .truncatedInput :=
  (pullBytes_spec n s).trans (if_neg (Nat.not_le_of_lt h))

/-- DINIT on a window too short for four bytes (42_coder_state.md R113). -/
theorem dinitBody_short {s : State} (j : Nat) (h : s.window < 4) :
    dinitBody j s = .raised (s.setRp (s.rp + BitVec.ofNat 64 s.window)) .truncatedInput := by
  rw [dinitBody, pullBytes_short h, Res.bind_raised]

/-- LLD on a window too short for eight bytes (44_stream_and_container.md R136). -/
theorem lldBody_short {s : State} (h : s.window < 8) :
    lldBody s = .raised (s.setRp (s.rp + BitVec.ofNat 64 s.window)) .truncatedInput := by
  rw [lldBody, pullBytes_short h, Res.bind_raised]

/-- DRENORM when no byte of the window brings the state up to `L` (42_coder_state.md R115). -/
theorem drenormBody_short {s : State} {j : Nat} (hj : j < 4)
    (hlt : ∀ i, i ≤ s.window → s.shiftedIn (s.r.get j).toNat s.rp.toNat i < lowerBound) :
    drenormBody j s = .raised ((s.setRp (s.rp + BitVec.ofNat 64 s.window)).setR j
      (BitVec.ofNat 32 (s.shiftedIn (s.r.get j).toNat s.rp.toNat s.window))) .truncatedInput := by
  have hlast : s.shiftedIn (s.r.get j).toNat s.rp.toNat s.window < 2 ^ 23 := hlt s.window (Nat.le_refl _)
  have hend : ((s.setRp (s.rp + BitVec.ofNat 64 s.window)).setR j
      (BitVec.ofNat 32 (s.shiftedIn (s.r.get j).toNat s.rp.toNat s.window))).window = 0 :=
    (window_setRp (s := s) (Nat.le_refl _)).trans (Nat.sub_self _)
  rw [drenormBody, renormLoop_steps hj s.window 1 s (Nat.le_refl _) fun i hi => hlt i hi.le, renormLoop, if_pos]
  · rw [getByte_end hend, Res.bind_raised]
  · rw [State.setR_r, Table.get_set_self, BitVec.toNat_ofNat, Nat.mod_eq_of_lt (by omega)]
    exact hlast

/-- Settles O44: DINIT and LLD pull their bytes before they write; DRENORM shifts in the whole window. -/
theorem sourceRunsOut : Obligations.SourceRunsOut := by
  refine fun s hf => ⟨fun j hj hwin => ?_, fun hwin => ?_, fun j hj hlt => ?_⟩
  · exact exec_raised (i := .dinit j) nofun hf hj (dinitBody_short j.toNat hwin)
  · exact exec_raised (i := .lld) nofun hf trivial (lldBody_short hwin)
  · exact exec_raised (i := .drenorm j) nofun hf hj
      (drenormBody_short (Nat.lt_of_lt_of_le hj s.k.count_le.2) hlt)

/-! #### DGET and DRENORM -/

/-- DGET's lookup and advance over exact numbers, stored modulo `2^32` (42_coder_state.md R114). -/
theorem dgetBody_eq (j : Nat) {s : State} {slot : Nat} (hslot : slot = s.slotOf (codePoint s.p (s.r.get j))) :
    dgetBody j s = .ok
      ((s.setR j (BitVec.ofNat 32 ((s.slotFreqs.get slot).toNat * ((s.r.get j).toNat / 2 ^ s.p.exponent) +
        codePoint s.p (s.r.get j)) - s.slotAdjust.get slot)).setSymo (s.symId.get slot)) () := by
  have hshift : s.r.get j >>> s.p.exponent = BitVec.ofNat 32 ((s.r.get j).toNat / 2 ^ s.p.exponent) := by
    rw [← Nat.shiftRight_eq_div_pow, ← BitVec.toNat_ushiftRight, BitVec.ofNat_toNat, BitVec.setWidth_eq]
  simp only [dgetBody, ← hslot, hshift, BitVec.ofNat_add, BitVec.ofNat_mul, BitVec.ofNat_toNat, BitVec.setWidth_eq]

/-- Settles O45: the slot is the one of the statement, and the conditions of the refusal are those of the admission
table. -/
theorem dgetDecodes : Obligations.DgetDecodes := by
  refine fun s j hf => ⟨fun hj htv => ?_, fun hna => ?_⟩
  · exact exec_completed (i := .dget j) nofun hf ⟨hj, htv⟩ (dgetBody_eq j.toNat rfl)
  · refine inadmissibleCommandRaises (.dget j) s hf fun ⟨hj, htv⟩ => ?_
    rcases hna with hj' | htv'
    · exact hj' hj
    · exact Bool.false_ne_true (htv'.symm.trans htv)

/-- The first count at which the state reaches `L` leaves it below `2^32`. -/
theorem shiftedIn_lt_two_pow {s : State} {x : Word} {a m : Nat}
    (h : ∀ i, i < m → s.shiftedIn x.toNat a i < 2 ^ 23) : s.shiftedIn x.toNat a m < 2 ^ 32 := by
  cases m with
  | zero => exact x.isLt
  | succ m =>
    have hbefore := h m (Nat.lt_succ_self m)
    have hbyte := (s.readStr (a + m)).isLt
    rw [State.shiftedIn]
    omega

/-- Settles O46: `m` turns of DRENORM's loop take a byte each, and the next test ends it. -/
theorem drenormReads : Obligations.DrenormReads := by
  intro s j m hf hj hm v hlt hge
  exact exec_completed (i := .drenorm j) nofun hf hj
    (drenormBody_ok (Nat.lt_of_lt_of_le hj s.k.count_le.2) hm hlt hge (shiftedIn_lt_two_pow hlt))

end Sys2Proof.Machine
end

/-! ### What EPUT and ENC leave alone -/

section
namespace Sys2Proof.Machine

/-- What survives the pseudocode of an admitted command, and CC or the fault registers written, survives the command,
however it ends. -/
theorem exec_keeps_of_admitted_body {P : State → Prop} (bumpCc : ∀ s, P s → P s.bumpCc)
    (latch : ∀ s f word, P s → P (s.latch f word)) {i : Instr} {s t : State} (hi : i ≠ .srst) (hs : P s)
    (hbody : admits i s = true → P (commandBody i s).state) (h : exec i s = .next t) : P t := by
  by_cases ha : admits i s = true
  · exact exec_keeps_of_body bumpCc latch hi hs (hbody ha) h
  · rw [exec_eq_issue hi] at h
    rcases issue_cases h with ⟨-, rfl⟩ | ⟨-, -, rfl⟩ | ⟨-, ha', -⟩
    · exact hs
    · exact latch s _ _ hs
    · exact absurd ha' ha

/-! #### From PutByte and the coder states in use to the commands -/

/-- `P` survives the end of a command, PutByte's write, and writing the coder states of `live`. -/
structure SinkClosed (live : Nat → Prop) (P : State → Prop) : Prop where
  bumpCc : ∀ s, P s → P s.bumpCc
  latch : ∀ s f word, P s → P (s.latch f word)
  sink : ∀ s b, s.wp ≠ 0 → P s → P ((s.setWp (s.wp - 1)).writeStr (s.wp - 1).toNat b)
  setR : ∀ s j v, live j → P s → P (s.setR j v)

section
variable {live : Nat → Prop} {P : State → Prop} (hP : SinkClosed live P)
include hP

theorem SinkClosed.putLoop_keeps {j : Nat} (hj : live j) (limit n : Nat) {s : State} (hs : P s) :
    P (putLoop limit j n s).state := by
  induction n generalizing s with
  | zero => exact hs
  | succ n ih =>
    rw [putLoop]
    split
    · exact Res.bind_keeps (putByte_keeps hP.sink _ hs) fun t _ ht => ih (hP.setR t j _ hj ht)
    · exact hs

theorem SinkClosed.eputBody_keeps {j : Nat} (hj : live j) (sym : Nat) {s : State} (hs : P s) :
    P (eputBody j sym s).state := by
  unfold eputBody
  split
  · exact hs
  · exact Res.bind_keeps (hP.putLoop_keeps hj _ _ hs) fun t _ ht => hP.setR t j _ hj ht

/-- ENC uses the states below `K` alone (43_interleaved_driver.md R120). -/
theorem SinkClosed.encBody_keeps {s : State} (hk : ∀ j, j < s.k.count → live j) (hs : P s) :
    P (encBody s).state := by
  have hinit : ∀ j, j < s.k.count → ∀ t, P t → P (einitBody j t).state := fun j hj t =>
    hP.setR t j _ (hk j hj)
  have hput : ∀ i t, P t → P (putMessageByte s.k.count i t).state := fun i _ =>
    hP.eputBody_keeps (hk _ (Nat.mod_lt i s.k.count_le.1)) _
  have hgroup : ∀ g t, P t → P (putGroup s.k.count g t).state := fun _ _ ht =>
    forDown_keeps _ (fun j hj _ => hP.eputBody_keeps (hk j hj) _) ht
  exact Res.bind_keeps (forUp_keeps _ hinit hs) fun _ _ h1 =>
    Res.bind_keeps (forDown_keeps _ (fun _ _ => hput _) h1) fun _ _ h2 =>
      Res.bind_keeps (forDown_keeps _ (fun g _ => hgroup g) h2) fun _ _ h3 =>
        forDown_keeps _ (fun j _ _ ht => eflushBody_keeps hP.sink j ht) h3

end

/-! #### The frame of both commands -/

/-- `t` is `s` but for the coder states of `live`, WP, STR, CC and the fault registers, and in STR but for the bytes
from the new WP up to the old one. -/
structure PutFrame (live : Nat → Prop) (s t : State) : Prop where
  rest : t = { s with r := t.r, wp := t.wp, str := t.str, cc := t.cc, fault := t.fault, fcmd := t.fcmd }
  r : ∀ m, m < 4 → ¬ live m → t.r.get m = s.r.get m
  high : t.wp.toNat ≤ s.wp.toNat
  bytes : ∀ a, a < t.wp.toNat ∨ s.wp.toNat ≤ a → t.readStr a = s.readStr a

section
variable {live : Nat → Prop}

theorem PutFrame.refl (s : State) : PutFrame live s s := ⟨rfl, fun _ _ _ => rfl, Nat.le_refl _, fun _ _ => rfl⟩

theorem PutFrame.sink {s t : State} (b : Byte) (hw : t.wp ≠ 0) (h : PutFrame live s t) :
    PutFrame live s ((t.setWp (t.wp - 1)).writeStr (t.wp - 1).toNat b) := by
  obtain ⟨hrest, hr, hhigh, hbytes⟩ := h
  have hpos : 1 ≤ t.wp.toNat := Nat.pos_of_ne_zero fun h0 => hw (BitVec.eq_of_toNat_eq h0)
  have hwp : (t.wp - 1).toNat = t.wp.toNat - 1 := toNat_sub_ofNat hpos
  refine ⟨?_, fun m hm hlive => ?_, ?_, fun a ha => ?_⟩
  · rw [writeStr_changes_str]
    exact congrArg (fun u : State => (u.setWp (t.wp - 1)).setStr _) hrest
  · rw [State.writeStr_r]
    exact hr m hm hlive
  · rw [State.writeStr_wp, State.setWp_wp]
    omega
  · rw [State.writeStr_wp, State.setWp_wp] at ha
    rw [State.readStr_writeStr, if_neg (by omega)]
    exact hbytes a (by omega)

theorem putFrame_closed (hlive : ∀ j, live j → j < 4) (s : State) : SinkClosed live (PutFrame live s) where
  bumpCc _ h := { h with rest := congrArg State.bumpCc h.rest }
  latch _ f word h := { h with rest := congrArg (State.latch · f word) h.rest }
  sink _ b hw h := h.sink b hw
  setR t j v hj h :=
    { h with
      rest := congrArg (State.setR · j v) h.rest
      r := fun m hm hm' =>
        (Table.get_set_ne t.r j m v (hlive j hj) hm fun heq => hm' (heq ▸ hj)).trans (h.r m hm hm') }

end

/-! #### How far EPUT lowers WP -/

/-- EPUT's loop emits no more than a count of bytes at which the state is below the limit. -/
theorem putLoop_wp {limit j : Nat} (c fuel : Nat) {s : State} (h : (s.r.get j).toNat / 256 ^ c < limit) :
    s.wp.toNat - c ≤ (putLoop limit j fuel s).state.wp.toNat := by
  induction fuel generalizing s c with
  | zero => exact Nat.sub_le _ _
  | succ fuel ih =>
    rw [putLoop]
    split
    next hge =>
      have hc : c ≠ 0 := by
        rintro rfl
        rw [Nat.pow_zero, Nat.div_one] at h
        omega
      obtain ⟨c, rfl⟩ := Nat.exists_eq_succ_of_ne_zero hc
      have hframe := SinkFrame.of_putByte (byteOf (s.r.get j).toNat 0) s
      have hlow := hframe.low
      cases hput : putByte (byteOf (s.r.get j).toNat 0) s with
      | ok t a =>
        rw [hput, Res.state_ok] at hframe hlow
        have hr : t.r = s.r := (congrArg State.r hframe.rest :)
        have hnext := ih (s := t.setR j (t.r.get j >>> 8)) c (by
          rw [State.setR_r, Table.get_set_self, BitVec.toNat_ushiftRight, Nat.shiftRight_eq_div_pow, hr,
            Nat.div_div_eq_div_mul, ← Nat.pow_succ']
          exact h)
        rw [State.setR_wp] at hnext
        rw [Res.bind_ok]
        omega
      | raised t k =>
        rw [hput, Res.state_raised] at hlow
        rw [Res.bind_raised, Res.state_raised]
        omega
    next => exact Nat.sub_le _ _

/-- EPUT lowers WP by at most the bytes it emits (42_coder_state.md R111). -/
theorem eputBody_wp (j sym : Nat) (s : State) :
    s.wp.toNat - emitCount (2 ^ (31 - s.p.exponent) * (s.freq.get sym).toNat) (s.r.get j).toNat ≤
      (eputBody j sym s).state.wp.toNat := by
  unfold eputBody
  split
  next => exact Nat.sub_le _ _
  next hf =>
    obtain ⟨-, -, hlt⟩ := emitCount_of_counted (s.r.get j) hf rfl
    have hloop := putLoop_wp _ putBound hlt
    rw [putLimit_eq]
    exact Res.bind_keeps (P := fun u => s.wp.toNat - _ ≤ u.wp.toNat) hloop fun _ _ ht => ht

section
variable {s t : State}

theorem exec_eput_wp {j : Nibble} {sym : Byte} (h : exec (.eput j sym) s = .next t) :
    s.wp.toNat - emitCount (2 ^ (31 - s.p.exponent) * (s.freq.get sym.toNat).toNat) (s.r.get j.toNat).toNat ≤
      t.wp.toNat :=
  exec_keeps_of_body (P := fun u => s.wp.toNat - _ ≤ u.wp.toNat) (i := .eput j sym) (fun _ h => h) (fun _ _ _ h => h)
    nofun (Nat.sub_le _ _) (eputBody_wp j.toNat sym.toNat s) h

theorem exec_eput_frame {j : Nibble} {sym : Byte} (h : exec (.eput j sym) s = .next t) :
    PutFrame (fun m => m = j.toNat ∧ m < 4) s t := by
  have hclosed := putFrame_closed (live := fun m => m = j.toNat ∧ m < 4) (fun _ hm => hm.2) s
  refine exec_keeps_of_admitted_body (i := .eput j sym) hclosed.bumpCc hclosed.latch nofun (.refl s) (fun ha => ?_) h
  have hj : StreamInUse j s := ((admits_iff (.eput j sym) s).mp ha).1
  exact hclosed.eputBody_keeps ⟨rfl, Nat.lt_of_lt_of_le hj s.k.count_le.2⟩ _ (.refl s)

theorem exec_enc_frame (h : exec .enc s = .next t) : PutFrame (· < s.k.count) s t := by
  have hclosed := putFrame_closed (live := (· < s.k.count)) (fun _ hj => Nat.lt_of_lt_of_le hj s.k.count_le.2) s
  exact exec_keeps_of_body (i := .enc) hclosed.bumpCc hclosed.latch nofun (.refl s)
    (hclosed.encBody_keeps (fun _ => id) (.refl s)) h

end

/-- Settles O58: the frame survives the writes the two commands are made of; the bytes EPUT emits are those from the new
WP up to the old one. -/
theorem encodeCommandFrame : Obligations.EncodeCommandFrame := by
  refine fun s t => ⟨fun j sym h => ?_, fun h => ?_⟩
  · have hwp := exec_eput_wp h
    obtain ⟨hrest, hr, -, hbytes⟩ := exec_eput_frame h
    exact ⟨hrest, fun m hm hne => hr m hm fun hlive => hne hlive.1, fun a ha => hbytes a (by omega)⟩
  · obtain ⟨hrest, hr, hhigh, hbytes⟩ := exec_enc_frame h
    exact ⟨hrest, fun m hm hm4 => hr m hm4 (Nat.not_lt_of_le hm), hhigh, hbytes⟩

end Sys2Proof.Machine
end

/-! ### What a stretch of pseudocode does not look at -/

section
namespace Sys2Proof.Machine

/-- The stretch with the state at its end through `f`. -/
def Res.onState {α : Type} (f : State → State) (x : Res α) : Res α :=
  match x with
  | .ok s a => .ok (f s) a
  | .raised s k => .raised (f s) k

section
variable {f : State → State}

theorem Res.onState_bind {α β : Type} {next : State → α → Res β} (hnext : ∀ t a, next (f t) a = (next t a).onState f)
    (x : Res α) : (x.onState f).bind next = (x.bind next).onState f := by
  cases x with
  | ok t a => exact hnext t a
  | raised t k => rfl

theorem forUp_onState {body : Nat → State → Res Unit} (n : Nat)
    (hbody : ∀ i, i < n → ∀ t, body i (f t) = (body i t).onState f) (s : State) :
    forUp n body (f s) = (forUp n body s).onState f := by
  induction n with
  | zero => rfl
  | succ n ih =>
    rw [forUp_succ, ih fun i hi => hbody i (by omega)]
    exact Res.onState_bind (fun t _ => hbody n (by omega) t) _

theorem forDown_onState {body : Nat → State → Res Unit} (n : Nat)
    (hbody : ∀ i t, body i (f t) = (body i t).onState f) (s : State) :
    forDown n body (f s) = (forDown n body s).onState f := by
  induction n generalizing s with
  | zero => rfl
  | succ n ih =>
    rw [forDown_succ, hbody]
    exact Res.onState_bind (fun t _ => ih t) _

/-- DRENORM of stream `j` neither looks at nor writes what `f` changes. -/
structure RenormBlind (f : State → State) (j : Nat) : Prop where
  getByte : ∀ s, getByte (f s) = (getByte s).onState f
  window : ∀ s, (f s).window = s.window
  r : ∀ s, (f s).r.get j = s.r.get j
  setR : ∀ s v, (f s).setR j v = f (s.setR j v)

theorem RenormBlind.renormLoop_onState {j : Nat} (h : RenormBlind f j) (n : Nat) (s : State) :
    renormLoop j n (f s) = (renormLoop j n s).onState f := by
  induction n generalizing s with
  | zero => rfl
  | succ n ih =>
    rw [renormLoop, renormLoop, h.r, h.getByte]
    split
    · refine Res.onState_bind (fun t b => ?_) _
      rw [h.r, h.setR, ih]
    · rfl

theorem RenormBlind.drenormBody_onState {j : Nat} (h : RenormBlind f j) (s : State) :
    drenormBody j (f s) = (drenormBody j s).onState f := by
  rw [drenormBody, h.window, h.renormLoop_onState]
  rfl

end

/-! #### The coder primitives do not look at CC -/

/-- Another value of CC. -/
def State.withCc (s : State) (c : DWord) : State := { s with cc := c }

section
variable (c : DWord)

theorem getByte_withCc (s : State) : getByte (s.withCc c) = (getByte s).onState (·.withCc c) := by
  change (if s.rend ≤ s.rp ∨ s.strCap ≤ s.rp then _ else _) = _
  unfold getByte
  split <;> rfl

theorem renormBlind_withCc (j : Nat) : RenormBlind (·.withCc c) j where
  getByte := getByte_withCc c
  window _ := rfl
  r _ := rfl
  setR _ _ := rfl

theorem writeStr_withCc (s : State) (a : Nat) (b : Byte) : (s.withCc c).writeStr a b = (s.writeStr a b).withCc c := by
  change (if a < s.strCap.toNat then _ else _) = _
  unfold State.writeStr
  split <;> rfl

theorem writeMsg_withCc (s : State) (i : Nat) (b : Byte) : (s.withCc c).writeMsg i b = (s.writeMsg i b).withCc c := by
  change (if i < s.msgCap.toNat then _ else _) = _
  unfold State.writeMsg
  split <;> rfl

theorem putByte_withCc (b : Byte) (s : State) : putByte b (s.withCc c) = (putByte b s).onState (·.withCc c) := by
  change (if s.wp = 0 then _ else Res.ok (((s.setWp (s.wp - 1)).withCc c).writeStr _ b) ()) = _
  unfold putByte
  split
  · rfl
  · exact congrArg (Res.ok · ()) (writeStr_withCc c _ _ _)

theorem putLoop_withCc (limit j n : Nat) (s : State) :
    putLoop limit j n (s.withCc c) = (putLoop limit j n s).onState (·.withCc c) := by
  induction n generalizing s with
  | zero => rfl
  | succ n ih =>
    rw [putLoop, putLoop]
    change (if limit ≤ (s.r.get j).toNat then (putByte _ _).bind _ else _) = _
    split
    · rw [putByte_withCc]
      exact Res.onState_bind (fun t _ => ih (t.setR j (t.r.get j >>> 8))) _
    · rfl

theorem eputBody_withCc (j sym : Nat) (s : State) :
    eputBody j sym (s.withCc c) = (eputBody j sym s).onState (·.withCc c) := by
  change (if s.freq.get sym = 0 then _ else (putLoop (putLimit s.p (s.freq.get sym).toNat) j putBound _).bind _) = _
  unfold eputBody
  split
  · rfl
  · rw [putLoop_withCc]
    exact Res.onState_bind (fun _ _ => rfl) _

theorem pullBytes_withCc (n : Nat) (s : State) :
    pullBytes n (s.withCc c) = (pullBytes n s).onState (·.withCc c) := by
  induction n with
  | zero => rfl
  | succ n ih =>
    rw [pullBytes, ih]
    refine Res.onState_bind (fun t v => ?_) _
    rw [getByte_withCc]
    exact Res.onState_bind (fun _ _ => rfl) _

/-- The command is one of the primitives of 42_coder_state.md. -/
def IsPrimitive (i : Instr) : Prop :=
  match i with
  | .einit _ | .eput _ _ | .eflush _ | .dinit _ | .dget _ | .drenorm _ => True
  | _ => False

theorem IsPrimitive.commandBody_withCc {i : Instr} (hi : IsPrimitive i) (s : State) :
    commandBody i (s.withCc c) = (commandBody i s).onState (·.withCc c) := by
  cases i with
  | einit j => rfl
  | eput j sym => exact eputBody_withCc c j.toNat sym.toNat s
  | eflush j => exact forDown_onState 4 (fun k t => putByte_withCc c (byteOf (s.r.get j.toNat).toNat k) t) s
  | dinit j =>
    change (pullBytes 4 (s.withCc c)).bind _ = ((pullBytes 4 s).bind _).onState _
    rw [pullBytes_withCc]
    exact Res.onState_bind (fun _ _ => rfl) _
  | dget j => rfl
  | drenorm j => exact (renormBlind_withCc c j.toNat).drenormBody_onState s
  | _ => exact hi.elim

end

end Sys2Proof.Machine
end

/-! ### ENC and DEC are the sequences of their primitives (43_interleaved_driver.md R122) -/

section
namespace Sys2Proof.Machine

/-- The pseudocode of one of the decode driver's actions. -/
def DriverAct.body (a : DriverAct) : State → Res Unit :=
  match a with
  | .issue i => commandBody i
  | .copySymo i => fun s => .ok (s.writeMsg i s.symo) ()

/-- The pseudocode of the actions in one stretch: without the checks and the end of a command. -/
def runActs (acts : List DriverAct) (s : State) : Res Unit :=
  match acts with
  | [] => .ok s ()
  | a :: acts => (a.body s).bind fun t _ => runActs acts t

/-- How many of the actions are commands. -/
def commandCount (acts : List DriverAct) : Nat :=
  acts.countP fun a => match a with
    | .issue _ => true
    | .copySymo _ => false

/-- The action is an admitted primitive, or a copy into the message. -/
def DriverAct.Ready (s : State) (a : DriverAct) : Prop :=
  match a with
  | .issue i => IsPrimitive i ∧ AdmittedBySpec i s
  | .copySymo i => i < s.msgCap.toNat

theorem IsPrimitive.ne_srst {i : Instr} (hi : IsPrimitive i) : i ≠ .srst := by
  rintro rfl
  exact hi

/-- A primitive's admission looks at CFG.K and TV, which no primitive writes. -/
theorem IsPrimitive.admitted_congr {i : Instr} (hi : IsPrimitive i) {s t : State} (hk : t.k = s.k)
    (htv : t.tv = s.tv) (ha : AdmittedBySpec i s) : AdmittedBySpec i t := by
  cases i with
  | einit | eflush | dinit | drenorm => exact (congrArg (_ < Interleave.count ·) hk).mpr ha
  | eput | dget => exact ⟨(congrArg (_ < Interleave.count ·) hk).mpr ha.1, htv.trans ha.2⟩
  | _ => exact hi.elim

theorem IsPrimitive.not_writesModel {i : Instr} (hi : IsPrimitive i) : ¬ Instr.writesModel i := by
  cases i with
  | einit | eput | eflush | dinit | dget | drenorm => exact id
  | _ => exact hi.elim

theorem streamClosed_k_tv (s : State) : StreamClosed fun t => t.k = s.k ∧ t.tv = s.tv where
  sink t b _ h := by simpa using h
  setRp _ _ h := h
  setR _ _ _ h := h
  setSymo _ _ h := h
  writeMsg t i b h := by simpa using h
  emptySink _ h := h
  setRend _ _ h := h
  setLen _ _ h := h

theorem IsPrimitive.body_keeps {i : Instr} (hi : IsPrimitive i) (s : State) :
    (commandBody i s).state.k = s.k ∧ (commandBody i s).state.tv = s.tv :=
  (streamClosed_k_tv s).body_keeps hi.not_writesModel ⟨rfl, rfl⟩

theorem DriverAct.ready_congr {a : DriverAct} {s t : State} (hcap : t.msgCap = s.msgCap) (hk : t.k = s.k)
    (htv : t.tv = s.tv) (ha : a.Ready s) : a.Ready t := by
  cases a with
  | issue i => exact ⟨ha.1, ha.1.admitted_congr hk htv ha.2⟩
  | copySymo i => exact (congrArg (i < BitVec.toNat ·) hcap).mpr ha

theorem runActs_withCc {acts : List DriverAct} {s : State} (c : DWord) (h : ∀ a ∈ acts, a.Ready s) (t : State) :
    runActs acts (t.withCc c) = (runActs acts t).onState (·.withCc c) := by
  induction acts generalizing t with
  | nil => rfl
  | cons a acts ih =>
    have hbody : a.body (t.withCc c) = (a.body t).onState (·.withCc c) := by
      cases a with
      | issue i => exact (h _ List.mem_cons_self).1.commandBody_withCc c t
      | copySymo i => exact congrArg (Res.ok · ()) (writeMsg_withCc c t i t.symo)
    rw [runActs, hbody]
    exact Res.onState_bind (fun u _ => ih (fun b hb => h b (List.mem_cons_of_mem a hb)) u) _

theorem runActs_append (acts more : List DriverAct) (s : State) :
    runActs (acts ++ more) s = (runActs acts s).bind fun t _ => runActs more t := by
  induction acts generalizing s with
  | nil => rfl
  | cons a acts ih => simp only [List.cons_append, runActs, ih, Res.bind_assoc]

theorem not_mem_srst_of_ready {acts : List DriverAct} {s : State} (h : ∀ a ∈ acts, a.Ready s) :
    .issue .srst ∉ acts :=
  fun hmem => (h _ hmem).1

/-- Admitted primitives and copies, one after another: their pseudocode in one stretch with CC counting every command;
or, once one of them raises a fault, that fault and its own word, the rest discarded (60_exceptions.md R152, R153). -/
theorem driveAll_of_runActs {acts : List DriverAct} {s : State} (hf : s.fault = none) (hready : ∀ a ∈ acts, a.Ready s) :
    (∀ t, runActs acts s = .ok t () →
      driveAll acts s = .next (t.withCc (s.cc + BitVec.ofNat 64 (commandCount acts)))) ∧
      ∀ t k, runActs acts s = .raised t k →
        ∃ i c, .issue i ∈ acts ∧ driveAll acts s = .next ((t.withCc c).latch k (encode i)) := by
  induction acts generalizing s with
  | nil =>
    refine ⟨fun t h => ?_, fun _ _ h => (nomatch h)⟩
    obtain rfl : s = t := (Res.ok.inj h).1
    simp [commandCount, State.withCc]
  | cons a acts ih =>
    have hrest : ∀ b ∈ acts, b.Ready s := fun b hb => hready b (List.mem_cons_of_mem a hb)
    cases a with
    | issue i =>
      obtain ⟨hi, ha⟩ := hready _ List.mem_cons_self
      have hcontrol := commandBody_control hi.ne_srst s
      obtain ⟨hk, htv⟩ := hi.body_keeps s
      rw [runActs, DriverAct.body]
      cases hbody : commandBody i s with
      | ok u x =>
        rw [hbody, Res.state_ok] at hcontrol hk htv
        have hexec := exec_completed hi.ne_srst hf ha hbody
        obtain ⟨hok, hraised⟩ := ih (s := u.bumpCc) (hcontrol.fault.trans hf) fun b hb =>
          DriverAct.ready_congr hcontrol.msgCap hk htv (hrest b hb)
        have hcc : runActs acts u.bumpCc = (runActs acts u).onState (·.withCc (u.cc + 1)) :=
          runActs_withCc (u.cc + 1) hrest u
        rw [hcc] at hok hraised
        rw [Res.bind_ok, driveAll_issue acts hexec]
        refine ⟨fun t h => ?_, fun t k h => ?_⟩
        · rw [hok _ (congrArg (Res.onState _) h), State.bumpCc_cc, hcontrol.cc]
          have hcount : commandCount (.issue i :: acts) = 1 + commandCount acts := by
            simp [commandCount, Nat.add_comm]
          rw [hcount, BitVec.ofNat_add, ← BitVec.add_assoc]
          rfl
        · obtain ⟨i', c, hmem, hdrive⟩ := hraised _ k (congrArg (Res.onState _) h)
          exact ⟨i', c, List.mem_cons_of_mem _ hmem, hdrive⟩
      | raised u k =>
        have hexec := exec_raised hi.ne_srst hf ha hbody
        rw [Res.bind_raised, driveAll_issue acts hexec]
        refine ⟨fun _ h => (nomatch h), fun t k' h => ?_⟩
        cases h
        exact ⟨i, u.cc, List.mem_cons_self, driveAll_faulted (not_mem_srst_of_ready hrest) rfl⟩
    | copySymo i =>
      obtain ⟨hok, hraised⟩ := ih (s := s.writeMsg i s.symo) (by simpa using hf) fun b hb =>
        DriverAct.ready_congr (by simp) (by simp) (by simp) (hrest b hb)
      rw [runActs, DriverAct.body, Res.bind_ok, driveAll_copySymo acts hf (hready _ List.mem_cons_self)]
      refine ⟨fun t h => ?_, fun t k h => ?_⟩
      · rw [hok t h, State.writeMsg_cc]
        simp [commandCount]
      · obtain ⟨i', c, hmem, hdrive⟩ := hraised t k h
        exact ⟨i', c, List.mem_cons_of_mem _ hmem, hdrive⟩

/-- A command whose pseudocode is that of a sequence of primitives has their effect on everything but CC and, on a
fault, FCMD (43_interleaved_driver.md R122). -/
theorem exec_eq_driveAll {i : Instr} {acts : List DriverAct} {s t : State} (hi : i ≠ .srst) (hf : s.fault = none)
    (ha : AdmittedBySpec i s) (hready : ∀ a ∈ acts, a.Ready s) (hbody : commandBody i s = runActs acts s)
    (h : exec i s = .next t) :
    ∃ u, driveAll acts s = .next u ∧ u = { t with cc := u.cc, fcmd := u.fcmd } ∧
      (t.fault = none → u.fcmd = t.fcmd ∧ u.cc = s.cc + BitVec.ofNat 64 (commandCount acts)) ∧
        (t.fault ≠ none → t.fcmd = encode i ∧ ∃ i', .issue i' ∈ acts ∧ u.fcmd = encode i') := by
  obtain ⟨hok, hraised⟩ := driveAll_of_runActs hf hready
  have hcontrol := commandBody_control hi s
  rw [hbody] at hcontrol
  cases hrun : runActs acts s with
  | ok v x =>
    rw [hrun, Res.state_ok] at hcontrol
    rw [exec_completed hi hf ha (hbody.trans hrun)] at h
    obtain rfl := Host.Outcome.next.inj h
    exact ⟨_, hok v hrun, rfl, fun _ => ⟨rfl, rfl⟩, fun hfault => absurd (hcontrol.fault.trans hf) hfault⟩
  | raised v k =>
    rw [exec_raised hi hf ha (hbody.trans hrun)] at h
    obtain rfl := Host.Outcome.next.inj h
    obtain ⟨i', c, hmem, hdrive⟩ := hraised v k hrun
    exact ⟨_, hdrive, rfl, nofun, fun _ => ⟨rfl, i', hmem, rfl⟩⟩

end Sys2Proof.Machine
end

/-! ### The loops of ENC and DEC -/

section
namespace Sys2Proof.Machine

/-! #### Loops rearranged -/

theorem Res.bind_congr {α β : Type} (x : Res α) {f g : State → α → Res β} (h : ∀ t a, f t a = g t a) :
    x.bind f = x.bind g := by
  rw [funext fun t => funext (h t)]

theorem Res.bind_unit (x : Res Unit) : (x.bind fun t _ => .ok t ()) = x := by
  cases x <;> rfl

theorem Res.of_bind_ok {α β : Type} {x : Res α} {f : State → α → Res β} {u : State} {b : β} (h : x.bind f = .ok u b) :
    ∃ t a, x = .ok t a ∧ f t a = .ok u b := by
  cases x with
  | ok t a => exact ⟨t, a, rfl, h⟩
  | raised t k => exact (nomatch h)

theorem forUp_add (m n : Nat) (body : Nat → State → Res Unit) (s : State) :
    forUp (m + n) body s = (forUp m body s).bind fun t _ => forUp n (fun i => body (m + i)) t := by
  induction n with
  | zero => exact (Res.bind_unit _).symm
  | succ n ih => rw [← Nat.add_assoc, forUp_succ, ih, Res.bind_assoc]; rfl

theorem forDown_add (m n : Nat) (body : Nat → State → Res Unit) (s : State) :
    forDown (m + n) body s = (forDown n (fun i => body (m + i)) s).bind fun t _ => forDown m body t := by
  induction n generalizing s with
  | zero => rfl
  | succ n ih =>
    rw [← Nat.add_assoc, forDown_succ, forDown_succ, Res.bind_assoc]
    exact Res.bind_congr _ fun t _ => ih t

theorem forUp_mul (q k : Nat) (body : Nat → State → Res Unit) (s : State) :
    forUp (q * k) body s = forUp q (fun g => forUp k fun j => body (g * k + j)) s := by
  induction q with
  | zero => rw [Nat.zero_mul]; rfl
  | succ q ih => rw [Nat.succ_mul, forUp_add, ih]; rfl

theorem forDown_mul (q k : Nat) (body : Nat → State → Res Unit) (s : State) :
    forDown (q * k) body s = forDown q (fun g => forDown k fun j => body (g * k + j)) s := by
  induction q generalizing s with
  | zero => rw [Nat.zero_mul]; rfl
  | succ q ih =>
    rw [Nat.succ_mul, forDown_add, forDown_succ]
    exact Res.bind_congr _ fun t _ => ih t

theorem forDown_congr {body body' : Nat → State → Res Unit} (n : Nat)
    (h : ∀ i, i < n → ∀ t, body i t = body' i t) (s : State) : forDown n body s = forDown n body' s := by
  induction n generalizing s with
  | zero => rfl
  | succ n ih =>
    rw [forDown_succ, forDown_succ, h n (by omega)]
    exact Res.bind_congr _ fun t _ => ih (fun i hi => h i (by omega)) t

/-- ENC's tail and groups are one loop over the message, from its last byte to its first (43_interleaved_driver.md
R120). -/
theorem encBody_eq_loop (s : State) :
    encBody s = (forUp s.k.count einitBody s).bind fun t _ =>
      (forDown s.len.toNat (putMessageByte s.k.count) t).bind fun u _ => forDown s.k.count eflushBody u := by
  obtain ⟨k, hk⟩ : ∃ k, k = s.k.count := ⟨_, rfl⟩
  obtain ⟨n, hn⟩ : ∃ n, n = s.len.toNat := ⟨_, rfl⟩
  have hgroup : ∀ g t, putGroup k g t = forDown k (fun j => putMessageByte k (g * k + j)) t := fun g t =>
    forDown_congr k (fun j hj u => by
      rw [putMessageByte, Nat.mul_comm, Nat.mul_add_mod, Nat.mod_eq_of_lt hj]) t
  have hloop : ∀ t, forDown n (putMessageByte k) t =
      (forDown (n % k) (fun x => putMessageByte k (n - n % k + x)) t).bind fun u _ =>
        forDown (n / k) (putGroup k) u := by
    intro t
    have hsplit : n - n % k = n / k * k := by
      have := Nat.div_add_mod n k
      rw [Nat.mul_comm]
      omega
    have hadd := forDown_add (n - n % k) (n % k) (putMessageByte k) t
    rw [Nat.sub_add_cancel (Nat.mod_le n k)] at hadd
    rw [hadd]
    refine Res.bind_congr _ fun u _ => ?_
    rw [hsplit, forDown_mul, forDown_congr _ fun g _ => hgroup g]
  rw [encBody, ← hk, ← hn]
  refine Res.bind_congr _ fun t _ => ?_
  rw [hloop, Res.bind_assoc]

/-! #### Loops as sequences of actions -/

theorem forUp_eq_runActs {body : Nat → State → Res Unit} {acts : Nat → List DriverAct} (n : Nat)
    (h : ∀ i, i < n → ∀ t, body i t = runActs (acts i) t) (s : State) :
    forUp n body s = runActs ((List.range n).flatMap acts) s := by
  induction n with
  | zero => rfl
  | succ n ih =>
    rw [List.range_succ, List.flatMap_append, runActs_append, forUp_succ, ih fun i hi => h i (by omega)]
    exact Res.bind_congr _ fun t _ => (h n (by omega) t).trans (by rw [List.flatMap_singleton])

theorem runActs_issue (i : Instr) (s : State) : runActs [.issue i] s = commandBody i s := Res.bind_unit _

theorem forUp_eq_runActs_issue {body : Nat → State → Res Unit} {command : Nat → Instr} (n : Nat)
    (h : ∀ i, i < n → body i = commandBody (command i)) (s : State) :
    forUp n body s = runActs ((List.range n).map fun i => .issue (command i)) s := by
  rw [List.map_eq_flatMap]
  exact forUp_eq_runActs n (fun i hi t => by rw [runActs_issue, h i hi]) s

/-- The commands of a downward loop may be made from the state at its start, where the turns keep what they are made
from. -/
theorem forDown_eq_runActs_issue {P : State → Prop} {body : Nat → State → Res Unit} {command : Nat → Instr} (n : Nat)
    (h : ∀ i, i < n → ∀ t, P t → body i t = commandBody (command i) t) (keeps : ∀ i t, P t → P (body i t).state)
    {s : State} (hs : P s) : forDown n body s = runActs ((List.range n).reverse.map fun i => .issue (command i)) s := by
  induction n generalizing s with
  | zero => rfl
  | succ n ih =>
    have hfirst := keeps n s hs
    rw [List.range_succ, List.reverse_append, List.reverse_singleton, List.singleton_append, List.map_cons, runActs,
      forDown_succ, DriverAct.body, ← h n (by omega) s hs]
    cases hbody : body n s with
    | ok t a =>
      rw [hbody] at hfirst
      exact ih (fun i hi => h i (by omega)) hfirst
    | raised t k => rfl

theorem stream_toNat {j : Nat} {k : Interleave} (hj : j < k.count) : (BitVec.ofNat 4 j).toNat = j := by
  have := k.count_le.2
  rw [BitVec.toNat_ofNat, Nat.mod_eq_of_lt (by omega)]

theorem putMessageByte_keeps_msg {s t : State} (k i : Nat) (h : ∀ x, t.readMsg x = s.readMsg x) :
    ∀ x, (putMessageByte k i t).state.readMsg x = s.readMsg x :=
  eputBody_keeps (P := fun u => ∀ x, u.readMsg x = s.readMsg x)
    (fun u _ _ hu x => (State.readMsg_congr (s := u) (by simp) (by simp) x).trans (hu x))
    (fun _ _ _ hu => hu) (i % k) (t.readMsg i).toNat h

/-- ENC's pseudocode is that of its primitives (43_interleaved_driver.md R120, R122). -/
theorem encBody_eq_runActs (s : State) : encBody s = runActs ((encPrimitives s).map .issue) s := by
  have hinit := forUp_eq_runActs_issue (body := einitBody) (command := fun j => .einit (BitVec.ofNat 4 j)) s.k.count
    (fun j hj => by rw [commandBody, stream_toNat hj]) s
  have hput : ∀ t, (∀ x, t.readMsg x = s.readMsg x) →
      forDown s.len.toNat (putMessageByte s.k.count) t = runActs ((List.range s.len.toNat).reverse.map fun i =>
        .issue (.eput (BitVec.ofNat 4 (i % s.k.count)) (s.readMsg i))) t := fun t =>
    forDown_eq_runActs_issue (P := fun t => ∀ x, t.readMsg x = s.readMsg x) _
      (fun i _ u hu => by rw [putMessageByte, hu, commandBody, stream_toNat (Nat.mod_lt i s.k.count_le.1)])
      (fun i _ => putMessageByte_keeps_msg s.k.count i)
  have hflush : ∀ t, forDown s.k.count eflushBody t = runActs ((List.range s.k.count).reverse.map fun j =>
      .issue (.eflush (BitVec.ofNat 4 j))) t := fun t =>
    forDown_eq_runActs_issue (P := fun _ => True) _ (fun j hj u _ => by rw [commandBody, stream_toNat hj])
      (fun _ _ => id) trivial
  have hkeeps := forUp_keeps (P := fun t => ∀ x, t.readMsg x = s.readMsg x) (body := einitBody) s.k.count
    (fun _ _ _ ht => ht) fun _ => rfl
  rw [encBody_eq_loop, encPrimitives, List.map_append, List.map_append, List.map_map, List.map_map, List.map_map,
    runActs_append, runActs_append, Res.bind_assoc]
  change _ = (runActs ((List.range s.k.count).map fun j => .issue (.einit (BitVec.ofNat 4 j))) s).bind _
  rw [← hinit]
  cases hres : forUp s.k.count einitBody s with
  | ok t a =>
    rw [hres] at hkeeps
    rw [Res.bind_ok, Res.bind_ok, hput t hkeeps]
    exact Res.bind_congr _ fun u _ => hflush u
  | raised t k => rfl

theorem driveAll_map_issue (is : List Instr) (s : State) : driveAll (is.map .issue) s = execAll is s := by
  induction is generalizing s with
  | nil => rfl
  | cons i is ih =>
    rw [List.map_cons, driveAll, execAll, driverAct]
    cases exec i s with
    | next t => exact ih t
    | fault f => rfl
    | refused r => rfl

theorem encPrimitives_ready {s : State} (htv : s.len.toNat = 0 ∨ s.tv = true) :
    ∀ a ∈ (encPrimitives s).map DriverAct.issue, a.Ready s := by
  have hstream : ∀ j, j < s.k.count → StreamInUse (BitVec.ofNat 4 j) s := fun j hj => by
    rwa [StreamInUse, stream_toNat hj]
  simp only [encPrimitives, List.map_append, List.map_map, List.forall_mem_append, List.forall_mem_map,
    List.mem_reverse, List.mem_range]
  refine ⟨⟨fun j hj => ⟨trivial, hstream j hj⟩, fun i hi => ⟨trivial, ?_, ?_⟩⟩, fun j hj => ⟨trivial, hstream j hj⟩⟩
  · exact hstream _ (Nat.mod_lt i s.k.count_le.1)
  · exact htv.resolve_left (by omega)

theorem commandCount_map_issue (is : List Instr) : commandCount (is.map .issue) = is.length := by
  rw [commandCount, List.countP_map, ← List.countP_true]
  rfl

/-- Settles O50: ENC's pseudocode is its primitives' in one stretch, each of them admitted. -/
theorem encIsItsPrimitives : Obligations.EncIsItsPrimitives := by
  intro s t hf hlen htv h
  obtain ⟨u, hdrive, hu, hok, hraised⟩ := exec_eq_driveAll (i := .enc) nofun hf ⟨hlen, htv⟩ (encPrimitives_ready htv)
    (encBody_eq_runActs s) h
  rw [driveAll_map_issue] at hdrive
  rw [commandCount_map_issue] at hok
  refine ⟨u, hdrive, hu, hok, fun hfault => ?_⟩
  obtain ⟨hword, i, hmem, hfcmd⟩ := hraised hfault
  obtain ⟨i', hmem', heq⟩ := List.mem_map.mp hmem
  obtain rfl := DriverAct.issue.inj heq
  exact ⟨hword, i', hmem', hfcmd⟩

end Sys2Proof.Machine
end

/-! ### DEC is the sequence of its primitives -/

section
namespace Sys2Proof.Machine

/-- The commands that get one message byte, and the host's copy of it. -/
theorem getMessageByte_eq_runActs {j i : Nat} {k : Interleave} (hj : j < k.count) (s : State) :
    getMessageByte j i s = runActs [.issue (.dget (BitVec.ofNat 4 j)), .copySymo i] s := by
  rw [runActs, DriverAct.body, commandBody, stream_toNat hj]
  exact Res.bind_congr _ fun t _ => rfl

theorem getGroup_eq_runActs (k : Interleave) (g : Nat) (s : State) :
    getGroup k.count g s = runActs
      ((List.range k.count).flatMap (fun j => [.issue (.dget (BitVec.ofNat 4 j)), .copySymo (g * k.count + j)]) ++
        (List.range k.count).map fun j => .issue (.drenorm (BitVec.ofNat 4 j))) s := by
  have hgets := forUp_eq_runActs (body := fun j => getMessageByte j (g * k.count + j)) k.count
    (fun j hj t => getMessageByte_eq_runActs hj t) s
  rw [runActs_append, getGroup, hgets]
  exact Res.bind_congr _ fun t _ =>
    forUp_eq_runActs_issue _ (fun j hj => by rw [commandBody, stream_toNat hj]) t

theorem getTailByte_eq_runActs {j i : Nat} {k : Interleave} (hj : j < k.count) (s : State) :
    getTailByte i j s = runActs
      [.issue (.dget (BitVec.ofNat 4 j)), .copySymo (i + j), .issue (.drenorm (BitVec.ofNat 4 j))] s := by
  rw [getTailByte, getMessageByte_eq_runActs hj]
  refine (Res.bind_congr _ fun t _ => ?_).trans (runActs_append _ [.issue (.drenorm (BitVec.ofNat 4 j))] s).symm
  rw [runActs_issue, commandBody, stream_toNat hj]

/-- DEC's pseudocode is that of its primitives and the host's copies (43_interleaved_driver.md R121, R122). -/
theorem decBody_eq_runActs (s : State) : decBody s = runActs (decPrimitives s) s := by
  have hinit := forUp_eq_runActs_issue (body := dinitBody) (command := fun j => .dinit (BitVec.ofNat 4 j)) s.k.count
    (fun j hj => by rw [commandBody, stream_toNat hj]) s
  have hgroups := forUp_eq_runActs (s.len.toNat / s.k.count) fun g _ t => getGroup_eq_runActs s.k g t
  have htail := forUp_eq_runActs (s.len.toNat % s.k.count) fun j hj t =>
    getTailByte_eq_runActs (i := s.len.toNat - s.len.toNat % s.k.count) (hj.trans (Nat.mod_lt _ s.k.count_le.1)) t
  simp only [decBody, decPrimitives, runActs_append, Res.bind_assoc, hinit, hgroups, htail]

theorem decPrimitives_ready {s : State} (hlen : s.len.toNat ≤ s.msgCap.toNat) (htv : s.len.toNat = 0 ∨ s.tv = true) :
    ∀ a ∈ decPrimitives s, a.Ready s := by
  have hstream : ∀ j, j < s.k.count → StreamInUse (BitVec.ofNat 4 j) s := fun j hj => by
    rwa [StreamInUse, stream_toNat hj]
  have hmod := Nat.mod_lt s.len.toNat s.k.count_le.1
  have hle := Nat.mod_le s.len.toNat s.k.count
  have hin : ∀ g, g < s.len.toNat / s.k.count → ∀ j, j < s.k.count → g * s.k.count + j < s.len.toNat :=
    fun g hg j hj =>
      calc g * s.k.count + j < (g + 1) * s.k.count := by rw [Nat.succ_mul]; omega
        _ ≤ s.len.toNat / s.k.count * s.k.count := Nat.mul_le_mul_right _ hg
        _ ≤ s.len.toNat := Nat.div_mul_le_self _ _
  simp only [decPrimitives, List.forall_mem_append, List.forall_mem_map, List.forall_mem_flatMap, List.mem_range,
    List.forall_mem_cons]
  refine ⟨⟨fun j hj => ⟨trivial, hstream j hj⟩, fun g hg => ⟨fun j hj => ?_, fun j hj => ⟨trivial, hstream j hj⟩⟩⟩,
    fun j hj => ?_⟩
  · have := hin g hg j hj
    exact ⟨⟨trivial, hstream j hj, htv.resolve_left (by omega)⟩, this.trans_le hlen, nofun⟩
  · have hj' := hj.trans hmod
    have : s.len.toNat - s.len.toNat % s.k.count + j < s.msgCap.toNat := by omega
    exact ⟨⟨trivial, hstream j hj', htv.resolve_left (by omega)⟩, this, ⟨trivial, hstream j hj'⟩, nofun⟩

theorem commandCount_decPrimitives (s : State) : commandCount (decPrimitives s) = s.k.count + 2 * s.len.toNat := by
  have h := Nat.div_add_mod s.len.toNat s.k.count
  have hcount : commandCount (decPrimitives s) = s.k.count +
      s.len.toNat / s.k.count * (s.k.count + s.k.count) + s.len.toNat % s.k.count * 2 := by
    simp [commandCount, decPrimitives, List.countP_flatMap, List.countP_map, Function.comp_def, Nat.add_assoc]
  rw [hcount]
  linarith

/-- DEC has the effect of its primitives, on any stream and any table. -/
theorem exec_dec_eq_driveAll {s t : State} (hf : s.fault = none) (hlen : s.len.toNat ≤ s.msgCap.toNat)
    (htv : s.len.toNat = 0 ∨ s.tv = true) (h : exec .dec s = .next t) :
    ∃ u, driveAll (decPrimitives s) s = .next u ∧ u = { t with cc := u.cc, fcmd := u.fcmd } ∧
      (t.fault = none → u.fcmd = t.fcmd ∧ u.cc = s.cc + BitVec.ofNat 64 (s.k.count + 2 * s.len.toNat)) ∧
        (t.fault ≠ none → t.fcmd = encode .dec ∧ ∃ i, .issue i ∈ decPrimitives s ∧ u.fcmd = encode i) := by
  rw [← commandCount_decPrimitives]
  exact exec_eq_driveAll (i := .dec) nofun hf ⟨hlen, htv⟩ (decPrimitives_ready hlen htv) (decBody_eq_runActs s) h

end Sys2Proof.Machine
end

/-! ### The start of ENC and of DEC, and ENC's flushes -/

section
namespace Sys2Proof.Machine

/-- `r[0..n)` written, entry `j` with `v j`. -/
def State.withStates (s : State) (n : Nat) (v : Nat → Word) : State :=
  { s with r := countUp n (fun j r => r.set j (v j)) s.r }

theorem withStates_get (s : State) {n : Nat} (v : Nat → Word) (hn : n ≤ 4) {j : Nat} (hj : j < 4) :
    (s.withStates n v).r.get j = if j < n then v j else s.r.get j := by
  refine countUp_induct (P := fun n (r : Table Word 2) => r.get j = if j < n then v j else s.r.get j) n (by simp)
    fun i hi r ih => ?_
  rw [Table.get_set r i j _ (show i < 4 by omega) hj, ih]
  by_cases hji : j = i
  · simp [hji]
  · simp [hji, show j < i + 1 ↔ j < i by omega]

theorem forUp_einitBody (n : Nat) (s : State) :
    forUp n einitBody s = .ok (s.withStates n fun _ => 0x00800000) () := by
  induction n with
  | zero => rfl
  | succ n ih => rw [forUp_succ, ih]; rfl

/-- DEC's start reads the `4 * K` state bytes (43_interleaved_driver.md R121, R123). -/
theorem forUp_dinitBody {n : Nat} {s : State} (h : 4 * n ≤ s.window) :
    forUp n dinitBody s = .ok ((s.setRp (s.rp + BitVec.ofNat 64 (4 * n))).withStates n fun j =>
      BitVec.ofNat 32 (s.littleEndian (s.rp.toNat + 4 * j) 4)) () := by
  induction n with
  | zero => simp [State.withStates, countUp, State.setRp]
  | succ n ih =>
    have hn : 4 * n ≤ s.window := by omega
    rw [forUp_succ, ih hn, Res.bind_ok]
    set t := (s.setRp (s.rp + BitVec.ofNat 64 (4 * n))).withStates n fun j =>
      BitVec.ofNat 32 (s.littleEndian (s.rp.toNat + 4 * j) 4)
    have hwin : t.window = s.window - 4 * n := window_setRp hn
    have hrp : t.rp.toNat = s.rp.toNat + 4 * n := toNat_add_ofNat (rp_add_lt hn)
    have hadd : t.rp + 4 = s.rp + BitVec.ofNat 64 (4 * (n + 1)) := by
      rw [Nat.mul_succ, BitVec.ofNat_add, ← BitVec.add_assoc]
      rfl
    have hvalue : t.littleEndian t.rp.toNat 4 = s.littleEndian (s.rp.toNat + 4 * n) 4 :=
      hrp ▸ littleEndian_congr (fun _ => rfl) _ _
    rw [dinitBody_ok n (by omega), hadd, hvalue]
    rfl

/-- Settles O52: with LEN = 0 both of DEC's loops are empty. -/
theorem decEmptyMessage : Obligations.DecEmptyMessage := by
  intro s hf hlen hwin
  have hzero : s.len.toNat = 0 := congrArg BitVec.toNat hlen
  have hbody : decBody s = .ok ((s.setRp (s.rp + BitVec.ofNat 64 (4 * s.k.count))).withStates s.k.count fun j =>
      BitVec.ofNat 32 (s.littleEndian (s.rp.toNat + 4 * j) 4)) () := by
    simp only [decBody, hzero, Nat.zero_div, Nat.zero_mod, forUp_zero, forUp_dinitBody hwin, Res.bind_ok]
  exact ⟨_, exec_completed (i := .dec) nofun hf ⟨by omega, .inl hzero⟩ hbody, rfl,
    fun j hj => withStates_get _ _ s.k.count_le.2 hj⟩

/-! #### The flushes -/

theorem littleEndian_congr_of_bytes {s t : State} {a n : Nat} (h : ∀ i, i < n → t.readStr (a + i) = s.readStr (a + i)) :
    t.littleEndian a n = s.littleEndian a n := by
  induction n with
  | zero => rfl
  | succ n ih => rw [State.littleEndian, State.littleEndian, ih fun i hi => h i (by omega), h n (by omega)]

/-- ENC's flushes with room: read forward the final states in ascending order (43_interleaved_driver.md R120, R123). -/
theorem forDown_eflushBody (n : Nat) {s : State} (hw : 4 * n ≤ s.wp.toNat) (hc : s.wp.toNat ≤ s.strCap.toNat) :
    ∃ cells, forDown n eflushBody s = .ok (s.sunk (4 * n) cells) () ∧
      (∀ j, j < n → (s.sunk (4 * n) cells).littleEndian (s.wp.toNat - 4 * n + 4 * j) 4 = (s.r.get j).toNat) ∧
        ∀ a, s.wp.toNat ≤ a → (s.sunk (4 * n) cells).readStr a = s.readStr a := by
  induction n generalizing s with
  | zero => exact ⟨s.str, by simp [sunk_zero], fun _ h => absurd h (Nat.not_lt_zero _), fun _ _ => rfl⟩
  | succ n ih =>
    obtain ⟨c, hflush, hvalue⟩ := eflushBody_ok (s := s) n (by omega) hc
    have hkept := (SinkFrame.of_pushBytes 4 (s.r.get n).toNat s).bytes
    change ∀ a, _ → (eflushBody n s).state.readStr a = _ at hkept
    rw [hflush, Res.state_ok] at hkept
    have hwp : (s.sunk 4 c).wp.toNat = s.wp.toNat - 4 := toNat_sub_ofNat (by omega)
    obtain ⟨cells, hloop, hvalues, habove⟩ := ih (s := s.sunk 4 c) (by omega)
      (by rw [hwp]; exact (Nat.sub_le _ _).trans hc)
    rw [sunk_sunk, hwp, show 4 + 4 * n = 4 * (n + 1) by omega] at *
    refine ⟨cells, by rw [forDown_succ, hflush, Res.bind_ok, hloop], fun j hj => ?_, fun a ha => ?_⟩
    · rcases Nat.lt_succ_iff_lt_or_eq.mp hj with hj | rfl
      · rw [show s.wp.toNat - 4 * (n + 1) + 4 * j = s.wp.toNat - 4 - 4 * n + 4 * j by omega]
        exact hvalues j hj
      · rw [← hvalue, show s.wp.toNat - 4 * (j + 1) + 4 * j = s.wp.toNat - 4 by omega]
        exact littleEndian_congr_of_bytes fun i _ => habove _ (by omega)
    · rw [habove a (by omega), hkept a (by omega)]

/-- ENC once its loop over the message has come through with room for the flushes. -/
theorem encBody_of_loop {s e : State}
    (hloop : forDown s.len.toNat (putMessageByte s.k.count) (s.withStates s.k.count fun _ => 0x00800000) = .ok e ())
    (hw : 4 * s.k.count ≤ e.wp.toNat) (hc : e.wp.toNat ≤ e.strCap.toNat) :
    ∃ cells, encBody s = .ok (e.sunk (4 * s.k.count) cells) () ∧
      (∀ j, j < s.k.count → (e.sunk (4 * s.k.count) cells).littleEndian (e.wp.toNat - 4 * s.k.count + 4 * j) 4 =
        (e.r.get j).toNat) ∧
        ∀ a, e.wp.toNat ≤ a → (e.sunk (4 * s.k.count) cells).readStr a = e.readStr a := by
  obtain ⟨cells, hflush, hrest⟩ := forDown_eflushBody s.k.count hw hc
  exact ⟨cells, by rw [encBody_eq_loop, forUp_einitBody, Res.bind_ok, hloop, Res.bind_ok, hflush], hrest⟩

/-! #### Loops that complete -/

theorem forUp_completes {P : Nat → State → Prop} {body : Nat → State → Res Unit} (n : Nat)
    (h : ∀ i, i < n → ∀ t, P i t → ∃ u, body i t = .ok u () ∧ P (i + 1) u) {s : State} (hs : P 0 s) :
    ∃ u, forUp n body s = .ok u () ∧ P n u := by
  induction n with
  | zero => exact ⟨s, rfl, hs⟩
  | succ n ih =>
    obtain ⟨t, ht, hPt⟩ := ih fun i hi => h i (by omega)
    obtain ⟨u, hu, hPu⟩ := h n (by omega) t hPt
    exact ⟨u, by rw [forUp_succ, ht, Res.bind_ok, hu], hPu⟩

theorem forDown_completes {P : Nat → State → Prop} {body : Nat → State → Res Unit} (n : Nat)
    (h : ∀ i, i < n → ∀ t, P (i + 1) t → ∃ u, body i t = .ok u () ∧ P i u) {s : State} (hs : P n s) :
    ∃ u, forDown n body s = .ok u () ∧ P 0 u := by
  induction n generalizing s with
  | zero => exact ⟨s, rfl, hs⟩
  | succ n ih =>
    obtain ⟨t, ht, hPt⟩ := h n (by omega) s hs
    obtain ⟨u, hu, hPu⟩ := ih (fun i hi => h i (by omega)) hPt
    exact ⟨u, by rw [forDown_succ, ht, Res.bind_ok, hu], hPu⟩

end Sys2Proof.Machine
end

/-! ### ENC completes -/

section
namespace Sys2Proof.Machine

/-- A limit of at least `2^15`, which every frequency but 0 gives, is met after three bytes. -/
theorem emitCount_le_three {s : State} {sym : Nat} (x : Word) (hf : s.freq.get sym ≠ 0) :
    emitCount (2 ^ (31 - s.p.exponent) * (s.freq.get sym).toNat) x.toNat ≤ 3 := by
  obtain ⟨-, hge, -⟩ := emitCount_of_counted x hf rfl
  have hpos : 0 < (s.freq.get sym).toNat := Nat.pos_of_ne_zero fun h => hf (BitVec.eq_of_toNat_eq h)
  have hlimit : 2 ^ 15 * 1 ≤ 2 ^ (31 - s.p.exponent) * (s.freq.get sym).toNat :=
    Nat.mul_le_mul (Nat.pow_le_pow_right (by omega) (by have := s.p.exponent_range; omega)) hpos
  have hx := x.isLt
  by_contra hn
  have hbig := hge 3 (by omega)
  omega

section
variable {s t u : State} {i : Nat}

theorem PutFrame.freq_readMsg {live : Nat → Prop} (h : PutFrame live s t) (i : Nat) :
    t.freq.get (t.readMsg i).toNat = s.freq.get (s.readMsg i).toNat := by
  have hfreq : t.freq = s.freq := (congrArg State.freq h.rest :)
  rw [State.readMsg_congr (s := s) (congrArg State.msg h.rest :) (congrArg State.bufEpoch h.rest :), hfreq]

theorem PutFrame.putMessageByte_ok (h : PutFrame (· < s.k.count) s t)
    (hu : putMessageByte s.k.count i t = .ok u ()) : PutFrame (· < s.k.count) s u := by
  have hclosed := putFrame_closed (live := (· < s.k.count)) (fun _ hj => Nat.lt_of_lt_of_le hj s.k.count_le.2) s
  have hkept := hclosed.eputBody_keeps (Nat.mod_lt i s.k.count_le.1) (t.readMsg i).toNat h
  change PutFrame _ s (putMessageByte s.k.count i t).state at hkept
  rwa [hu] at hkept

theorem putFrame_withStates (v : Nat → Word) : PutFrame (· < s.k.count) s (s.withStates s.k.count v) where
  rest := rfl
  r _ hm hlive := (withStates_get s v s.k.count_le.2 hm).trans (if_neg hlive)
  high := Nat.le_refl _
  bytes _ _ := rfl

/-- One byte of a message whose bytes all have frequencies, put with room for three bytes: WP falls by at most three. -/
theorem putMessageByte_completes (h : PutFrame (· < s.k.count) s t) (hf : s.freq.get (s.readMsg i).toNat ≠ 0)
    (hw : 3 ≤ t.wp.toNat) (hc : s.wp.toNat ≤ s.strCap.toNat) :
    ∃ u, putMessageByte s.k.count i t = .ok u () ∧ PutFrame (· < s.k.count) s u ∧ t.wp.toNat ≤ u.wp.toNat + 3 := by
  have hcap : t.strCap = s.strCap := (congrArg State.strCap h.rest :)
  have hj : i % s.k.count < 4 := (Nat.mod_lt i s.k.count_le.1).trans_le s.k.count_le.2
  rw [← h.freq_readMsg] at hf
  have hn := emitCount_le_three (t.r.get (i % s.k.count)) hf
  obtain ⟨cells, hput, -⟩ := eputBody_ok hj hf rfl (by omega) (hcap ▸ h.high.trans hc)
  refine ⟨_, hput, h.putMessageByte_ok hput, ?_⟩
  change t.wp.toNat ≤ (t.wp - BitVec.ofNat 64 _).toNat + 3
  rw [toNat_sub_ofNat (by omega)]
  omega

end

/-- What holds of ENC's state once the bytes of the message from `i` on are put, with three bytes of room for each. -/
structure PutsCompleted (s : State) (i : Nat) (t : State) : Prop where
  frame : PutFrame (· < s.k.count) s t
  low : 4 * s.k.count + 3 * i ≤ t.wp.toNat
  high : s.wp.toNat ≤ t.wp.toNat + 3 * (s.len.toNat - i)

theorem PutsCompleted.step {s t : State} {i : Nat} (h : PutsCompleted s (i + 1) t) (hi : i < s.len.toNat)
    (hf : s.freq.get (s.readMsg i).toNat ≠ 0) (hc : s.wp.toNat ≤ s.strCap.toNat) :
    ∃ u, putMessageByte s.k.count i t = .ok u () ∧ PutsCompleted s i u := by
  obtain ⟨hframe, hlow, hhigh⟩ := h
  obtain ⟨u, hu, hframe', hwp⟩ := putMessageByte_completes hframe hf (by omega) hc
  exact ⟨u, hu, hframe', by omega, by omega⟩

/-- What the end of a completed command leaves in CC and the fault registers. -/
theorem completed_control {i : Instr} {s u : State} (hi : i ≠ .srst) (hbody : commandBody i s = .ok u ()) :
    u.bumpCc.cc = s.cc + 1 ∧ u.bumpCc.fault = s.fault ∧ u.bumpCc.fcmd = s.fcmd := by
  have h := commandBody_control hi s
  rw [hbody, Res.state_ok] at h
  exact ⟨congrArg (· + 1) h.cc, h.fault, h.fcmd⟩

/-- Settles O49: the loop lowers WP by at most three bytes a symbol, and the flushes push the states it leaves. -/
theorem encCompletes : Obligations.EncCompletes := by
  intro s hf hlen htv hfreq hroom hc
  obtain ⟨e, hloop, hframe, hlow, hhigh⟩ := forDown_completes (P := PutsCompleted s)
    (body := putMessageByte s.k.count) s.len.toNat (fun i hi t h => h.step hi (hfreq i hi) hc)
    (s := s.withStates s.k.count fun _ => 0x00800000)
    ⟨putFrame_withStates _, hroom, by simp [State.withStates]⟩
  have hcap : e.strCap = s.strCap := (congrArg State.strCap hframe.rest :)
  have hdown := hframe.high
  obtain ⟨cells, hbody, hvalues, -⟩ := encBody_of_loop hloop (by omega) (hcap ▸ hdown.trans hc)
  have hexec := exec_completed (i := .enc) nofun hf ⟨hlen, htv⟩ hbody
  obtain ⟨hcc, hfault, hfcmd⟩ := completed_control (i := .enc) nofun hbody
  obtain ⟨hrest, hr, -, hbytes⟩ := exec_enc_frame hexec
  have hwp : (e.sunk (4 * s.k.count) cells).bumpCc.wp.toNat = e.wp.toNat - 4 * s.k.count := toNat_sub_ofNat (by omega)
  rw [hcc, hfault, hfcmd] at hrest
  refine ⟨_, hexec, hrest, fun j hj hj4 => hr j hj4 (Nat.not_lt_of_le hj), by omega, by omega,
    fun j hj => hwp ▸ hvalues j hj, fun hzero j hj => ?_, hbytes⟩
  rw [hzero] at hloop
  obtain rfl : s.withStates s.k.count (fun _ => 0x00800000) = e := (Res.ok.inj hloop).1
  exact (withStates_get s _ s.k.count_le.2 (hj.trans_le s.k.count_le.2)).trans (if_pos hj)

end Sys2Proof.Machine
end

/-! ### DEC's groups, byte by byte -/

section
namespace Sys2Proof.Machine

theorem Table.set_comm {α : Type} {n : Nat} (t : Table α n) {i j : Nat} (hi : i < 2 ^ n) (hj : j < 2 ^ n) (hne : i ≠ j)
    (v w : α) : (t.set i v).set j w = (t.set j w).set i v := by
  refine Table.ext_get _ _ fun m hm => ?_
  simp only [Table.get_set _ _ _ _ hi hm, Table.get_set _ _ _ _ hj hm]
  by_cases hmi : m = i
  · simp [hmi, hne]
  · simp [hmi]

/-- A loop whose turns complete completes with other turns that end in the same states. -/
theorem forUp_ok_of_turns {body body' : Nat → State → Res Unit} {n : Nat}
    (h : ∀ i, i < n → ∀ t u, body i t = .ok u () → body' i t = .ok u ()) {s u : State}
    (hloop : forUp n body s = .ok u ()) : forUp n body' s = .ok u () := by
  induction n generalizing u with
  | zero => exact hloop
  | succ n ih =>
    rw [forUp_succ] at hloop
    obtain ⟨t, _, hfirst, hlast⟩ := Res.of_bind_ok hloop
    rw [forUp_succ, ih (fun i hi => h i (by omega)) hfirst]
    exact h n (by omega) t u hlast

/-- What DGET writes to `r[j]` (42_coder_state.md R114). -/
def State.gotState (s : State) (j : Nat) : Word :=
  s.slotFreqs.get (s.slotOf (codePoint s.p (s.r.get j))) * (s.r.get j >>> s.p.exponent) +
    BitVec.ofNat 32 (codePoint s.p (s.r.get j)) - s.slotAdjust.get (s.slotOf (codePoint s.p (s.r.get j)))

/-- What DGET writes to SYMO (42_coder_state.md R114). -/
def State.gotSymbol (s : State) (j : Nat) : Byte := s.symId.get (s.slotOf (codePoint s.p (s.r.get j)))

/-- `s` after `DGET(j) ; MSG[i] <- SYMO`. -/
def State.gotByte (s : State) (j i : Nat) : State :=
  { s with
    r := s.r.set j (s.gotState j)
    symo := s.gotSymbol j
    msg := if i < s.msgCap.toNat then Mem.store s.msg i (s.gotSymbol j) else s.msg }

/-- `DGET(j) ; MSG[i] <- SYMO` cannot raise. -/
theorem getMessageByte_eq (j i : Nat) (s : State) : getMessageByte j i s = .ok (s.gotByte j i) () := by
  change Res.ok (((s.setR j (s.gotState j)).setSymo (s.gotSymbol j)).writeMsg i (s.gotSymbol j)) () = _
  rw [writeMsg_changes_msg, State.writeMsg_msg]
  rfl

/-- Getting a message byte with one state is out of the sight of another's DRENORM (43_interleaved_driver.md R121). -/
theorem renormBlind_gotByte {j m : Nat} (hj : j < 4) (hm : m < 4) (hne : j ≠ m) (i : Nat) :
    RenormBlind (State.gotByte · m i) j where
  getByte s := by
    change (if s.rend ≤ s.rp ∨ s.strCap ≤ s.rp then _ else _) = _
    unfold getByte
    split <;> rfl
  window _ := rfl
  r s := Table.get_set_ne s.r m j _ hm hj hne
  setR s v := by
    have hr : (s.r.set j v).get m = s.r.get m := Table.get_set_ne s.r j m v hj hm hne.symm
    have hstate : (s.setR j v).gotState m = s.gotState m := by
      rw [State.gotState, State.setR_r, hr]
      rfl
    have hsymbol : (s.setR j v).gotSymbol m = s.gotSymbol m := by
      rw [State.gotSymbol, State.setR_r, hr]
      rfl
    change _ = (s.setR j v).gotByte m i
    rw [State.gotByte, State.gotByte, hstate, hsymbol]
    exact congrArg (fun r : Table Word 2 => { (s.gotByte m i) with r := r }) (Table.set_comm s.r hm hj hne.symm _ v)

/-- A group's gets and renormalizations one stream after another make the same of the state as all gets and then all
renormalizations (43_interleaved_driver.md R121). -/
theorem getGroup_of_bytes {k : Nat} (hk : k ≤ 4) (i : Nat) {s u : State} (h : forUp k (getTailByte i) s = .ok u ()) :
    ((forUp k (fun j => getMessageByte j (i + j)) s).bind fun t _ => forUp k drenormBody t) = .ok u () := by
  induction k generalizing u with
  | zero => exact h
  | succ k ih =>
    rw [forUp_succ] at h
    obtain ⟨t, _, hfirst, hlast⟩ := Res.of_bind_ok h
    obtain ⟨v, _, hgets, hrenorms⟩ := Res.of_bind_ok (ih (by omega) hfirst)
    rw [getTailByte, getMessageByte_eq, Res.bind_ok] at hlast
    have hcomm : forUp k drenormBody (v.gotByte k (i + k)) = .ok (t.gotByte k (i + k)) () :=
      (forUp_onState (f := (State.gotByte · k (i + k))) k
        (fun j hj => (renormBlind_gotByte (by omega) (by omega) (by omega) _).drenormBody_onState) v).trans
        (congrArg (Res.onState _) hrenorms)
    rw [forUp_succ, hgets, Res.bind_ok, getMessageByte_eq, Res.bind_ok, forUp_succ, hcomm, Res.bind_ok, hlast]

/-- Message byte `i` got with its state, `i mod K`, which is then renormalized. -/
def getSymbol (k i : Nat) : State → Res Unit := getTailByte (i - i % k) (i % k)

/-- DEC completes as one loop over the message does that renormalizes each state as soon as its byte is got. -/
theorem decBody_of_loop {s t u : State} (hstart : forUp s.k.count dinitBody s = .ok t ())
    (hloop : forUp s.len.toNat (getSymbol s.k.count) t = .ok u ()) : decBody s = .ok u () := by
  obtain ⟨k, hk⟩ : ∃ k, k = s.k.count := ⟨_, rfl⟩
  obtain ⟨n, hn⟩ : ∃ n, n = s.len.toNat := ⟨_, rfl⟩
  have hk4 : k ≤ 4 := hk ▸ s.k.count_le.2
  have hsymbol : ∀ g j, j < k → getSymbol k (g * k + j) = getTailByte (g * k) j := fun g j hj => by
    rw [getSymbol, Nat.mul_comm g k, Nat.mul_add_mod, Nat.mod_eq_of_lt hj, Nat.add_sub_cancel]
  have hsplit : n = n / k * k + n % k := by rw [Nat.mul_comm, Nat.div_add_mod]
  rw [← hk, ← hn, hsplit, forUp_add, forUp_mul] at hloop
  rw [decBody, ← hk, ← hn, hk, hstart, ← hk, Res.bind_ok]
  obtain ⟨v, _, hgroups, htail⟩ := Res.of_bind_ok hloop
  have hdone : forUp (n / k) (getGroup k) t = .ok v () := forUp_ok_of_turns (fun g _ w w' h =>
    getGroup_of_bytes hk4 (g * k) (forUp_ok_of_turns (fun j hj x x' hx => hsymbol g j hj ▸ hx) h)) hgroups
  rw [hdone, Res.bind_ok]
  refine forUp_ok_of_turns (fun j hj x x' hx => ?_) htail
  rwa [hsymbol _ j (hj.trans (Nat.mod_lt n (hk ▸ s.k.count_le.1))), show n / k * k = n - n % k by omega] at hx

end Sys2Proof.Machine
end

/-! ### DEC completes -/

section
namespace Sys2Proof.Machine

theorem getSymbol_eq (k i : Nat) (s : State) :
    getSymbol k i s = drenormBody (i % k) (s.gotByte (i % k) i) := by
  rw [getSymbol, getTailByte, getMessageByte_eq, Res.bind_ok, Nat.sub_add_cancel (Nat.mod_le i k)]

theorem gotByte_readMsg (s : State) {i : Nat} (hi : i < s.msgCap.toNat) (j x : Nat) :
    (s.gotByte j i).readMsg x = if x = i then s.gotSymbol j else s.readMsg x := by
  have hwrite : (s.gotByte j i).readMsg x = (s.writeMsg i (s.gotSymbol j)).readMsg x :=
    State.readMsg_congr (t := s.gotByte j i) (State.writeMsg_msg s i _).symm
      (State.writeMsg_bufEpoch s i _).symm x
  rw [hwrite, State.readMsg_writeMsg]
  exact if_congr (and_iff_left hi) rfl rfl

theorem gotSymbol_toNat (s : State) (j : Nat) :
    (s.gotSymbol j).toNat = s.decodeSym ((s.r.get j).toNat % 2 ^ s.p.exponent) := by
  rw [State.gotSymbol, slotOf_eq_decodeSlot, State.decodeSym_eq]
  rfl

/-- DGET on a finished table, in exact numbers: the frequency times the quotient, and an offset below the frequency
(42_coder_state.md R114). -/
theorem gotState_toNat {s : State} (hm : ModelOk s) (table : TableOk s) (j : Nat) :
    ∃ f d, 0 < f ∧ (s.gotState j).toNat = f * ((s.r.get j).toNat / 2 ^ s.p.exponent) + d := by
  obtain ⟨x, hx⟩ : ∃ x, x = s.r.get j := ⟨_, rfl⟩
  obtain ⟨m, hmass⟩ : ∃ m, m = 2 ^ s.p.exponent := ⟨_, rfl⟩
  obtain ⟨slot, hslot⟩ : ∃ slot, slot = s.decodeSlot (x.toNat % m) := ⟨_, rfl⟩
  obtain ⟨offset, hoffset⟩ : ∃ w, w = BitVec.ofNat 32 (x.toNat % m) - s.slotAdjust.get slot := ⟨_, rfl⟩
  have he := s.p.exponent_range
  have hcode : x.toNat % m < 2 ^ s.p.exponent := by
    rw [hmass]
    exact Nat.mod_lt _ (Nat.two_pow_pos _)
  have hdelta := (table.decodeThenRemap _ hcode).1
  have hfreq := table.slotFreq _ hcode
  have hle := hm.freq_le (sym := s.decodeSym (x.toNat % m)) (s.symId.get _).isLt
  rw [← hfreq, State.decodeFreq_eq, ← hslot] at hdelta hle
  rw [State.decodeDelta_eq, ← hslot, ← hoffset] at hdelta
  have hquot : (x >>> s.p.exponent).toNat = x.toNat / m := by
    rw [BitVec.toNat_ushiftRight, Nat.shiftRight_eq_div_pow, hmass]
  have hexact : (s.slotFreqs.get slot).toNat * (x.toNat / m) + offset.toNat < 2 ^ 32 := by
    have hword : 2 ^ 32 = m * 2 ^ (32 - s.p.exponent) := by
      rw [hmass, ← Nat.pow_add, Nat.add_sub_cancel' (by omega)]
    have hq : x.toNat / m < 2 ^ (32 - s.p.exponent) := Nat.div_lt_of_lt_mul (hword ▸ x.isLt)
    calc (s.slotFreqs.get slot).toNat * (x.toNat / m) + offset.toNat
        < (s.slotFreqs.get slot).toNat * (x.toNat / m + 1) := by rw [Nat.mul_succ]; omega
      _ ≤ m * 2 ^ (32 - s.p.exponent) := Nat.mul_le_mul (hmass ▸ hle) hq
      _ = 2 ^ 32 := hword.symm
  refine ⟨(s.slotFreqs.get slot).toNat, offset.toNat, by omega, ?_⟩
  have hslot' : s.slotOf (codePoint s.p x) = slot := by
    rw [slotOf_eq_decodeSlot, codePoint, Scale.mass, ← hmass, hslot]
  rw [State.gotState, ← hx, hslot', codePoint, Scale.mass, ← hmass, add_sub_assoc, ← hoffset, BitVec.toNat_add,
    BitVec.toNat_mul, hquot, Nat.mod_add_mod, Nat.mod_eq_of_lt hexact]

/-- DGET leaves at least `2^7` of a state of the interval or above, so that two bytes bring it back. -/
theorem gotState_ge {s : State} (hm : ModelOk s) (table : TableOk s) {j : Nat} (hx : 2 ^ 23 ≤ (s.r.get j).toNat) :
    2 ^ 7 ≤ (s.gotState j).toNat := by
  obtain ⟨f, d, hf, hvalue⟩ := gotState_toNat hm table j
  have he := s.p.exponent_range
  have hquot : 2 ^ (23 - s.p.exponent) ≤ (s.r.get j).toNat / 2 ^ s.p.exponent := by
    rw [Nat.le_div_iff_mul_le (Nat.two_pow_pos _), ← Nat.pow_add, Nat.sub_add_cancel (by omega)]
    exact hx
  calc 2 ^ 7 ≤ 2 ^ (23 - s.p.exponent) := Nat.pow_le_pow_right (by omega) (by omega)
    _ ≤ (s.r.get j).toNat / 2 ^ s.p.exponent := hquot
    _ ≤ f * ((s.r.get j).toNat / 2 ^ s.p.exponent) := Nat.le_mul_of_pos_left _ hf
    _ ≤ (s.gotState j).toNat := hvalue ▸ Nat.le_add_right _ _

/-- DRENORM of a state of at least `2^7` reads at most two bytes. -/
theorem drenormBody_two {s : State} {j : Nat} (hj : j < 4) (hx : 2 ^ 7 ≤ (s.r.get j).toNat) (hwin : 2 ≤ s.window) :
    ∃ m v, m ≤ 2 ∧ 2 ^ 23 ≤ v.toNat ∧
      drenormBody j s = .ok ((s.setRp (s.rp + BitVec.ofNat 64 m)).setR j v) () := by
  have htwo : lowerBound ≤ s.shiftedIn (s.r.get j).toNat s.rp.toNat 2 := by
    change 2 ^ 23 ≤ ((s.r.get j).toNat * 256 + _) * 256 + _
    omega
  have hex : ∃ m, lowerBound ≤ s.shiftedIn (s.r.get j).toNat s.rp.toNat m := ⟨2, htwo⟩
  have hle := Nat.find_min' hex htwo
  have hlt : ∀ i, i < Nat.find hex → s.shiftedIn (s.r.get j).toNat s.rp.toNat i < lowerBound := fun i hi =>
    Nat.lt_of_not_le (Nat.find_min hex hi)
  have hfit := shiftedIn_lt_two_pow hlt
  refine ⟨Nat.find hex, _, hle, ?_, drenormBody_ok hj (hle.trans hwin) hlt (Nat.find_spec hex) hfit⟩
  rw [BitVec.toNat_ofNat, Nat.mod_eq_of_lt hfit]
  exact Nat.find_spec hex

/-- A message byte got on a finished table from a state of the interval or above, with two bytes in the window. -/
theorem getSymbol_completes {s : State} {k i j : Nat} (hm : ModelOk s) (table : TableOk s) (hj : j = i % k)
    (hj4 : j < 4) (hx : 2 ^ 23 ≤ (s.r.get j).toNat) (hwin : 2 ≤ s.window) :
    ∃ m v, m ≤ 2 ∧ 2 ^ 23 ≤ v.toNat ∧
      getSymbol k i s = .ok (((s.gotByte j i).setRp (s.rp + BitVec.ofNat 64 m)).setR j v) () := by
  have hgot : 2 ^ 7 ≤ ((s.gotByte j i).r.get j).toNat :=
    (congrArg BitVec.toNat (Table.get_set_self s.r j (s.gotState j))).symm ▸ gotState_ge hm table hx
  rw [getSymbol_eq, ← hj]
  exact drenormBody_two hj4 hgot hwin

/-- Getting a message byte writes one coder state. -/
theorem symbolGot_get (s : State) {j l : Nat} (hj : j < 4) (hl : l < 4) (i : Nat) (rp : DWord) (v : Word) :
    (((s.gotByte j i).setRp rp).setR j v).r.get l = if l = j then v else s.r.get l := by
  change ((s.r.set j (s.gotState j)).set j v).get l = _
  rw [Table.set_set, Table.get_set _ _ _ _ hj hl]

/-- `s` with everything DEC writes as in `t` (43_interleaved_driver.md R121). -/
def State.withDecoded (s t : State) : State := { s with r := t.r, rp := t.rp, symo := t.symo, msg := t.msg }

/-- The value DEC starts stream `j` from. -/
def State.startState (s : State) (j : Nat) : Nat := s.littleEndian (s.rp.toNat + 4 * j) 4

/-- DEC from `s`, the first `i` message bytes decoded: every state is in the interval or above, and each of the first
`K` bytes is the symbol its start state decodes to (43_interleaved_driver.md R121). -/
structure DecodeProgress (s : State) (i : Nat) (t : State) : Prop where
  rest : t = s.withDecoded t
  interval : ∀ j, j < s.k.count → 2 ^ 23 ≤ (t.r.get j).toNat
  rpLow : s.rp.toNat + 4 * s.k.count ≤ t.rp.toNat
  rpHigh : t.rp.toNat ≤ s.rp.toNat + 4 * s.k.count + 2 * i
  fresh : ∀ j, j < s.k.count → i ≤ j → (t.r.get j).toNat = s.startState j
  decoded : ∀ j, j < s.k.count → j < i → (t.readMsg j).toNat = s.decodeSym (s.startState j % 2 ^ s.p.exponent)

theorem startState_lt (s : State) (j : Nat) : s.startState j < 2 ^ 32 := littleEndian_lt s _ 4

theorem decodeProgress_start {s : State} (hwin : 4 * s.k.count ≤ s.window)
    (hstart : ∀ j, j < s.k.count → 2 ^ 23 ≤ s.startState j) :
    DecodeProgress s 0 ((s.setRp (s.rp + BitVec.ofNat 64 (4 * s.k.count))).withStates s.k.count fun j =>
      BitVec.ofNat 32 (s.startState j)) := by
  set t := (s.setRp (s.rp + BitVec.ofNat 64 (4 * s.k.count))).withStates s.k.count fun j =>
    BitVec.ofNat 32 (s.startState j)
  have hr : ∀ j, j < s.k.count → (t.r.get j).toNat = s.startState j := fun j hj => by
    rw [withStates_get _ _ s.k.count_le.2 (hj.trans_le s.k.count_le.2), if_pos hj, BitVec.toNat_ofNat,
      Nat.mod_eq_of_lt (startState_lt s j)]
  have hrp : t.rp.toNat = s.rp.toNat + 4 * s.k.count := toNat_add_ofNat (rp_add_lt hwin)
  exact ⟨rfl, fun j hj => hr j hj ▸ hstart j hj, hrp.ge, hrp.le, fun j hj _ => hr j hj,
    fun _ _ h => absurd h (Nat.not_lt_zero _)⟩

theorem DecodeProgress.step {s t : State} {i : Nat} (h : DecodeProgress s i t) (hm : ModelOk s) (table : TableOk s)
    (hi : i < s.len.toNat) (hlen : s.len.toNat ≤ s.msgCap.toNat)
    (hwin : 4 * s.k.count + 2 * s.len.toNat ≤ s.window) :
    ∃ u, getSymbol s.k.count i t = .ok u () ∧ DecodeProgress s (i + 1) u := by
  obtain ⟨hrest, hinterval, hlow, hhigh, hfresh, hdecoded⟩ := h
  have hframe : ∀ u, u = t.withDecoded u → u = s.withDecoded u := fun u hu =>
    hu.trans (congrArg (State.withDecoded · u) hrest :)
  have hpart : t.modelPart = s.modelPart := (congrArg State.modelPart hrest :)
  have hp : t.p = s.p := (congrArg State.p hrest :)
  have hcap : t.msgCap = s.msgCap := (congrArg State.msgCap hrest :)
  have hsym : ∀ y, t.decodeSym y = s.decodeSym y := fun y => (congrArg (State.decodeSym · y) hrest :)
  have hroom : t.window = min s.rend.toNat s.strCap.toNat - t.rp.toNat := (congrArg State.window hrest :)
  rw [State.window] at hwin
  obtain ⟨j, hj⟩ : ∃ j, j = i % s.k.count := ⟨_, rfl⟩
  have hjk : j < s.k.count := hj ▸ Nat.mod_lt i s.k.count_le.1
  have hj4 : j < 4 := hjk.trans_le s.k.count_le.2
  obtain ⟨m, v, hm2, hv, hget⟩ := getSymbol_completes (hm.of_modelPart hpart) (table.of_modelPart hpart) hj hj4
    (hinterval j hjk) (by omega)
  have hrp : (t.rp + BitVec.ofNat 64 m).toNat = t.rp.toNat + m := toNat_add_ofNat (rp_add_lt (by omega))
  refine ⟨_, hget, hframe _ rfl, fun l hl => ?_, hrp ▸ (by omega), hrp ▸ (by omega), fun l hl hil => ?_,
    fun l hl hli => ?_⟩
  · rw [symbolGot_get t hj4 (hl.trans_le s.k.count_le.2)]
    split
    · exact hv
    · exact hinterval l hl
  · have hne : l ≠ j := by
      rintro rfl
      rw [Nat.mod_eq_of_lt (by omega)] at hj
      omega
    rw [symbolGot_get t hj4 (hl.trans_le s.k.count_le.2), if_neg hne, hfresh l hl (by omega)]
  · change ((t.gotByte j i).readMsg l).toNat = _
    rw [gotByte_readMsg t (by rw [hcap]; omega)]
    split
    next heq =>
      subst heq
      rw [Nat.mod_eq_of_lt hl] at hj
      rw [gotSymbol_toNat, hsym, hp, hj, hfresh l hl (Nat.le_refl l)]
    next hne => exact hdecoded l hl (by omega)

/-- Settles O51: the loop takes at most two bytes a symbol; and DEC's pseudocode is its primitives' in one stretch. -/
theorem decCompletes : Obligations.DecCompletes := by
  refine ⟨fun s hf hlen htv hm table hwin hstart => ?_, fun s t => exec_dec_eq_driveAll⟩
  obtain ⟨u, hloop, hprogress⟩ := forUp_completes (P := DecodeProgress s) (body := getSymbol s.k.count) s.len.toNat
    (fun i hi t h => h.step hm table hi hlen hwin) (decodeProgress_start (by omega) hstart)
  have hexec := exec_completed (i := .dec) nofun hf ⟨hlen, .inr htv⟩
    (decBody_of_loop (forUp_dinitBody (by omega)) hloop)
  obtain ⟨-, hr, hmsg⟩ := (sourceCommandFrame s _).2.2 hexec
  exact ⟨_, hexec, congrArg State.bumpCc hprogress.rest, hr, hmsg, hprogress.decoded, hprogress.rpLow,
    hprogress.rpHigh⟩

end Sys2Proof.Machine
end

/-! ### DEC decodes what ENC encoded (43_interleaved_driver.md R122) -/

section
namespace Sys2Proof.Machine

/-! #### One byte put, and got back -/

/-- EPUT of `sym`, which has a frequency, on a state `r[j]` of the interval: it sheds `n` bytes, at most two, and puts
the quotient and the code point, which are a state `v` of the interval (42_coder_state.md R116). -/
structure PutInInterval (s : State) (j : Nat) (sym : Byte) (n : Nat) (cells : List Host.Cell) (v : Word) : Prop where
  freq : 0 < (s.freq.get sym.toNat).toNat
  start : InInterval (s.r.get j)
  count : n ≤ 2
  body : eputBody j sym.toNat s = .ok ((s.sunk n cells).setR j v) ()
  pushed : Pushed s (s.sunk n cells) n fun i => byteOf (s.r.get j).toNat i
  interval : InInterval v
  value : v.toNat = (s.r.get j).toNat / 256 ^ n / (s.freq.get sym.toNat).toNat * 2 ^ s.p.exponent +
    (s.aliasRemap.get ((s.cum.entry sym.toNat).toNat +
      (s.r.get j).toNat / 256 ^ n % (s.freq.get sym.toNat).toNat)).toNat

theorem eputBody_in_interval {s : State} (hm : ModelOk s) (table : TableOk s) {j : Nat} {sym : Byte} (hj : j < 4)
    (hfreq : s.freq.get sym.toNat ≠ 0) (hint : InInterval (s.r.get j)) (hw : 2 ≤ s.wp.toNat)
    (hc : s.wp.toNat ≤ s.strCap.toNat) : ∃ n cells v, PutInInterval s j sym n cells v := by
  obtain ⟨f, hf⟩ : ∃ f, f = (s.freq.get sym.toNat).toNat := ⟨_, rfl⟩
  obtain ⟨x, hx⟩ : ∃ x, x = (s.r.get j).toNat := ⟨_, rfl⟩
  obtain ⟨n, hn⟩ : ∃ n, n = emitCount (2 ^ (31 - s.p.exponent) * f) x := ⟨_, rfl⟩
  have hpos : 0 < f := Nat.pos_of_ne_zero fun h => hfreq (BitVec.eq_of_toNat_eq (hf ▸ h))
  have hfrange : 0 < f ∧ f ≤ 2 ^ s.p.exponent := ⟨hpos, hf ▸ hm.freq_le sym.isLt⟩
  have hxrange : 2 ^ 23 ≤ x ∧ x < 2 ^ 31 := hx ▸ hint
  obtain ⟨-, hge, hlt⟩ := emitCount_of_counted (s.r.get j) hfreq rfl
  rw [← hf, ← hx, ← hn] at hge hlt
  have hn2 := emitted_le_two s.p.exponent_range hfrange hxrange hge
  have hcode := (table.remapThenDecode sym.toNat sym.isLt (x / 256 ^ n % f) (hf ▸ Nat.mod_lt _ hpos)).1
  have hinterval := put_in_interval s.p.exponent_range hfrange hxrange hge hlt hcode
  obtain ⟨cells, hput, hpushed⟩ := eputBody_ok (n := n) hj hfreq (by rw [← hf, ← hx]; exact hn) (by omega) hc
  have hm' : ModelOk (s.sunk n cells) := { hm with }
  rw [← hx, putSymbol_setR hm' j sym.isLt (hf ▸ hpos) (hx ▸ emitted_lt_two_pow _ n)] at hput
  obtain ⟨v, hv⟩ : ∃ v, v = BitVec.ofNat 32 (x / 256 ^ n / f * 2 ^ s.p.exponent) +
      s.aliasRemap.get ((s.cum.entry sym.toNat).toNat + x / 256 ^ n % f) := ⟨_, rfl⟩
  have hvalue : v.toNat = x / 256 ^ n / f * 2 ^ s.p.exponent +
      (s.aliasRemap.get ((s.cum.entry sym.toNat).toNat + x / 256 ^ n % f)).toNat := by
    rw [hv, BitVec.toNat_add, BitVec.toNat_ofNat, Nat.mod_eq_of_lt (a := _ / _ * _) (by omega)]
    exact Nat.mod_eq_of_lt (by omega)
  exact ⟨n, cells, v, hf ▸ hpos, hint, hn2, by rw [hv, hf]; exact hput, hpushed,
    by rw [InInterval, hvalue]; exact hinterval, hf ▸ hx ▸ hvalue⟩

/-- DGET on a state that EPUT of `sym` built from `y` (42_coder_state.md R116). -/
theorem got_of_put {s : State} (table : TableOk s) {j y : Nat} {sym : Byte} (hf : 0 < (s.freq.get sym.toNat).toNat)
    (hr : (s.r.get j).toNat = y / (s.freq.get sym.toNat).toNat * 2 ^ s.p.exponent +
      (s.aliasRemap.get ((s.cum.entry sym.toNat).toNat + y % (s.freq.get sym.toNat).toNat)).toNat) :
    s.gotState j = BitVec.ofNat 32 y ∧ s.gotSymbol j = sym := by
  have hbody := dgetBody_of_put table sym.isLt hf hr
  change Res.ok ((s.setR j (s.gotState j)).setSymo (s.gotSymbol j)) () = _ at hbody
  rw [BitVec.ofNat_toNat, BitVec.setWidth_eq] at hbody
  have hstate := (Res.ok.inj hbody).1
  have hj := congrArg (fun t : State => t.r.get j) hstate
  simp only [State.setSymo_r, State.setR_r, Table.get_set_self] at hj
  exact ⟨hj, congrArg State.symo hstate⟩

/-- A message byte got by `d`, with the model of `s`, from what EPUT of `sym` left of `s`, the bytes it shed next in the
window: the state of `s` is back, and RP is past those bytes (42_coder_state.md R116). -/
theorem PutInInterval.getSymbol_ok {s d : State} {j n k i : Nat} {sym : Byte} {cells : List Host.Cell} {v : Word}
    (put : PutInInterval s j sym n cells v) (hpart : d.modelPart = s.modelPart) (table : TableOk d) (hj : j = i % k)
    (hj4 : j < 4) (hr : d.r.get j = v) (hwin : n ≤ d.window)
    (hbytes : ∀ m, m < n → d.readStr (d.rp.toNat + n - 1 - m) = byteOf (s.r.get j).toNat m) :
    d.gotSymbol j = sym ∧
      getSymbol k i d = .ok (((d.gotByte j i).setRp (d.rp + BitVec.ofNat 64 n)).setR j (s.r.get j)) () := by
  obtain ⟨x, hx⟩ : ∃ x, x = (s.r.get j).toNat := ⟨_, rfl⟩
  have hfreq : d.freq = s.freq := (congrArg State.freq hpart :)
  have hcum : d.cum = s.cum := (congrArg State.cum hpart :)
  have hremap : d.aliasRemap = s.aliasRemap := (congrArg State.aliasRemap hpart :)
  have hp : d.p = s.p := (congrArg State.p hpart :)
  have hrange : 2 ^ 23 ≤ x ∧ x < 2 ^ 31 := hx ▸ put.start
  obtain ⟨hstate, hsymbol⟩ := got_of_put (y := x / 256 ^ n) table (hfreq ▸ put.freq)
    (by rw [hr, hfreq, hcum, hremap, hp, hx]; exact put.value)
  refine ⟨hsymbol, ?_⟩
  rw [← hx] at hbytes
  set t := d.gotByte j i
  have htr : (t.r.get j).toNat = x / 256 ^ n := by
    have hle := Nat.div_le_self x (256 ^ n)
    change ((d.r.set j (d.gotState j)).get j).toNat = _
    rw [hstate, Table.get_set_self, BitVec.toNat_ofNat, Nat.mod_eq_of_lt (by omega)]
  have hshift : ∀ i, i ≤ n → t.shiftedIn (t.r.get j).toNat t.rp.toNat i = x / 256 ^ (n - i) :=
    htr ▸ shiftedIn_shed (s := t) (a := t.rp.toNat) hbytes
  have hall : t.shiftedIn (t.r.get j).toNat t.rp.toNat n = x := by
    rw [hshift n (Nat.le_refl n), Nat.sub_self, Nat.pow_zero, Nat.div_one]
  have hlow : ∀ i, i < n → t.shiftedIn (t.r.get j).toNat t.rp.toNat i < lowerBound := by
    intro i hi
    rw [hshift i hi.le, show n - i = n - i - 1 + 1 by omega, Nat.pow_succ, Nat.mul_comm, ← Nat.div_div_eq_div_mul]
    refine (Nat.div_le_self _ _).trans_lt ?_
    change x / 256 < 2 ^ 23
    omega
  have hrenorm := drenormBody_ok (s := t) hj4 hwin hlow (hall ▸ hrange.1) (by omega)
  rw [hall, hx, BitVec.ofNat_toNat, BitVec.setWidth_eq] at hrenorm
  rw [getSymbol_eq, ← hj]
  exact hrenorm

/-! #### The whole message -/

/-- The decoder state `d` is about to undo the encoder state `e` of a message of `s`: the same coder states, RP at `e`'s
WP and the bytes from there up to `s`'s WP, and the first `i` message bytes already back. -/
structure Mirrors (s e : State) (i : Nat) (d : State) : Prop where
  model : d.modelPart = s.modelPart
  msgCap : d.msgCap = s.msgCap
  strCap : d.strCap = s.strCap
  rend : d.rend = s.wp
  r : ∀ j, j < s.k.count → d.r.get j = e.r.get j
  rp : d.rp = e.wp
  bytes : ∀ a, e.wp.toNat ≤ a → a < s.wp.toNat → d.readStr a = e.readStr a
  msg : ∀ x, x < i → d.readMsg x = s.readMsg x

/-- From every decoder state that mirrors `e`, DEC's loop gives back the rest of the message, takes the bytes up to
`s`'s WP, and ends with every state at `L`. -/
def Undone (s e : State) (i : Nat) : Prop :=
  ∀ d, Mirrors s e i d → ∃ u, forUp (s.len.toNat - i) (fun x => getSymbol s.k.count (i + x)) d = .ok u () ∧
    (∀ x, x < s.len.toNat → u.readMsg x = s.readMsg x) ∧ u.rp = s.wp ∧
      ∀ j, j < s.k.count → u.r.get j = 0x00800000

theorem forUp_succ_first (n : Nat) (body : Nat → State → Res Unit) (s : State) :
    forUp (n + 1) body s = (body 0 s).bind fun t _ => forUp n (fun i => body (i + 1)) t := by
  rw [Nat.add_comm, forUp_add, show forUp 1 body s = body 0 s from rfl]
  simp only [Nat.add_comm 1]

/-- What holds of ENC's state once the bytes of the message from `i` on are put. -/
structure EncodeProgress (s : State) (i : Nat) (e : State) : Prop where
  frame : PutFrame (· < s.k.count) s e
  interval : ∀ j, j < s.k.count → InInterval (e.r.get j)
  room : 4 * s.k.count + 2 * i ≤ e.wp.toNat
  undone : Undone s e i

theorem encodeProgress_start {s : State} (hroom : 4 * s.k.count + 2 * s.len.toNat ≤ s.wp.toNat) :
    EncodeProgress s s.len.toNat (s.withStates s.k.count fun _ => 0x00800000) where
  frame := putFrame_withStates _
  interval j hj := by
    rw [withStates_get _ _ s.k.count_le.2 (hj.trans_le s.k.count_le.2), if_pos hj, InInterval]
    decide
  room := hroom
  undone d h := by
    refine ⟨d, by rw [Nat.sub_self]; rfl, h.msg, h.rp, fun j hj => ?_⟩
    rw [h.r j hj, withStates_get _ _ s.k.count_le.2 (hj.trans_le s.k.count_le.2), if_pos hj]

/-- Getting byte `i` from a decoder state that mirrors ENC's state after it was put leaves one that mirrors the state
before. -/
theorem Mirrors.getSymbol_ok {s e : State} {i j n : Nat} {cells : List Host.Cell} {v : Word} {d : State}
    (h : Mirrors s ((e.sunk n cells).setR j v) i d) (put : PutInInterval e j (s.readMsg i) n cells v)
    (hframe : PutFrame (· < s.k.count) s e) (table : TableOk s) (hj : j = i % s.k.count) (hn : n ≤ e.wp.toNat)
    (hc : s.wp.toNat ≤ s.strCap.toNat) (hi : i < s.msgCap.toNat) :
    ∃ u, getSymbol s.k.count i d = .ok u () ∧ Mirrors s e (i + 1) u := by
  obtain ⟨hmodel, hmsgCap, hstrCap, hrend, hr, hrp, hbytes, hmsg⟩ := h
  have hjk : j < s.k.count := hj ▸ Nat.mod_lt i s.k.count_le.1
  have hj4 : j < 4 := hjk.trans_le s.k.count_le.2
  have hhigh := hframe.high
  have hpart : e.modelPart = s.modelPart := (congrArg State.modelPart hframe.rest :)
  have hwp : ((e.sunk n cells).setR j v).wp.toNat = e.wp.toNat - n := toNat_sub_ofNat hn
  have hdrp : d.rp.toNat = e.wp.toNat - n := hrp ▸ hwp
  have hwin : n ≤ d.window := by
    rw [State.window, hrend, hstrCap, hdrp]
    omega
  obtain ⟨hsymbol, hget⟩ := put.getSymbol_ok (hmodel.trans hpart.symm) (table.of_modelPart hmodel) hj hj4
    ((hr j hjk).trans (Table.get_set_self _ _ _)) hwin fun m hm => by
      rw [hbytes _ (by omega) (by omega), show d.rp.toNat + n - 1 - m = e.wp.toNat - 1 - m by omega]
      exact put.pushed.1 m hm
  refine ⟨_, hget, hmodel, hmsgCap, hstrCap, hrend, fun l hl => ?_, ?_, fun a ha has => ?_, fun y hy => ?_⟩
  · have hl4 := hl.trans_le s.k.count_le.2
    rw [symbolGot_get d hj4 hl4]
    split
    next heq => rw [heq]
    next hne => exact (hr l hl).trans (Table.get_set_ne _ _ _ _ hj4 hl4 hne)
  · change d.rp + BitVec.ofNat 64 n = e.wp
    rw [hrp]
    exact BitVec.sub_add_cancel _ _
  · exact (hbytes a (by omega) has).trans (put.pushed.2 a (.inr ha))
  · change (d.gotByte j i).readMsg y = _
    rw [gotByte_readMsg d (hmsgCap ▸ hi)]
    split
    next heq => rw [hsymbol, heq]
    next hne => exact hmsg y (by omega)

theorem EncodeProgress.step {s e : State} {i : Nat} (h : EncodeProgress s (i + 1) e) (hm : ModelOk s)
    (table : TableOk s) (hfreq : s.freq.get (s.readMsg i).toNat ≠ 0) (hi : i < s.len.toNat)
    (hlen : s.len.toNat ≤ s.msgCap.toNat) (hc : s.wp.toNat ≤ s.strCap.toNat) :
    ∃ e', putMessageByte s.k.count i e = .ok e' () ∧ EncodeProgress s i e' := by
  obtain ⟨hframe, hinterval, hroom, hundone⟩ := h
  obtain ⟨j, hj⟩ : ∃ j, j = i % s.k.count := ⟨_, rfl⟩
  have hjk : j < s.k.count := hj ▸ Nat.mod_lt i s.k.count_le.1
  have hj4 : j < 4 := hjk.trans_le s.k.count_le.2
  have hpart : e.modelPart = s.modelPart := (congrArg State.modelPart hframe.rest :)
  have hcap : e.strCap = s.strCap := (congrArg State.strCap hframe.rest :)
  have hsym : e.readMsg i = s.readMsg i :=
    State.readMsg_congr (s := s) (congrArg State.msg hframe.rest :) (congrArg State.bufEpoch hframe.rest :) i
  rw [← hframe.freq_readMsg] at hfreq
  obtain ⟨n, cells, v, put⟩ := eputBody_in_interval (hm.of_modelPart hpart) (table.of_modelPart hpart) hj4 hfreq
    (hinterval j hjk) (by omega) (hcap ▸ hframe.high.trans hc)
  have hn := put.count
  have hbyte : putMessageByte s.k.count i e = .ok ((e.sunk n cells).setR j v) () := by
    rw [putMessageByte, ← hj, put.body]
  have hwp : ((e.sunk n cells).setR j v).wp.toNat = e.wp.toNat - n := toNat_sub_ofNat (by omega)
  refine ⟨_, hbyte, hframe.putMessageByte_ok hbyte, fun l hl => ?_, by omega, fun d hd => ?_⟩
  · change InInterval ((e.r.set j v).get l)
    rw [Table.get_set e.r j l v hj4 (hl.trans_le s.k.count_le.2)]
    split
    · exact put.interval
    · exact hinterval l hl
  · obtain ⟨d', hfirst, hd'⟩ := hd.getSymbol_ok (hsym ▸ put) hframe table hj (by omega) hc (by omega)
    obtain ⟨u, hloop, hback⟩ := hundone d' hd'
    refine ⟨u, ?_, hback⟩
    rw [show s.len.toNat - i = s.len.toNat - (i + 1) + 1 by omega, forUp_succ_first]
    simp only [Nat.add_zero, hfirst, Res.bind_ok]
    simpa only [Nat.add_assoc, Nat.add_comm 1] using hloop

/-- The state DEC is given: the host has moved RP to the payload's start and REND to its end, whatever it has done to
MSG. -/
def State.received (t : State) (other : List Host.Cell) (rend : DWord) : State :=
  { t with msg := other, rp := t.wp, rend := rend }

/-- DEC's start reads back the states that ENC flushed, and stands before the bytes that ENC's loop pushed
(43_interleaved_driver.md R123). -/
theorem dinits_of_flushes {s e : State} {cells : List Host.Cell} (other : List Host.Cell)
    (hframe : PutFrame (· < s.k.count) s e) (hlow : 4 * s.k.count ≤ e.wp.toNat) (hc : s.wp.toNat ≤ s.strCap.toNat)
    (hvalues : ∀ j, j < s.k.count → (e.sunk (4 * s.k.count) cells).littleEndian
      (e.wp.toNat - 4 * s.k.count + 4 * j) 4 = (e.r.get j).toNat)
    (habove : ∀ a, e.wp.toNat ≤ a → (e.sunk (4 * s.k.count) cells).readStr a = e.readStr a) :
    ∃ d, forUp s.k.count dinitBody ((e.sunk (4 * s.k.count) cells).bumpCc.received other s.wp) = .ok d () ∧
      Mirrors s e 0 d := by
  have hhigh := hframe.high
  have hcap : e.strCap = s.strCap := (congrArg State.strCap hframe.rest :)
  obtain ⟨d, hdef⟩ : ∃ d, d = (e.sunk (4 * s.k.count) cells).bumpCc.received other s.wp := ⟨_, rfl⟩
  have hrp : d.rp = e.wp - BitVec.ofNat 64 (4 * s.k.count) := hdef ▸ rfl
  have hwp : d.rp.toNat = e.wp.toNat - 4 * s.k.count := hrp ▸ toNat_sub_ofNat hlow
  have hstr : ∀ a, d.readStr a = (e.sunk (4 * s.k.count) cells).readStr a := fun a => hdef ▸ rfl
  have hrend : d.rend = s.wp := hdef ▸ rfl
  have hdcap : d.strCap = s.strCap := (hdef ▸ rfl : d.strCap = e.strCap).trans hcap
  have hwin : 4 * s.k.count ≤ d.window := by
    rw [State.window, hrend, hdcap]
    omega
  rw [← hdef]
  have hmodel : d.modelPart = s.modelPart := by
    have he : e.modelPart = s.modelPart := (congrArg State.modelPart hframe.rest :)
    rw [hdef, ← he]
    simp only [State.modelPart, State.received, State.sunk, State.bumpCc, State.setWp, State.setStr]
  have hmsgCap : d.msgCap = s.msgCap := (hdef ▸ rfl : d.msgCap = e.msgCap).trans (congrArg State.msgCap hframe.rest :)
  refine ⟨_, forUp_dinitBody hwin, hmodel, hmsgCap, hdcap, hrend, fun j hj => ?_, ?_, fun a ha _ => ?_,
    fun x hx => absurd hx (Nat.not_lt_zero x)⟩
  · have hvalue : d.littleEndian (d.rp.toNat + 4 * j) 4 = (e.r.get j).toNat := by
      rw [← hvalues j hj, hwp]
      exact littleEndian_congr hstr _ _
    rw [withStates_get _ _ s.k.count_le.2 (hj.trans_le s.k.count_le.2), if_pos hj, hvalue, BitVec.ofNat_toNat,
      BitVec.setWidth_eq]
  · change d.rp + BitVec.ofNat 64 (4 * s.k.count) = e.wp
    rw [hrp]
    exact BitVec.sub_add_cancel _ _
  · exact (hstr a).trans (habove a ha)

/-- Settles O53: each byte put is undone by the byte got in its place, so ENC's last state is undone by DEC's loop, and
the flushes and DEC's start hand that state over. -/
theorem decodeOfEncodedMessage : Obligations.DecodeOfEncodedMessage := by
  intro s other hf hlen hs htable hfreq hroom
  have hc := hs.wpInside
  have htv : s.len.toNat = 0 ∨ s.tv = true := htable.imp_right And.left
  obtain ⟨e, hputs, hframe, -, hlow, hundone⟩ := forDown_completes (P := EncodeProgress s)
    (body := putMessageByte s.k.count) s.len.toNat
    (fun i hi e h => by
      obtain ⟨-, hm, table⟩ := htable.resolve_left (by omega)
      exact h.step hm table (hfreq i hi) hi hlen hc)
    (encodeProgress_start hroom)
  have hcap : e.strCap = s.strCap := (congrArg State.strCap hframe.rest :)
  obtain ⟨cells, henc, hvalues, habove⟩ := encBody_of_loop hputs (by omega) (hcap ▸ hframe.high.trans hc)
  obtain ⟨d, hstart, hd⟩ := dinits_of_flushes other hframe (by omega) hc hvalues habove
  obtain ⟨u, hgets, hmsg, hrp, hr⟩ := hundone d hd
  simp only [Nat.sub_zero, Nat.zero_add] at hgets
  obtain ⟨-, hfault, -⟩ := completed_control (i := .enc) nofun henc
  have hk : e.k = s.k := (congrArg State.k hframe.rest :)
  have hlen' : e.len = s.len := (congrArg State.len hframe.rest :)
  have hmsgCap : e.msgCap = s.msgCap := (congrArg State.msgCap hframe.rest :)
  have htv' : e.tv = s.tv := (congrArg State.tv hframe.rest :)
  set t := (e.sunk (4 * s.k.count) cells).bumpCc
  have hdec : decBody (t.received other s.wp) = .ok u () :=
    decBody_of_loop (s := t.received other s.wp) (hk ▸ hstart) (by
      change forUp e.len.toNat (getSymbol e.k.count) d = _
      rw [hk, hlen', hgets])
  have hadmitted : AdmittedBySpec .dec (t.received other s.wp) := by
    change e.len.toNat ≤ e.msgCap.toNat ∧ (e.len.toNat = 0 ∨ e.tv = true)
    rw [hlen', hmsgCap, htv']
    exact ⟨hlen, htv⟩
  exact ⟨t, u.bumpCc, exec_completed (i := .enc) nofun hf ⟨hlen, htv⟩ henc,
    exec_completed (i := .dec) nofun (hfault.trans hf) hadmitted hdec,
    (completed_control (i := .dec) nofun hdec).2.1.trans (hfault.trans hf), hmsg, hrp, hr⟩

end Sys2Proof.Machine
end

/-! ### The stream and container commands: SCLR, REWIND, LST, LLD -/

section
namespace Sys2Proof.Machine

/-- Settles O54: two fixed words, and bodies that only write the stream's pointers. -/
theorem sclrAndRewindSetPointers : Obligations.SclrAndRewindSetPointers := by
  refine ⟨by decide, by decide, fun s hf => ⟨?_, ?_⟩⟩
  · exact exec_completed (i := .sclr) nofun hf trivial rfl
  · exact exec_completed (i := .rewind) nofun hf trivial rfl

/-- Settles O55: eight bytes pushed, most significant first. -/
theorem lstPushesLength : Obligations.LstPushesLength := by
  intro s hf hw hc
  obtain ⟨cells, hpush, hpushed⟩ := pushBytes_spec 8 s.len.toNat s hc
  rw [Nat.min_eq_left hw] at hpushed
  refine ⟨_, exec_completed (i := .lst) nofun hf trivial (hpush.trans (if_pos hw)), rfl, ?_, hpushed.2⟩
  exact (hpushed.littleEndian hw).trans (Nat.mod_eq_of_lt s.len.isLt)

/-! #### LLD on a window that holds the eight bytes

The lemmas speak of the value `v` of the bytes, not of `littleEndian`, which the kernel would unfold when it compares
two states. -/

section
variable {s : State} {v : Nat}

/-- The bytes are read before their value is compared with MSG_CAP (44_stream_and_container.md R136). -/
theorem lldBody_full (hwin : 8 ≤ s.window) (hv : s.littleEndian s.rp.toNat 8 = v) :
    lldBody s = if s.msgCap.toNat < v then .raised (s.setRp (s.rp + 8)) .badHeader
      else .ok ((s.setRp (s.rp + 8)).setLen (BitVec.ofNat 64 v)) () := by
  rw [lldBody, pullBytes_spec, if_pos hwin, hv]
  rfl

theorem exec_lld_accepted (hf : s.fault = none) (hwin : 8 ≤ s.window) (hv : s.littleEndian s.rp.toNat 8 = v)
    (hfits : v ≤ s.msgCap.toNat) :
    exec .lld s = .next { s with len := BitVec.ofNat 64 v, rp := s.rp + 8, cc := s.cc + 1 } :=
  exec_completed (i := .lld) nofun hf trivial ((lldBody_full hwin hv).trans (if_neg hfits.not_gt))

theorem exec_lld_badHeader (hf : s.fault = none) (hwin : 8 ≤ s.window) (hv : s.littleEndian s.rp.toNat 8 = v)
    (hover : s.msgCap.toNat < v) :
    exec .lld s = .next { s with rp := s.rp + 8, fault := some .badHeader, fcmd := 0x53000000 } :=
  exec_raised (i := .lld) nofun hf trivial ((lldBody_full hwin hv).trans (if_pos hover))

end

/-- Settles O56: RP moves in both cases, LEN only when the value read is within the bound. -/
theorem lldLoadsLength : Obligations.LldLoadsLength := by
  intro s hf hrend hcap
  have hwin : 8 ≤ s.window := by
    rw [State.window]
    omega
  exact ⟨exec_lld_accepted hf hwin rfl, exec_lld_badHeader hf hwin rfl⟩

end Sys2Proof.Machine
end

/-! ### The system commands: NOP, CFG, SRST -/

section
namespace Sys2Proof.Machine

/-- R71's layout as an or of shifted fields. Bit by bit: `i` lies in one field, and every other field is 0 there. -/
theorem assemble_eq_or (op : Byte) (a : Nibble) (imm : Byte) :
    assemble op a imm = op.setWidth 32 <<< 24 ||| a.setWidth 32 <<< 16 ||| imm.setWidth 32 := by
  refine BitVec.eq_of_getLsbD_eq fun i hi => ?_
  simp only [assemble, BitVec.getLsbD_append, BitVec.getLsbD_or, BitVec.getLsbD_shiftLeft, BitVec.getLsbD_setWidth,
    BitVec.getLsbD_zero]
  grind

theorem Interleave.ofField_eq_some {f : Nibble} {k : Interleave} (h : f.toNat = k.count) :
    Interleave.ofField f = some k := by
  rw [Interleave.ofField, h]
  cases k <;> rfl

theorem Scale.ofField_eq_some {f : Byte} {p : Scale} (h : f.toNat = p.exponent) : Scale.ofField f = some p := by
  rw [Scale.ofField, h]
  cases p <;> rfl

theorem exec_cfg_legal {s : State} {k : Nibble} {p : Byte} {k' : Interleave} {p' : Scale} (hf : s.fault = none)
    (hk : k.toNat = k'.count) (hp : p.toNat = p'.exponent) :
    exec (.cfg k p) s = .next (s.setCfg k' p').clearModel.bumpCc := by
  have hk' := Interleave.ofField_eq_some hk
  have hp' := Scale.ofField_eq_some hp
  have ha : AdmittedBySpec (.cfg k p) s :=
    ⟨(Interleave.ofField_isSome k).mp (hk' ▸ rfl), (Scale.ofField_isSome p).mp (hp' ▸ rfl)⟩
  have hbody : commandBody (.cfg k p) s = cfgBody k' p' s := by simp only [commandBody, hk', hp']
  exact exec_completed nofun hf ha hbody

/-- Settles O11: SRST is checked by nothing, and its registers and tables are those of power-on. -/
theorem srstResets : Obligations.SrstResets := by
  intro s
  obtain ⟨hcoder, hcfg, hstatus, -, hfcmd, -, hlen, hwp, hrp, hrend, hcc, hfreq, hcum, -⟩ :=
    resetValues s.msgCap s.strCap
  exact ⟨_, exec_srst s, hcoder, hcfg, hstatus, rfl, hfcmd, rfl, hlen, hwp, hrp, hrend, hfreq, hcum, hcc,
    State.readMsg_congr rfl rfl, State.readStr_congr rfl rfl, rfl, rfl, rfl⟩

/-- Settles O20: NOP is always admitted, and its body is empty. -/
theorem nopOnlyCounts : Obligations.NopOnlyCounts := by
  refine ⟨rfl, fun s => ⟨fun hf => exec_completed (i := .nop) nofun hf trivial rfl, fun hf => ?_⟩⟩
  obtain ⟨k, hk⟩ := Option.ne_none_iff_exists'.mp hf
  exact exec_faulted nofun hk

/-- Settles O21: the operand fields name one `K` and one `P`, or the admission check fails. -/
theorem cfgSetsAndClears : Obligations.CfgSetsAndClears := by
  intro s k p hf
  refine ⟨assemble_eq_or 0x01 k p, fun k' p' hk hp => exec_cfg_legal hf hk hp, fun hillegal => ?_⟩
  refine inadmissibleCommandRaises (.cfg k p) s hf ?_
  rintro ⟨hk, hlow, hhigh⟩
  rcases hillegal with ⟨h1, h2, h4⟩ | hp
  · exact hk.elim h1 (·.elim h2 h4)
  · omega

end Sys2Proof.Machine
end

/-! ### The faulted state -/

section
namespace Sys2Proof.Machine

theorem rejectWord_faulted {s : State} {k : FaultKind} (w : Word) (h : s.fault = some k) : rejectWord w s = s := by
  simp [rejectWord, State.faulted, h]

/-- Both kinds of word are discarded: a word that decodes is not the one that spells SRST, and the rejection of one
that does not decode is itself discarded (60_exceptions.md R153). -/
theorem present_faulted {w : Word} {s : State} {k : FaultKind} (hw : w ≠ encode .srst) (h : s.fault = some k) :
    present w s = .next s := by
  unfold present
  split
  case h_1 i hi =>
    have hsrst : i ≠ .srst := by
      rintro rfl
      exact hw (decode_eq_ok_iff.mp hi).symm
    exact exec_faulted hsrst h
  case h_2 => rw [rejectWord_faulted w h]

theorem portWriteReg_fault (s : State) (n : Nat) (v : Word) : (portWriteReg s n v).fault = s.fault := by
  rw [portWriteReg_eq]

theorem portWriteReg_fcmd (s : State) (n : Nat) (v : Word) : (portWriteReg s n v).fcmd = s.fcmd := by
  rw [portWriteReg_eq]

theorem eq_writeMsg_of_portWriteMsg {s t : State} {i : Nat} {b : Byte} (h : portWriteMsg s i b = .next t) :
    t = s.writeMsg i b := by
  unfold portWriteMsg at h
  split at h
  · exact (Host.Outcome.next.inj h).symm
  · cases h

theorem eq_writeStr_of_portWriteStr {s t : State} {a : Nat} {b : Byte} (h : portWriteStr s a b = .next t) :
    t = s.writeStr a b := by
  unfold portWriteStr at h
  split at h
  · exact (Host.Outcome.next.inj h).symm
  · cases h

theorem resetInput_fault (midCommand : Bool) (s : State) : (resetInput midCommand s).fault = none := by
  cases midCommand <;> rfl

theorem resetInput_fcmd (midCommand : Bool) (s : State) : (resetInput midCommand s).fcmd = 0 := by
  cases midCommand <;> rfl

/-- Settles O7: each host action on the state with that action taken; the word left out is the one that spells SRST. -/
theorem faultedState : Obligations.FaultedState := by
  intro s t rest hf
  refine ⟨fun w hs hw => ?_, fun a hs ha hstep => ?_, fun a hs ha hstep => ?_⟩
  · obtain ⟨k, hk⟩ := Option.ne_none_iff_exists'.mp hf
    exact (step_cons hs).trans (present_faulted hw hk)
  · have hact := (step_cons hs).symm.trans hstep
    rcases ha with ⟨n, v, rfl⟩ | ⟨i, b, rfl⟩ | ⟨i, b, rfl⟩
    · obtain rfl := Host.Outcome.next.inj hact
      exact ⟨portWriteReg_fault _ n v, portWriteReg_fcmd _ n v⟩
    · obtain rfl := eq_writeMsg_of_portWriteMsg hact
      exact ⟨State.writeMsg_fault _ i b, State.writeMsg_fcmd _ i b⟩
    · obtain rfl := eq_writeStr_of_portWriteStr hact
      exact ⟨State.writeStr_fault _ i b, State.writeStr_fcmd _ i b⟩
  · have hact := (step_cons hs).symm.trans hstep
    rcases ha with rfl | ⟨m, rfl⟩ | rfl
    · have hsrst : decode 0x02000000 = .ok .srst := decode_eq_ok_iff.mpr rfl
      rw [perform_decoded hsrst, exec_srst] at hact
      obtain rfl := Host.Outcome.next.inj hact
      exact ⟨rfl, rfl⟩
    · obtain rfl := Host.Outcome.next.inj hact
      exact ⟨resetInput_fault m _, resetInput_fcmd m _⟩
    · obtain rfl := Host.Outcome.next.inj hact
      exact ⟨rfl, rfl⟩

end Sys2Proof.Machine
end

/-! ### The reset input and power-on -/

section
namespace Sys2Proof.Machine

theorem resetLosingBuffers_eq (s : State) :
    s.resetLosingBuffers = { s.resetKeepingBuffers with msg := [], str := [], bufEpoch := s.bufEpoch + 1 } := rfl

theorem perform_resetInput_betweenCommands (s : State) : perform (.resetInput false) s = exec .srst s := rfl

/-- The two resets that leave the buffers unspecified are one (70_reset_and_hazards.md R170). -/
theorem perform_losingReset {cause : Input} (h : cause = .resetInput true ∨ cause = .powerOn) (s : State) :
    perform cause s = .next s.resetLosingBuffers := by
  rcases h with rfl | rfl <;> rfl

/-- Settles O12: between commands the step is SRST's; the other two resets only drop both buffers from its result. -/
theorem resetInputResets : Obligations.ResetInputResets := by
  intro s rest
  refine ⟨fun hs => ?_, fun cause hcause hs => ⟨_, exec_srst _, ?_⟩⟩
  · exact (step_cons hs).trans (perform_resetInput_betweenCommands _)
  · rw [step_cons hs, perform_losingReset hcause, resetLosingBuffers_eq]

end Sys2Proof.Machine
end
